-- ==== Sys2Proof/Word.lean ====
section
/-! DEFINITION. The word types of the Huffman codec core (spec/00_scope.md R5, R7): every register and memory entry
is a bit vector of the width the spec gives it, numbered from bit 0 at the least significant bit, unsigned. -/

namespace Sys2Proof

/-- One byte: a symbol (R5 SYM_W), a stream byte (R60, R63). -/
abbrev Byte := BitVec 8

/-- One 32-bit host register or histogram count (R5 REG_W, CNT_W). -/
abbrev Word := BitVec 32

/-- A node handle: an index into the 511-entry node arena (R34, R14). -/
abbrev Handle := BitVec 9

/-- A 64-bit counter or node frequency (R5 FREQ_W, SIZE_W). -/
abbrev Size := BitVec 64

end Sys2Proof
end

