-- ==== Sys2Proof/Config.lean ====
section
/-! DEFINITION. What is fixed for one machine (the spec's one parameter, R6) and the free values: constants with no
body, so that nothing can be proved of the value the spec leaves open (spec/93_implementation_defined.md, treatment
'any value'). -/

namespace Sys2Proof

/-- The byte order of a 4-byte header count (R6, R66). -/
inductive ByteOrder where
  | le
  | be
  deriving DecidableEq, Repr

/-- The parameters the model takes as an argument: R6 names HDR_BYTE_ORDER and no other. -/
structure Config where
  hdrByteOrder : ByteOrder
  deriving DecidableEq, Repr

/-- HCC_BASE, the bus address of the register window: the platform's choice (R332, U23). -/
opaque Config.hccBase : Nat

/-- The input cursor after a read or a rewind answered Err: unspecified (R61, R62, U3).
The argument is the number of the draw. -/
opaque Config.freeCursor : Nat → Nat

/-- The output stream after a write answered Err: unspecified (R63, U4). -/
opaque Config.freeOutput : Nat → List Byte

/-- HIST[i] after a reset event: unspecified (R48, R350, U7).
Arguments of this and the next ones: the draw, the entry. -/
opaque Config.freeHist : Nat → Nat → Word

/-- NODE[i] after a reset event, as the 92 bits of R118: unspecified (R48, R350, U7). -/
opaque Config.freeNode : Nat → Nat → BitVec 92

/-- WL[i] after a reset event: unspecified (R48, R350, U7). -/
opaque Config.freeWl : Nat → Nat → Handle

/-- ROOT after a reset event: unspecified (R48). -/
opaque Config.freeRoot : Nat → Handle

/-- CODE_LEN[i] after a reset event: unspecified (R48, R350, U7). -/
opaque Config.freeCodeLen : Nat → Nat → BitVec 9

/-- CODE_BITS[i] after a reset event: unspecified (R48, R350, U7). -/
opaque Config.freeCodeBits : Nat → Nat → BitVec 256

end Sys2Proof
end

