-- ==== Sys2Proof/Syntax.lean ====
section
/-! DEFINITION. The instructions (R2, R90): the sixteen host command words, by CMD bits [3:0] (R91), and the
thirty-two micro-operations of the sequencer, by STATE (R95). One constructor per row of spec/opcode_table.json. A
command carries the value of the word's bits [31:4], which R92 says are ignored: they are kept so that no bit of an
encoding is lost, and no meaning reads them. A micro-operation has no operand field (R96). -/

namespace Sys2Proof

inductive Instr where
  /-- ACK (CMD.OP = 0x0, R233). -/
  | ack (ign : Nat)
  /-- ENCODE (CMD.OP = 0x1, R231). -/
  | encode (ign : Nat)
  /-- DECODE (CMD.OP = 0x2, R232). -/
  | decode (ign : Nat)
  /-- CMD_RESERVED_3 (CMD.OP = 0x3, R234). -/
  | cmdReserved3 (ign : Nat)
  /-- CMD_RESERVED_4 (CMD.OP = 0x4, R234). -/
  | cmdReserved4 (ign : Nat)
  /-- CMD_RESERVED_5 (CMD.OP = 0x5, R234). -/
  | cmdReserved5 (ign : Nat)
  /-- CMD_RESERVED_6 (CMD.OP = 0x6, R234). -/
  | cmdReserved6 (ign : Nat)
  /-- CMD_RESERVED_7 (CMD.OP = 0x7, R234). -/
  | cmdReserved7 (ign : Nat)
  /-- CMD_RESERVED_8 (CMD.OP = 0x8, R234). -/
  | cmdReserved8 (ign : Nat)
  /-- CMD_RESERVED_9 (CMD.OP = 0x9, R234). -/
  | cmdReserved9 (ign : Nat)
  /-- CMD_RESERVED_A (CMD.OP = 0xA, R234). -/
  | cmdReservedA (ign : Nat)
  /-- CMD_RESERVED_B (CMD.OP = 0xB, R234). -/
  | cmdReservedB (ign : Nat)
  /-- CMD_RESERVED_C (CMD.OP = 0xC, R234). -/
  | cmdReservedC (ign : Nat)
  /-- CMD_RESERVED_D (CMD.OP = 0xD, R234). -/
  | cmdReservedD (ign : Nat)
  /-- CMD_RESERVED_E (CMD.OP = 0xE, R234). -/
  | cmdReservedE (ign : Nat)
  /-- CMD_RESERVED_F (CMD.OP = 0xF, R234). -/
  | cmdReservedF (ign : Nat)
  /-- S_IDLE (STATE = 0x00, R236). -/
  | sIdle
  /-- S_E_COUNT (STATE = 0x01, R134). -/
  | sECount
  /-- S_E_REWIND (STATE = 0x02, R135). -/
  | sERewind
  /-- S_T_INIT (STATE = 0x03, R170). -/
  | sTInit
  /-- S_T_MERGE (STATE = 0x04, R171). -/
  | sTMerge
  /-- S_C_GEN (STATE = 0x05, R190). -/
  | sCGen
  /-- S_E_HDR (STATE = 0x06, R250). -/
  | sEHdr
  /-- S_E_READ (STATE = 0x07, R251). -/
  | sERead
  /-- S_E_BIT (STATE = 0x08, R252). -/
  | sEBit
  /-- S_E_WRITE (STATE = 0x09, R253). -/
  | sEWrite
  /-- S_E_FLUSH (STATE = 0x0A, R254). -/
  | sEFlush
  /-- S_D_HDR (STATE = 0x0B, R260). -/
  | sDHdr
  /-- S_D_BIT (STATE = 0x0C, R261). -/
  | sDBit
  /-- S_D_EMIT (STATE = 0x0D, R262). -/
  | sDEmit
  /-- S_RESERVED_0E (STATE = 0x0E, R97). -/
  | sReserved0E
  /-- S_RESERVED_0F (STATE = 0x0F, R97). -/
  | sReserved0F
  /-- S_RESERVED_10 (STATE = 0x10, R97). -/
  | sReserved10
  /-- S_RESERVED_11 (STATE = 0x11, R97). -/
  | sReserved11
  /-- S_RESERVED_12 (STATE = 0x12, R97). -/
  | sReserved12
  /-- S_RESERVED_13 (STATE = 0x13, R97). -/
  | sReserved13
  /-- S_RESERVED_14 (STATE = 0x14, R97). -/
  | sReserved14
  /-- S_RESERVED_15 (STATE = 0x15, R97). -/
  | sReserved15
  /-- S_RESERVED_16 (STATE = 0x16, R97). -/
  | sReserved16
  /-- S_RESERVED_17 (STATE = 0x17, R97). -/
  | sReserved17
  /-- S_RESERVED_18 (STATE = 0x18, R97). -/
  | sReserved18
  /-- S_RESERVED_19 (STATE = 0x19, R97). -/
  | sReserved19
  /-- S_RESERVED_1A (STATE = 0x1A, R97). -/
  | sReserved1A
  /-- S_RESERVED_1B (STATE = 0x1B, R97). -/
  | sReserved1B
  /-- S_RESERVED_1C (STATE = 0x1C, R97). -/
  | sReserved1C
  /-- S_RESERVED_1D (STATE = 0x1D, R97). -/
  | sReserved1D
  /-- S_RESERVED_1E (STATE = 0x1E, R97). -/
  | sReserved1E
  /-- S_RESERVED_1F (STATE = 0x1F, R97). -/
  | sReserved1F
  deriving DecidableEq, Repr

end Sys2Proof
end

