-- ==== Sys2Proof/WellFormed.lean ====
section
/-! DEFINITION. Well-formed instructions: the ignored field of a command word is 28 bits wide (R24, R92). A
micro-operation has no field, so each is well formed (R96). -/

namespace Sys2Proof

/-- The value fits bits [31:4] of a 32-bit word. -/
abbrev ignFits (ign : Nat) : Bool := decide (ign < 2 ^ 28)

def Instr.wellFormed (i : Instr) : Bool :=
  match i with
  | .ack ign => ignFits ign
  | .encode ign => ignFits ign
  | .decode ign => ignFits ign
  | .cmdReserved3 ign => ignFits ign
  | .cmdReserved4 ign => ignFits ign
  | .cmdReserved5 ign => ignFits ign
  | .cmdReserved6 ign => ignFits ign
  | .cmdReserved7 ign => ignFits ign
  | .cmdReserved8 ign => ignFits ign
  | .cmdReserved9 ign => ignFits ign
  | .cmdReservedA ign => ignFits ign
  | .cmdReservedB ign => ignFits ign
  | .cmdReservedC ign => ignFits ign
  | .cmdReservedD ign => ignFits ign
  | .cmdReservedE ign => ignFits ign
  | .cmdReservedF ign => ignFits ign
  | .sIdle => true
  | .sECount => true
  | .sERewind => true
  | .sTInit => true
  | .sTMerge => true
  | .sCGen => true
  | .sEHdr => true
  | .sERead => true
  | .sEBit => true
  | .sEWrite => true
  | .sEFlush => true
  | .sDHdr => true
  | .sDBit => true
  | .sDEmit => true
  | .sReserved0E => true
  | .sReserved0F => true
  | .sReserved10 => true
  | .sReserved11 => true
  | .sReserved12 => true
  | .sReserved13 => true
  | .sReserved14 => true
  | .sReserved15 => true
  | .sReserved16 => true
  | .sReserved17 => true
  | .sReserved18 => true
  | .sReserved19 => true
  | .sReserved1A => true
  | .sReserved1B => true
  | .sReserved1C => true
  | .sReserved1D => true
  | .sReserved1E => true
  | .sReserved1F => true

end Sys2Proof
end

