-- ==== Sys2Proof/Decode.lean ====
section
/-! DEFINITION. The encodings (spec/30_encoding.md): the 32-bit command word (R91, R92) and the 5-bit STATE code
(R95, R96). The decoder is total on any bytes: 4 bytes are a command word, 1 byte is a STATE code, any other number of
bytes is rejected by name. After it stand the encoder and the rows of the opcode table. -/

namespace Sys2Proof

/-! The STATE codes of R95. -/

abbrev Code.sIdle : BitVec 5 := 0x00#5
abbrev Code.sECount : BitVec 5 := 0x01#5
abbrev Code.sERewind : BitVec 5 := 0x02#5
abbrev Code.sTInit : BitVec 5 := 0x03#5
abbrev Code.sTMerge : BitVec 5 := 0x04#5
abbrev Code.sCGen : BitVec 5 := 0x05#5
abbrev Code.sEHdr : BitVec 5 := 0x06#5
abbrev Code.sERead : BitVec 5 := 0x07#5
abbrev Code.sEBit : BitVec 5 := 0x08#5
abbrev Code.sEWrite : BitVec 5 := 0x09#5
abbrev Code.sEFlush : BitVec 5 := 0x0A#5
abbrev Code.sDHdr : BitVec 5 := 0x0B#5
abbrev Code.sDBit : BitVec 5 := 0x0C#5
abbrev Code.sDEmit : BitVec 5 := 0x0D#5

/-- The two things an instruction is encoded in (R90). -/
inductive CodeWord where
  | cmd (w : Word)
  | state (c : BitVec 5)
  deriving DecidableEq, Repr

/-- R91, R92: the decoder of a command word reads bits [3:0] and nothing else decides the command. -/
def decodeCmd (w : Word) : Instr :=
  match w.toNat % 16 with
  | 0 => .ack (w.toNat / 16)
  | 1 => .encode (w.toNat / 16)
  | 2 => .decode (w.toNat / 16)
  | 3 => .cmdReserved3 (w.toNat / 16)
  | 4 => .cmdReserved4 (w.toNat / 16)
  | 5 => .cmdReserved5 (w.toNat / 16)
  | 6 => .cmdReserved6 (w.toNat / 16)
  | 7 => .cmdReserved7 (w.toNat / 16)
  | 8 => .cmdReserved8 (w.toNat / 16)
  | 9 => .cmdReserved9 (w.toNat / 16)
  | 10 => .cmdReservedA (w.toNat / 16)
  | 11 => .cmdReservedB (w.toNat / 16)
  | 12 => .cmdReservedC (w.toNat / 16)
  | 13 => .cmdReservedD (w.toNat / 16)
  | 14 => .cmdReservedE (w.toNat / 16)
  | _ => .cmdReservedF (w.toNat / 16)

/-- R95, R96, R97: the micro-operation that a value of STATE selects. -/
def decodeState (c : BitVec 5) : Instr :=
  match c.toNat with
  | 0 => .sIdle
  | 1 => .sECount
  | 2 => .sERewind
  | 3 => .sTInit
  | 4 => .sTMerge
  | 5 => .sCGen
  | 6 => .sEHdr
  | 7 => .sERead
  | 8 => .sEBit
  | 9 => .sEWrite
  | 10 => .sEFlush
  | 11 => .sDHdr
  | 12 => .sDBit
  | 13 => .sDEmit
  | 14 => .sReserved0E
  | 15 => .sReserved0F
  | 16 => .sReserved10
  | 17 => .sReserved11
  | 18 => .sReserved12
  | 19 => .sReserved13
  | 20 => .sReserved14
  | 21 => .sReserved15
  | 22 => .sReserved16
  | 23 => .sReserved17
  | 24 => .sReserved18
  | 25 => .sReserved19
  | 26 => .sReserved1A
  | 27 => .sReserved1B
  | 28 => .sReserved1C
  | 29 => .sReserved1D
  | 30 => .sReserved1E
  | _ => .sReserved1F

def decodeWord : CodeWord → Instr
  | .cmd w => decodeCmd w
  | .state c => decodeState c

/-- Why bytes are no instruction. -/
inductive DecodeError where
  /-- there are no bytes -/
  | noBytes
  /-- neither the 4 bytes of a command word nor the 1 byte of a STATE code -/
  | badLength (n : Nat)
  deriving DecidableEq, Repr

/-- A code word from its bytes, least significant byte first. A byte's bits [7:5] are outside STATE (R96: the mask
is 0x1F). The bus word itself has no byte order (R69): this order is the opcode table's bit numbering. -/
def codeWordOfBytes : List Byte → Except DecodeError CodeWord
  | [] => .error .noBytes
  | [b] => .ok (.state (b.setWidth 5))
  | [b0, b1, b2, b3] =>
    .ok (.cmd (BitVec.ofNat 32 (b0.toNat + 2 ^ 8 * b1.toNat + 2 ^ 16 * b2.toNat + 2 ^ 24 * b3.toNat)))
  | bs => .error (.badLength bs.length)

def decode (bs : List Byte) : Except DecodeError Instr :=
  match codeWordOfBytes bs with
  | .ok cw => .ok (decodeWord cw)
  | .error e => .error e

/-! The encoder, from R91, R92 and R95. -/

/-- A command word: the ignored bits [31:4] above OP. -/
def cmdWord (ign op : Nat) : Word := BitVec.ofNat 32 (ign * 16 + op)

def encodeWord (i : Instr) : CodeWord :=
  match i with
  | .ack ign => .cmd (cmdWord ign 0x0)
  | .encode ign => .cmd (cmdWord ign 0x1)
  | .decode ign => .cmd (cmdWord ign 0x2)
  | .cmdReserved3 ign => .cmd (cmdWord ign 0x3)
  | .cmdReserved4 ign => .cmd (cmdWord ign 0x4)
  | .cmdReserved5 ign => .cmd (cmdWord ign 0x5)
  | .cmdReserved6 ign => .cmd (cmdWord ign 0x6)
  | .cmdReserved7 ign => .cmd (cmdWord ign 0x7)
  | .cmdReserved8 ign => .cmd (cmdWord ign 0x8)
  | .cmdReserved9 ign => .cmd (cmdWord ign 0x9)
  | .cmdReservedA ign => .cmd (cmdWord ign 0xA)
  | .cmdReservedB ign => .cmd (cmdWord ign 0xB)
  | .cmdReservedC ign => .cmd (cmdWord ign 0xC)
  | .cmdReservedD ign => .cmd (cmdWord ign 0xD)
  | .cmdReservedE ign => .cmd (cmdWord ign 0xE)
  | .cmdReservedF ign => .cmd (cmdWord ign 0xF)
  | .sIdle => .state 0x00#5
  | .sECount => .state 0x01#5
  | .sERewind => .state 0x02#5
  | .sTInit => .state 0x03#5
  | .sTMerge => .state 0x04#5
  | .sCGen => .state 0x05#5
  | .sEHdr => .state 0x06#5
  | .sERead => .state 0x07#5
  | .sEBit => .state 0x08#5
  | .sEWrite => .state 0x09#5
  | .sEFlush => .state 0x0A#5
  | .sDHdr => .state 0x0B#5
  | .sDBit => .state 0x0C#5
  | .sDEmit => .state 0x0D#5
  | .sReserved0E => .state 0x0E#5
  | .sReserved0F => .state 0x0F#5
  | .sReserved10 => .state 0x10#5
  | .sReserved11 => .state 0x11#5
  | .sReserved12 => .state 0x12#5
  | .sReserved13 => .state 0x13#5
  | .sReserved14 => .state 0x14#5
  | .sReserved15 => .state 0x15#5
  | .sReserved16 => .state 0x16#5
  | .sReserved17 => .state 0x17#5
  | .sReserved18 => .state 0x18#5
  | .sReserved19 => .state 0x19#5
  | .sReserved1A => .state 0x1A#5
  | .sReserved1B => .state 0x1B#5
  | .sReserved1C => .state 0x1C#5
  | .sReserved1D => .state 0x1D#5
  | .sReserved1E => .state 0x1E#5
  | .sReserved1F => .state 0x1F#5

def CodeWord.toBytes : CodeWord → List Byte
  | .cmd w => [w.extractLsb' 0 8, w.extractLsb' 8 8, w.extractLsb' 16 8, w.extractLsb' 24 8]
  | .state c => [c.setWidth 8]

def encode (i : Instr) : List Byte := (encodeWord i).toBytes

/-- A row of the opcode table: the bits that its mask selects equal its match. -/
structure Row where
  mnemonic : String
  mask : Nat
  bits : Nat
  deriving DecidableEq, Repr

def Instr.row (i : Instr) : Row :=
  match i with
  | .ack _ => ⟨"ACK", 0x0000000F, 0x0⟩
  | .encode _ => ⟨"ENCODE", 0x0000000F, 0x1⟩
  | .decode _ => ⟨"DECODE", 0x0000000F, 0x2⟩
  | .cmdReserved3 _ => ⟨"CMD_RESERVED_3", 0x0000000F, 0x3⟩
  | .cmdReserved4 _ => ⟨"CMD_RESERVED_4", 0x0000000F, 0x4⟩
  | .cmdReserved5 _ => ⟨"CMD_RESERVED_5", 0x0000000F, 0x5⟩
  | .cmdReserved6 _ => ⟨"CMD_RESERVED_6", 0x0000000F, 0x6⟩
  | .cmdReserved7 _ => ⟨"CMD_RESERVED_7", 0x0000000F, 0x7⟩
  | .cmdReserved8 _ => ⟨"CMD_RESERVED_8", 0x0000000F, 0x8⟩
  | .cmdReserved9 _ => ⟨"CMD_RESERVED_9", 0x0000000F, 0x9⟩
  | .cmdReservedA _ => ⟨"CMD_RESERVED_A", 0x0000000F, 0xA⟩
  | .cmdReservedB _ => ⟨"CMD_RESERVED_B", 0x0000000F, 0xB⟩
  | .cmdReservedC _ => ⟨"CMD_RESERVED_C", 0x0000000F, 0xC⟩
  | .cmdReservedD _ => ⟨"CMD_RESERVED_D", 0x0000000F, 0xD⟩
  | .cmdReservedE _ => ⟨"CMD_RESERVED_E", 0x0000000F, 0xE⟩
  | .cmdReservedF _ => ⟨"CMD_RESERVED_F", 0x0000000F, 0xF⟩
  | .sIdle => ⟨"S_IDLE", 0x1F, 0x00⟩
  | .sECount => ⟨"S_E_COUNT", 0x1F, 0x01⟩
  | .sERewind => ⟨"S_E_REWIND", 0x1F, 0x02⟩
  | .sTInit => ⟨"S_T_INIT", 0x1F, 0x03⟩
  | .sTMerge => ⟨"S_T_MERGE", 0x1F, 0x04⟩
  | .sCGen => ⟨"S_C_GEN", 0x1F, 0x05⟩
  | .sEHdr => ⟨"S_E_HDR", 0x1F, 0x06⟩
  | .sERead => ⟨"S_E_READ", 0x1F, 0x07⟩
  | .sEBit => ⟨"S_E_BIT", 0x1F, 0x08⟩
  | .sEWrite => ⟨"S_E_WRITE", 0x1F, 0x09⟩
  | .sEFlush => ⟨"S_E_FLUSH", 0x1F, 0x0A⟩
  | .sDHdr => ⟨"S_D_HDR", 0x1F, 0x0B⟩
  | .sDBit => ⟨"S_D_BIT", 0x1F, 0x0C⟩
  | .sDEmit => ⟨"S_D_EMIT", 0x1F, 0x0D⟩
  | .sReserved0E => ⟨"S_RESERVED_0E", 0x1F, 0x0E⟩
  | .sReserved0F => ⟨"S_RESERVED_0F", 0x1F, 0x0F⟩
  | .sReserved10 => ⟨"S_RESERVED_10", 0x1F, 0x10⟩
  | .sReserved11 => ⟨"S_RESERVED_11", 0x1F, 0x11⟩
  | .sReserved12 => ⟨"S_RESERVED_12", 0x1F, 0x12⟩
  | .sReserved13 => ⟨"S_RESERVED_13", 0x1F, 0x13⟩
  | .sReserved14 => ⟨"S_RESERVED_14", 0x1F, 0x14⟩
  | .sReserved15 => ⟨"S_RESERVED_15", 0x1F, 0x15⟩
  | .sReserved16 => ⟨"S_RESERVED_16", 0x1F, 0x16⟩
  | .sReserved17 => ⟨"S_RESERVED_17", 0x1F, 0x17⟩
  | .sReserved18 => ⟨"S_RESERVED_18", 0x1F, 0x18⟩
  | .sReserved19 => ⟨"S_RESERVED_19", 0x1F, 0x19⟩
  | .sReserved1A => ⟨"S_RESERVED_1A", 0x1F, 0x1A⟩
  | .sReserved1B => ⟨"S_RESERVED_1B", 0x1F, 0x1B⟩
  | .sReserved1C => ⟨"S_RESERVED_1C", 0x1F, 0x1C⟩
  | .sReserved1D => ⟨"S_RESERVED_1D", 0x1F, 0x1D⟩
  | .sReserved1E => ⟨"S_RESERVED_1E", 0x1F, 0x1E⟩
  | .sReserved1F => ⟨"S_RESERVED_1F", 0x1F, 0x1F⟩

/-- The number a code word's bits make, bit 0 its least significant bit. -/
def CodeWord.toNat : CodeWord → Nat
  | .cmd w => w.toNat
  | .state c => c.toNat

/-- An instruction's bytes as the opcode table numbers them. A row of 5 to 8 bits is a STATE code; a row of at most
4 bits can only be the OP field of a command word, and one of 9 to 32 bits is a command word. -/
def tableBytes (nbits w : Nat) : List Byte :=
  if 5 ≤ nbits ∧ nbits ≤ 8 then [BitVec.ofNat 8 w]
  else if nbits ≤ 32 then (CodeWord.cmd (BitVec.ofNat 32 w)).toBytes
  else List.replicate (nbits / 8) 0#8

def decodeTableWord (nbits w : Nat) : Option Instr :=
  match decode (tableBytes nbits w) with
  | .ok i => some i
  | .error _ => none

end Sys2Proof
end

