-- ==== Sys2Proof/Machine/State.lean ====
section
/-! DEFINITION. The state of the machine (spec/10_state.md), as plain data, and its reset value (R48). Three parts are
kept apart: `cfg`, fixed for one machine; `blk`, the block's own registers and memories (R20); `host`, what the host
owns (R12, R60, R63) and what it is about to do. INVENTORY.md lists every field with its rule. -/

namespace Sys2Proof.Machine

/-- ERROR.CODE (R300); the codes 7 to 15 are never written (U15). -/
inductive ErrCode where
  | none
  | ioError
  | formatError
  | allocationError
  | countOverflow
  | streamMismatch
  | illegalCommand
  deriving DecidableEq, Repr

/-- ERROR.STAGE (R301); the stages 8 to 15 are never written (U15). -/
inductive Stage where
  | none
  | analysis
  | header
  | treeBuild
  | bitDecode
  | codeGen
  | bitEncode
  | command
  deriving DecidableEq, Repr

/-- One entry of the node arena (R34). -/
structure Node where
  freq : Size
  sym : Byte
  lv : Bool
  l : Handle
  rv : Bool
  r : Handle
  deriving DecidableEq, Repr

/-- The all-zero record: what an arena entry holds in `State.reset` (a DESIGN CHOICE, log entry 2). -/
def Node.zero : Node := ⟨0, 0, false, 0, false, 0⟩

/-- The block: the registers and memories of R22 to R44. `done_irq` is no field: it is a level computed from DONE and
ERR at every instant (R30), see `doneIrq`. CMD holds no state (R24). -/
structure Block where
  busy : Bool
  done : Bool
  err : Bool
  rej : Bool
  errCode : ErrCode
  errStage : Stage
  inSize : Size
  outSize : Size
  total : Size
  distinct : BitVec 9
  state : BitVec 5
  mode : BitVec 2
  hist : Vector Word 256
  node : Vector Node 511
  ncnt : BitVec 10
  wl : Vector Handle 256
  wlLen : BitVec 9
  root : Handle
  rootV : Bool
  codeLen : Vector (BitVec 9) 256
  codeBits : Vector (BitVec 256) 256
  hdrIdx : BitVec 11
  bwBuf : Byte
  bwCnt : BitVec 4
  brBuf : Byte
  brCnt : BitVec 4
  sym : Byte
  bitIdx : BitVec 9
  emitCnt : Size
  decCnt : Size
  cur : Handle
  deriving DecidableEq, Repr

/-- The host's answer to a read of the input port (R61). -/
inductive InAnswer where
  | byte (b : Byte)
  | eof
  | err
  deriving DecidableEq, Repr

/-- The host's answer to a rewind or a write (R62, R63). -/
inductive PortAnswer where
  | ok
  | err
  deriving DecidableEq, Repr

/-- The width of a host access to the register window (R23). -/
inductive AccessSize where
  | byte
  | half
  | word
  deriving DecidableEq, Repr

/-- What happens next, as the host's schedule says it: the interleaving of host steps and sequencer steps (R12, R74)
with the host's draw for the port transaction of a sequencer step (R64). -/
inductive HostEvent where
  /-- the sequencer takes its step; `err`: the host answers Err if the step makes a port transaction -/
  | seq (err : Bool)
  /-- the host reads the register window at a byte offset -/
  | read (off : Byte) (size : AccessSize)
  /-- the host writes the register window at a byte offset -/
  | write (off : Byte) (size : AccessSize) (data : Word)
  /-- the host binds an input stream, with ICUR = 0 (R102, R355) -/
  | bindIn (data : List Byte)
  /-- the host binds an output stream, empty or not (R102, R355) -/
  | bindOut (data : List Byte)
  /-- the reset event (R350) -/
  | reset
  deriving DecidableEq, Repr

/-- What the host sees: the value of a register read, and each port transaction with its answer. -/
inductive Obs where
  | regRead (off : Byte) (value : Word)
  | inRead (r : InAnswer)
  | inRewind (r : PortAnswer)
  | outWrite (b : Byte) (r : PortAnswer)
  deriving DecidableEq, Repr

/-- The host's side: the streams it owns (R60, R63), its schedule, and the model's own record of draws and of what the
host saw. -/
structure HostSide where
  /-- IN_DATA (R60) -/
  inData : List Byte
  /-- ICUR (R60) -/
  icur : Nat
  /-- OUT_DATA (R63) -/
  outData : List Byte
  /-- the host has bound the input port (R355, R356) -/
  inBound : Bool
  /-- the host has bound the output port (R355, R356) -/
  outBound : Bool
  /-- the model's own: the host's schedule, next event first; an empty schedule lets the sequencer run (log entry 4) -/
  agenda : List HostEvent
  /-- the model's own: does the host answer Err to a port transaction of this step (R64) -/
  ansErr : Bool
  /-- the model's own: how many free values were drawn so far -/
  draws : Nat
  /-- the model's own: what the host saw, latest first -/
  obs : List Obs
  deriving DecidableEq, Repr

structure State where
  cfg : Config
  blk : Block
  host : HostSide
  deriving DecidableEq, Repr

/-- An internal memory (R65). -/
inductive MemName where
  | hist
  | node
  | wl
  deriving DecidableEq, Repr

/-- A precondition that the spec states for a primitive and that every reachable call meets. -/
inductive Precondition where
  /-- R201: bwPut needs BW_CNT < 8 -/
  | writerNotFull
  /-- R154: insertStable needs WL_LEN < 256 -/
  | worklistNotFull
  /-- R161, R162: removeHead needs WL_LEN ≥ 1 -/
  | worklistNotEmpty
  /-- R181: visit needs len(p) ≤ 255 -/
  | codewordFits
  deriving DecidableEq, Repr

/-- Why the machine stops. -/
inductive Fault where
  /-- Raised by the eighteen S_RESERVED micro-operations: STATE holds a reserved value and the block is stuck (R97,
  U10). Safe: no rule writes such a value. -/
  | stuckState (code : BitVec 5)
  /-- Raised by the micro-operations that index an internal memory (S_T_INIT, S_T_MERGE, S_C_GEN, S_E_HDR, S_D_HDR,
  S_D_BIT, S_D_EMIT) at an index the memory does not have (R65: HIST 0..255, NODE 0..510, WL 0..255). Safe: no
  reachable state does so (log entry 6). -/
  | noSuchEntry (m : MemName) (index : Nat)
  /-- Raised by S_T_INIT, S_T_MERGE, S_C_GEN and S_E_BIT when a primitive is called outside its stated precondition,
  where the spec gives it no effect. Safe: no reachable state does so (log entry 6). -/
  | precondition (p : Precondition)
  deriving DecidableEq, Repr

/-- Why the model has no transition. -/
inductive Refusal where
  /-- Raised by exec's arms of instructions without a meaning: there is none in this model. -/
  | notModelled (mnemonic : String)
  /-- Raised by step on a host access that is narrower than 32 bits or at an offset that is not word aligned: R23
  refuses it (U14). Safe. -/
  | badAccess (off : Byte) (size : AccessSize)
  /-- Raised by step when the host binds a stream while BUSY = 1: R361 and R356 admit no such host step (U18). Safe for
  hosts that keep their duty. -/
  | bindWhileBusy
  /-- Raised by the ENCODE and DECODE meanings while BUSY = 0 when ICUR ≠ 0: the rules hold only for ICUR = 0 (R355), and
  a model has no transition for such a launch (U20, treatment 'refuse'). Safe. -/
  | launchNotAtStart
  deriving DecidableEq, Repr

/-- Every piece of block state right after reset (R48). HIST, NODE, WL, ROOT, CODE_LEN and CODE_BITS have no reset
value in the spec: zero here is a DESIGN CHOICE (log entry 2). -/
def Block.reset : Block where
  busy := false
  done := false
  err := false
  rej := false
  errCode := .none
  errStage := .none
  inSize := 0
  outSize := 0
  total := 0
  distinct := 0
  state := 0x00#5
  mode := 0
  hist := Vector.replicate 256 0
  node := Vector.replicate 511 Node.zero
  ncnt := 0
  wl := Vector.replicate 256 0
  wlLen := 0
  root := 0
  rootV := false
  codeLen := Vector.replicate 256 0
  codeBits := Vector.replicate 256 0
  hdrIdx := 0
  bwBuf := 0
  bwCnt := 0
  brBuf := 0
  brCnt := 0
  sym := 0
  bitIdx := 0
  emitCnt := 0
  decCnt := 0
  cur := 0

/-- The host has bound no stream yet and scheduled nothing (log entry 5). -/
def HostSide.initial : HostSide where
  inData := []
  icur := 0
  outData := []
  inBound := false
  outBound := false
  agenda := []
  ansErr := false
  draws := 0
  obs := []

/-- The machine right after reset, with the default header byte order LE (R6). -/
def State.reset : State where
  cfg := ⟨.le⟩
  blk := Block.reset
  host := HostSide.initial

end Sys2Proof.Machine
end

