-- ==== Sys2Proof/Machine/Flags.lean ====
section
/-! DEFINITION. The flags and the words they are read in: STATUS (R25, R93), ERROR (R26, R94, R300, R301), the
`done_irq` level (R30), and each way a flag is set or cleared: acknowledge (R233), busy write (R235), reserved command
(R234), completion (R281). The block has no condition codes (R45). -/

namespace Sys2Proof.Machine

def flagBit (b : Bool) : BitVec 1 := BitVec.ofBool b

/-- R93: STATUS = zext_32(STATE, 00, MODE, REJ, ERR, DONE, BUSY), STATE highest. -/
def statusWord (b : Block) : Word :=
  (b.state ++ 0#2 ++ b.mode ++ flagBit b.rej ++ flagBit b.err ++ flagBit b.done ++ flagBit b.busy).setWidth 32

/-- R300. -/
def codeBitsOf (c : ErrCode) : BitVec 4 :=
  match c with
  | .none => 0
  | .ioError => 1
  | .formatError => 2
  | .allocationError => 3
  | .countOverflow => 4
  | .streamMismatch => 5
  | .illegalCommand => 6

/-- R301. -/
def stageBitsOf (g : Stage) : BitVec 4 :=
  match g with
  | .none => 0
  | .analysis => 1
  | .header => 2
  | .treeBuild => 3
  | .bitDecode => 4
  | .codeGen => 5
  | .bitEncode => 6
  | .command => 7

/-- R94: ERROR = zext_32(STAGE, CODE), STAGE highest. -/
def errorWord (b : Block) : Word := (stageBitsOf b.errStage ++ codeBitsOf b.errCode).setWidth 32

/-- R30, R320: the level of the one output signal. -/
def doneIrq (b : Block) : Bool := b.done || b.err

/-- The sequencer's transfer of control: STATE <- code (R9, R31). -/
def goto (code : BitVec 5) (b : Block) : Block := { b with state := code }

/-- R233: ACK clears DONE, ERR, REJ and ERROR. It is the return from the error state (R314). -/
def ackReturn (b : Block) : Block :=
  { b with done := false, err := false, rej := false, errCode := .none, errStage := .none }

/-- R235: a CMD write while BUSY sets REJ. -/
def busyWrite (b : Block) : Block := { b with rej := true }

/-- R234: a reserved command while idle records IllegalCommand(COMMAND). -/
def illegalCommand (b : Block) : Block :=
  { b with done := false, err := true, errCode := .illegalCommand, errStage := .command }

/-- R281: complete(). -/
def complete (b : Block) : Block := { b with state := Code.sIdle, busy := false, done := true }

end Sys2Proof.Machine
end

