-- ==== Sys2Proof/Machine/Operands.lean ====
section
/-! DEFINITION. The operand forms: the register window's offsets (R22, R23), the entries of the internal memories
(R33 to R38), the byte lanes of a header count (R66), and the bits of a codeword (R8, R38). -/

namespace Sys2Proof.Machine

/-! The register window. -/

/-- R23: every host access is 32 bits wide and word aligned. -/
def accessOk (off : Byte) (size : AccessSize) : Bool := decide (size = .word) && decide (off.toNat % 4 = 0)

def loHalf (v : Size) : Word := v.extractLsb' 0 32

def hiHalf (v : Size) : Word := v.extractLsb' 32 32

/-- R22: the value of a 32-bit read at a word-aligned offset; CMD and the reserved offsets read 0 (R23). -/
def readReg (b : Block) (off : Byte) : Word :=
  match off.toNat with
  | 0x04 => statusWord b
  | 0x08 => errorWord b
  | 0x0C => loHalf b.inSize
  | 0x10 => hiHalf b.inSize
  | 0x14 => loHalf b.outSize
  | 0x18 => hiHalf b.outSize
  | 0x1C => loHalf b.total
  | 0x20 => hiHalf b.total
  | 0x24 => b.distinct.setWidth 32
  | _ => 0

/-- The bus address of a window offset (R332). -/
def busAddress (off : Byte) : Nat := Config.hccBase + off.toNat

/-- The window offset that a bus address selects, none outside the 256-byte window (R22, R332). -/
def windowOffset (addr : Nat) : Option Byte :=
  if Config.hccBase ≤ addr ∧ addr < Config.hccBase + 256 then some (BitVec.ofNat 8 (addr - Config.hccBase)) else none

/-! The histogram and the code table: 256 entries each, one per symbol. -/

def histAt (b : Block) (s : Byte) : Word := b.hist[s.toNat]'s.isLt

def setHist (s : Byte) (v : Word) (b : Block) : Block := { b with hist := b.hist.set s.toNat v s.isLt }

def codeLenAt (b : Block) (s : Byte) : BitVec 9 := b.codeLen[s.toNat]'s.isLt

def codeBitsAt (b : Block) (s : Byte) : BitVec 256 := b.codeBits[s.toNat]'s.isLt

/-- R8, R38: `CODE_BITS[s](i)`, bit i of the codeword, the first bit at position 0. -/
def codewordBit (b : Block) (s : Byte) (i : BitVec 9) : Bool := (codeBitsAt b s).getLsbD i.toNat

/-- R183: a bit string as CODE_BITS holds it, the first bit at position 0 and zeros above the last. -/
def packPath : List Bool → BitVec 256
  | [] => 0
  | x :: xs => (packPath xs <<< 1) ||| (flagBit x).setWidth 256

/-- R181: record the path as the symbol's codeword and length. -/
def setCode (s : Byte) (p : List Bool) (b : Block) : Block :=
  { b with
    codeLen := b.codeLen.set s.toNat (BitVec.ofNat 9 p.length) s.isLt
    codeBits := b.codeBits.set s.toNat (packPath p) s.isLt }

/-- Every symbol in ascending order (R156, R170). -/
def allSymbols : List Byte := (List.range 256).map (BitVec.ofNat 8)

/-! The node arena and the worklist. -/

/-- R34: a node is a leaf exactly when LV = 0 and RV = 0. -/
def isLeaf (n : Node) : Bool := !n.lv && !n.rv

/-- The handle is below NODE_CAP (R5, R34). -/
def inArena (h : Handle) : Bool := decide (h.toNat < 511)

/-- NODE[h].FREQ, for a handle of the arena. -/
def freqOf (b : Block) (h : Handle) : Size :=
  match b.node[h.toNat]? with
  | some n => n.freq
  | none => 0

/-- R36: the worklist is WL[0..WL_LEN-1], the head first. -/
def worklist (b : Block) : List Handle := b.wl.toList.take b.wlLen.toNat

/-- Write handles to consecutive entries of WL, from entry i up. -/
def writeWlFrom (i : Nat) : List Handle → Vector Handle 256 → Vector Handle 256
  | [], v => v
  | h :: hs, v => writeWlFrom (i + 1) hs (v.setIfInBounds i h)

/-- Make the worklist l: entries 0 to length l - 1 and WL_LEN change, the entries above keep their values. -/
def putWorklist (l : List Handle) (b : Block) : Block :=
  { b with wl := writeWlFrom 0 l b.wl, wlLen := BitVec.ofNat 9 l.length }

/-- The record of R118, 92 bits: FREQ, SYM, LV, L, RV, R from the highest bit down. -/
def nodeOfBits (v : BitVec 92) : Node where
  freq := v.extractLsb' 28 64
  sym := v.extractLsb' 20 8
  lv := v.getLsbD 19
  l := v.extractLsb' 10 9
  rv := v.getLsbD 9
  r := v.extractLsb' 0 9

/-- The 92 bits of a record (R118). -/
def bitsOfNode (n : Node) : BitVec 92 :=
  (n.freq ++ n.sym ++ flagBit n.lv ++ n.l ++ flagBit n.rv ++ n.r).setWidth 92

/-! Header counts. -/

/-- R66: the lowest bit of byte lane j (0 to 3) of a count. -/
def laneLow (o : ByteOrder) (j : Nat) : Nat :=
  match o with
  | .le => 8 * j
  | .be => 24 - 8 * j

def getLane (o : ByteOrder) (j : Nat) (v : Word) : Byte := v.extractLsb' (laneLow o j) 8

def putLane (o : ByteOrder) (j : Nat) (x : Byte) (v : Word) : Word :=
  (v &&& ~~~(0xFF#32 <<< laneLow o j)) ||| (x.setWidth 32 <<< laneLow o j)

/-- R66: the symbol whose count holds header byte k. -/
def hdrSymbol (k : BitVec 11) : Byte := BitVec.ofNat 8 (k.toNat >>> 2)

/-- R66: the byte lane of header byte k. -/
def hdrLane (k : BitVec 11) : Nat := k.toNat &&& 3

/-- R66: hdrByte(k), for k in 0..1023. -/
def hdrByte (o : ByteOrder) (b : Block) (k : BitVec 11) : Byte := getLane o (hdrLane k) (histAt b (hdrSymbol k))

end Sys2Proof.Machine
end

