-- ==== Sys2Proof/Machine/Ops.lean ====
section
/-! DEFINITION. The shared operations: the end of a micro-operation with error entry (R10, R310), the initialisation of
a command (R49), the port transactions (R60 to R64), the histogram, tree-builder, code-table and bit-stream primitives
(R132, R154 to R163, R181, R201 to R211), and the reset event (R350). -/

namespace Sys2Proof.Machine

/-- How the computation of a step can end without committing: `raise E(stage)` (R9), or no effect given. -/
inductive Stop where
  | raise (c : ErrCode) (g : Stage)
  | fault (f : Fault)
  deriving DecidableEq, Repr

/-- The computation of a step on the block's registers and memories: all its writes, or none. -/
abbrev Micro := Except Stop Block

/-- R310: error entry. Everything but STATE, BUSY, DONE, ERR and ERROR keeps its value. -/
def errorEntry (c : ErrCode) (g : Stage) (b : Block) : Block :=
  { b with state := Code.sIdle, busy := false, done := false, err := true, errCode := c, errStage := g }

/-- R10, R310, R311: the end of a micro-operation. `h` is the host's side after the step's port transaction, which
stays in every case; the block's writes are committed whole, or error entry acts on the block as it was. -/
def finish (s : State) (h : HostSide) (m : Micro) : Host.Outcome State Fault Refusal :=
  match m with
  | .ok b => .next { s with blk := b, host := h }
  | .error (.raise c g) => .next { s with blk := errorEntry c g s.blk, host := h }
  | .error (.fault f) => .fault f

/-- R49: initCommand(). NODE and WL entries stay as they were. -/
def initCommand (b : Block) : Block :=
  { b with
    hist := Vector.replicate 256 0
    codeLen := Vector.replicate 256 0
    codeBits := Vector.replicate 256 0
    ncnt := 0
    wlLen := 0
    root := 0
    rootV := false
    inSize := 0
    outSize := 0
    total := 0
    distinct := 0
    hdrIdx := 0
    bwBuf := 0
    bwCnt := 0
    brBuf := 0
    brCnt := 0
    sym := 0
    bitIdx := 0
    emitCnt := 0
    decCnt := 0
    cur := 0
    errCode := .none
    errStage := .none
    done := false
    err := false
    rej := false }

/-- R231, R232: the acceptance of ENCODE or DECODE. -/
def accept (mode : BitVec 2) (first : BitVec 5) (b : Block) : Block :=
  { initCommand b with mode := mode, busy := true, state := first }

/-- R230: a command word is acted on at once; while BUSY it is only noted. -/
def onCommand (act : Block → Block) (s : State) : Host.Outcome State Fault Refusal :=
  .next { s with blk := if s.blk.busy then busyWrite s.blk else act s.blk }

/-- R231, R232, R355: ENCODE and DECODE. While BUSY the word is only noted, whatever the cursor (R235); a launch with
ICUR ≠ 0 has no transition (U20). -/
def onLaunch (mode : BitVec 2) (first : BitVec 5) (s : State) : Host.Outcome State Fault Refusal :=
  if s.blk.busy = false ∧ s.host.icur ≠ 0 then .refused .launchNotAtStart else onCommand (accept mode first) s

/-! Port transactions. -/

/-- R61: InRead(). After Err the cursor is any value within the stream (R60, U3). The pseudocode answers Eof for
ICUR = L_in and gives nothing for ICUR > L_in, which R60 excludes: Eof there too is a DESIGN CHOICE (log entry 17). -/
def inRead (h : HostSide) : InAnswer × HostSide :=
  if h.ansErr then
    (.err, { h with
      icur := Config.freeCursor h.draws % (h.inData.length + 1)
      draws := h.draws + 1
      obs := .inRead .err :: h.obs })
  else
    match h.inData[h.icur]? with
    | none => (.eof, { h with obs := .inRead .eof :: h.obs })
    | some b => (.byte b, { h with icur := h.icur + 1, obs := .inRead (.byte b) :: h.obs })

/-- R62: InRewind(). -/
def inRewind (h : HostSide) : PortAnswer × HostSide :=
  if h.ansErr then
    (.err, { h with
      icur := Config.freeCursor h.draws % (h.inData.length + 1)
      draws := h.draws + 1
      obs := .inRewind .err :: h.obs })
  else (.ok, { h with icur := 0, obs := .inRewind .ok :: h.obs })

/-- R63: OutWrite(b). After Err the output stream is any value (U4). -/
def outWrite (b : Byte) (h : HostSide) : PortAnswer × HostSide :=
  if h.ansErr then
    (.err, { h with
      outData := Config.freeOutput h.draws
      draws := h.draws + 1
      obs := .outWrite b .err :: h.obs })
  else (.ok, { h with outData := h.outData ++ [b], obs := .outWrite b .ok :: h.obs })

/-! Counters. -/

def countIn (b : Block) : Block := { b with inSize := b.inSize + 1 }

def countOut (b : Block) : Block := { b with outSize := b.outSize + 1 }

/-- R132, R133: histInc(b). -/
def histInc (x : Byte) (b : Block) : Micro :=
  if histAt b x = 0xFFFFFFFF#32 then .error (.raise .countOverflow .analysis)
  else .ok (countIn (setHist x (histAt b x + 1) b))

/-! The tree builder's primitives. -/

/-- NODE[h]; there is no entry 511 (R34). -/
def nodeAt (b : Block) (h : Handle) : Except Stop Node :=
  if p : h.toNat < 511 then .ok (b.node[h.toNat]'p) else .error (.fault (.noSuchEntry .node h.toNat))

/-- The common part of R158 and R159: the next entry of the arena holds n; the answer is its handle. -/
def allocNode (n : Node) (b : Block) : Except Stop (Handle × Block) :=
  if b.ncnt = 511#10 then .error (.raise .allocationError .treeBuild)
  else if p : b.ncnt.toNat < 511 then
    .ok (b.ncnt.setWidth 9, { b with node := b.node.set b.ncnt.toNat n p, ncnt := b.ncnt + 1 })
  else .error (.fault (.noSuchEntry .node b.ncnt.toNat))

/-- R158. -/
def newLeaf (s : Byte) (f : Size) (b : Block) : Except Stop (Handle × Block) :=
  allocNode { freq := f, sym := s, lv := false, l := 0, rv := false, r := 0 } b

/-- R159: the handle of an absent child is stored as 0. -/
def newInternal (f : Size) (l : Handle) (lv : Bool) (r : Handle) (rv : Bool) (b : Block) :
    Except Stop (Handle × Block) :=
  allocNode
    { freq := f, sym := 0, lv := lv, l := if lv then l else 0, rv := rv, r := if rv then r else 0 } b

/-- R154: the place before the first candidate whose frequency is strictly greater. -/
def insertByFreq (freq : Handle → Size) (h : Handle) : List Handle → List Handle
  | [] => [h]
  | x :: xs => if freq h < freq x then h :: x :: xs else x :: insertByFreq freq h xs

/-- R154: insertStable(h). -/
def insertStable (h : Handle) (b : Block) : Micro :=
  if 256 ≤ b.wlLen.toNat then .error (.fault (.precondition .worklistNotFull))
  else if (h :: worklist b).all inArena then .ok (putWorklist (insertByFreq (freqOf b) h (worklist b)) b)
  else .error (.fault (.noSuchEntry .node 511))

/-- R161: removeHead(). -/
def removeHead (b : Block) : Except Stop (Handle × Block) :=
  if 256 < b.wlLen.toNat then .error (.fault (.noSuchEntry .wl (b.wlLen.toNat - 1)))
  else
    match worklist b with
    | [] => .error (.fault (.precondition .worklistNotEmpty))
    | h :: rest => .ok (h, putWorklist rest b)

/-- R162: mergeOnce(). The first removed is the left child, the second the right. -/
def mergeOnce (b : Block) : Micro := do
  let (a, b1) ← removeHead b
  let (c, b2) ← removeHead b1
  let na ← nodeAt b2 a
  let nc ← nodeAt b2 c
  let (m, b3) ← newInternal (na.freq + nc.freq) a true c true b2
  insertStable m b3

/-- R163: singleRoot(). The root's only child is the left one. -/
def singleRoot (b : Block) : Micro := do
  let (l, b1) ← removeHead b
  let n ← nodeAt b1 l
  let (r, b2) ← newInternal n.freq l true 0 false b1
  .ok { b2 with root := r, rootV := true }

/-- R170: treeDone(), by MODE. -/
def treeDone (b : Block) : Block :=
  if b.mode = 1 then goto Code.sCGen b else { b with cur := b.root, brCnt := 0, state := Code.sDBit }

/-- R170: one leaf for each symbol of the list with a non-zero count, inserted as it is created. -/
def buildLeaves : List Byte → Block → Micro
  | [], b => .ok b
  | s :: ss, b =>
    if histAt b s = 0 then buildLeaves ss b
    else do
      let (h, b1) ← newLeaf s ((histAt b s).setWidth 64) b
      let b2 ← insertStable h b1
      buildLeaves ss b2

/-- R170: the sum of the 256 counts. -/
def histTotal (b : Block) : Size := b.hist.toList.foldl (fun a v => a + v.setWidth 64) 0

/-- R155, R170: how many counts are not 0. -/
def histDistinct (b : Block) : BitVec 9 := BitVec.ofNat 9 (b.hist.toList.countP (· ≠ 0))

/-! The code generator's traversal. -/

/-- R181: visit(h, p). The first argument is how much longer than p a path may still grow, plus one: `visit 256 h []`
visits with len(p) ≤ 255 throughout, and a longer path breaks the stated precondition. -/
def visit : Nat → Handle → List Bool → Block → Micro
  | 0, _, _, _ => .error (.fault (.precondition .codewordFits))
  | k + 1, h, p, b => do
    let n ← nodeAt b h
    if isLeaf n then .ok (setCode n.sym p b)
    else do
      let b1 ← if n.lv then visit k n.l (p ++ [false]) b else .ok b
      if n.rv then visit k n.r (p ++ [true]) b1 else .ok b1

/-- R181: codeGen(). The spec states the precondition ROOT_V = 1 and gives no effect for ROOT_V = 0. ROOT_V is not read
here: with ROOT_V = 0 the traversal runs from ROOT all the same, a DESIGN CHOICE (log entry 16). -/
def codeGen (b : Block) : Micro := visit 256 b.root [] b

/-! The bit-stream writer and reader. -/

/-- R201: bwPut(x). -/
def bwPut (x : Bool) (b : Block) : Micro :=
  if b.bwCnt.toNat < 8 then
    .ok { b with bwBuf := b.bwBuf ||| ((flagBit x).setWidth 8 <<< (7 - b.bwCnt.toNat)), bwCnt := b.bwCnt + 1 }
  else .error (.fault (.precondition .writerNotFull))

/-- R203: bwClear(). -/
def bwClear (b : Block) : Block := { b with bwBuf := 0, bwCnt := 0 }

/-- R210: brTake(): the bit taken is bit 7. -/
def brTake (b : Block) : Bool × Block :=
  (b.brBuf.getLsbD 7, { b with brBuf := b.brBuf <<< 1, brCnt := b.brCnt - 1 })

/-- R211: brLoad(b). -/
def brLoad (x : Byte) (b : Block) : Block := { b with brBuf := x, brCnt := 8 }

/-! The reset event. -/

/-- R350, R48: every piece of block state takes its reset value; what the table calls unspecified takes free values
(U7). `d` is the number of the draw. -/
def resetBlock (d : Nat) : Block :=
  { Block.reset with
    hist := Vector.ofFn fun i => Config.freeHist d i.val
    node := Vector.ofFn fun i => nodeOfBits (Config.freeNode d i.val)
    wl := Vector.ofFn fun i => Config.freeWl d i.val
    root := Config.freeRoot d
    codeLen := Vector.ofFn fun i => Config.freeCodeLen d i.val
    codeBits := Vector.ofFn fun i => Config.freeCodeBits d i.val }

/-- R350, R351: the reset event leaves the streams as they are. -/
def resetEvent (s : State) : State :=
  { s with blk := resetBlock s.host.draws, host := { s.host with draws := s.host.draws + 1 } }

end Sys2Proof.Machine
end

