-- ==== Sys2Proof/Machine/CodeGen.lean ====
section
/-! DEFINITION. The codeword generator (spec/43_code_table_generator.md): S_C_GEN. It makes no port transaction. -/

namespace Sys2Proof.Machine

/-- R190. -/
def cGenStep (b : Block) : Micro :=
  (codeGen b).map fun b1 => { b1 with hdrIdx := 0, state := Code.sEHdr }

/-- R190. -/
def execSCGen (s : State) : Host.Outcome State Fault Refusal := finish s s.host (cGenStep s.blk)

end Sys2Proof.Machine
end

