-- ==== Sys2Proof/Machine/Command.lean ====
section
/-! DEFINITION. The host commands (R230 to R235): a CMD write is acted on at once when BUSY = 0 and only sets REJ when
BUSY = 1; a launch away from the start of the input is refused (R355, U20). The ignored bits [31:4] are not read (R92). -/

namespace Sys2Proof.Machine

/-- R233: cmdACK(). -/
def execAck (_ign : Nat) (s : State) : Host.Outcome State Fault Refusal := onCommand ackReturn s

/-- R231, R355: cmdENCODE(). -/
def execEncode (_ign : Nat) (s : State) : Host.Outcome State Fault Refusal :=
  onLaunch 1#2 Code.sECount s

/-- R232, R355: cmdDECODE(). -/
def execDecode (_ign : Nat) (s : State) : Host.Outcome State Fault Refusal :=
  onLaunch 2#2 Code.sDHdr s

/-- R234, OP = 0x3. -/
def execCmdReserved3 (_ign : Nat) (s : State) : Host.Outcome State Fault Refusal := onCommand illegalCommand s

/-- R234, OP = 0x4. -/
def execCmdReserved4 (_ign : Nat) (s : State) : Host.Outcome State Fault Refusal := onCommand illegalCommand s

/-- R234, OP = 0x5. -/
def execCmdReserved5 (_ign : Nat) (s : State) : Host.Outcome State Fault Refusal := onCommand illegalCommand s

/-- R234, OP = 0x6. -/
def execCmdReserved6 (_ign : Nat) (s : State) : Host.Outcome State Fault Refusal := onCommand illegalCommand s

/-- R234, OP = 0x7. -/
def execCmdReserved7 (_ign : Nat) (s : State) : Host.Outcome State Fault Refusal := onCommand illegalCommand s

/-- R234, OP = 0x8. -/
def execCmdReserved8 (_ign : Nat) (s : State) : Host.Outcome State Fault Refusal := onCommand illegalCommand s

/-- R234, OP = 0x9. -/
def execCmdReserved9 (_ign : Nat) (s : State) : Host.Outcome State Fault Refusal := onCommand illegalCommand s

/-- R234, OP = 0xA. -/
def execCmdReservedA (_ign : Nat) (s : State) : Host.Outcome State Fault Refusal := onCommand illegalCommand s

/-- R234, OP = 0xB. -/
def execCmdReservedB (_ign : Nat) (s : State) : Host.Outcome State Fault Refusal := onCommand illegalCommand s

/-- R234, OP = 0xC. -/
def execCmdReservedC (_ign : Nat) (s : State) : Host.Outcome State Fault Refusal := onCommand illegalCommand s

/-- R234, OP = 0xD. -/
def execCmdReservedD (_ign : Nat) (s : State) : Host.Outcome State Fault Refusal := onCommand illegalCommand s

/-- R234, OP = 0xE. -/
def execCmdReservedE (_ign : Nat) (s : State) : Host.Outcome State Fault Refusal := onCommand illegalCommand s

/-- R234, OP = 0xF. -/
def execCmdReservedF (_ign : Nat) (s : State) : Host.Outcome State Fault Refusal := onCommand illegalCommand s

end Sys2Proof.Machine
end

