-- ==== Sys2Proof/Machine/DecodeSeq.lean ====
section
/-! DEFINITION. The decode micro-operations (spec/45_file_codec.md section 4): S_D_HDR, S_D_BIT, S_D_EMIT. -/

namespace Sys2Proof.Machine

/-- R260: one byte lane of one count is written. -/
def putHdrByte (o : ByteOrder) (x : Byte) (b : Block) : Block :=
  setHist (hdrSymbol b.hdrIdx) (putLane o (hdrLane b.hdrIdx) x (histAt b (hdrSymbol b.hdrIdx))) b

/-- R260: what S_D_HDR does with the answer of its InRead. -/
def dHdrStep (o : ByteOrder) (r : InAnswer) (b : Block) : Micro :=
  match r with
  | .err => .error (.raise .ioError .header)
  | .eof => .error (.raise .formatError .header)
  | .byte x =>
    if b.hdrIdx.toNat < 1024 then
      let b1 := countIn (putHdrByte o x b)
      let b2 := { b1 with hdrIdx := b1.hdrIdx + 1 }
      .ok (goto (if b2.hdrIdx = 1024#11 then Code.sTInit else Code.sDHdr) b2)
    else .error (.fault (.noSuchEntry .hist (b.hdrIdx.toNat / 4)))

/-- R260. -/
def execSDHdr (s : State) : Host.Outcome State Fault Refusal :=
  finish s (inRead s.host).2 (dHdrStep s.cfg.hdrByteOrder (inRead s.host).1 s.blk)

/-- R261: the child that bit x leads to; an absent child is a FormatError. -/
def childOf (n : Node) (x : Bool) : Except Stop Handle :=
  match x with
  | false => if n.lv then .ok n.l else .error (.raise .formatError .bitDecode)
  | true => if n.rv then .ok n.r else .error (.raise .formatError .bitDecode)

/-- R261: take one bit and move down the tree. -/
def walkStep (b : Block) : Micro := do
  let (x, b1) := brTake b
  let n ← nodeAt b1 b1.cur
  let c ← childOf n x
  let m ← nodeAt b1 c
  .ok { b1 with cur := c, state := if isLeaf m then Code.sDEmit else Code.sDBit }

/-- R261, R211: what S_D_BIT does with the answer of its InRead, when a bit is needed and none is held. -/
def dBitRefill (r : InAnswer) (b : Block) : Micro :=
  match r with
  | .err => .error (.raise .ioError .bitDecode)
  | .eof => .error (.raise .formatError .bitDecode)
  | .byte x => walkStep (brLoad x (countIn b))

/-- R261. -/
def execSDBit (s : State) : Host.Outcome State Fault Refusal :=
  if s.blk.brCnt = 0 then finish s (inRead s.host).2 (dBitRefill (inRead s.host).1 s.blk)
  else finish s s.host (walkStep s.blk)

/-- R262: what S_D_EMIT does with the answer of its OutWrite. -/
def dEmitStep (r : PortAnswer) (b : Block) : Micro :=
  match r with
  | .err => .error (.raise .ioError .bitDecode)
  | .ok =>
    let b1 := { countOut b with decCnt := b.decCnt + 1, cur := b.root }
    if b1.decCnt = b1.total then .ok (complete b1) else .ok (goto Code.sDBit b1)

/-- R262. -/
def execSDEmit (s : State) : Host.Outcome State Fault Refusal :=
  match nodeAt s.blk s.blk.cur with
  | .ok n => finish s (outWrite n.sym s.host).2 (dEmitStep (outWrite n.sym s.host).1 s.blk)
  | .error e => finish s s.host (.error e)

end Sys2Proof.Machine
end

