-- ==== Sys2Proof/Machine/EncodeSeq.lean ====
section
/-! DEFINITION. The encode micro-operations (spec/45_file_codec.md section 3): S_E_HDR, S_E_READ, S_E_BIT, S_E_WRITE,
S_E_FLUSH. -/

namespace Sys2Proof.Machine

/-- R250: what S_E_HDR does with the answer of its OutWrite. -/
def eHdrStep (r : PortAnswer) (b : Block) : Micro :=
  match r with
  | .err => .error (.raise .ioError .header)
  | .ok =>
    let b1 := { countOut b with hdrIdx := b.hdrIdx + 1 }
    if b1.hdrIdx = 1024#11 then
      if b1.distinct = 0 then .ok (complete b1) else .ok (goto Code.sERead b1)
    else .ok (goto Code.sEHdr b1)

/-- R250. A header byte index above 1023 has no count (R66). -/
def execSEHdr (s : State) : Host.Outcome State Fault Refusal :=
  if s.blk.hdrIdx.toNat < 1024 then
    finish s (outWrite (hdrByte s.cfg.hdrByteOrder s.blk s.blk.hdrIdx) s.host).2
      (eHdrStep (outWrite (hdrByte s.cfg.hdrByteOrder s.blk s.blk.hdrIdx) s.host).1 s.blk)
  else .fault (.noSuchEntry .hist (s.blk.hdrIdx.toNat / 4))

/-- R251, R309: what S_E_READ does with the answer of its InRead, the checks in the order listed. -/
def eReadStep (r : InAnswer) (b : Block) : Micro :=
  match r with
  | .err => .error (.raise .ioError .bitEncode)
  | .eof => if b.emitCnt ≠ b.inSize then .error (.raise .streamMismatch .bitEncode) else .ok (goto Code.sEFlush b)
  | .byte x =>
    if b.emitCnt = b.inSize then .error (.raise .streamMismatch .bitEncode)
    else if codeLenAt b x = 0 then .error (.raise .streamMismatch .bitEncode)
    else .ok { b with emitCnt := b.emitCnt + 1, sym := x, bitIdx := 0, state := Code.sEBit }

/-- R251. -/
def execSERead (s : State) : Host.Outcome State Fault Refusal :=
  finish s (inRead s.host).2 (eReadStep (inRead s.host).1 s.blk)

/-- R252: the successor of S_E_BIT, after the bit is placed. -/
def eBitSuccessor (b : Block) : BitVec 5 :=
  if b.bwCnt = 8 then Code.sEWrite
  else if b.bitIdx = codeLenAt b b.sym then Code.sERead
  else Code.sEBit

/-- R252. -/
def eBitStep (b : Block) : Micro := do
  let b1 ← bwPut (codewordBit b b.sym b.bitIdx) b
  let b2 := { b1 with bitIdx := b1.bitIdx + 1 }
  .ok (goto (eBitSuccessor b2) b2)

/-- R252. It makes no port transaction. -/
def execSEBit (s : State) : Host.Outcome State Fault Refusal := finish s s.host (eBitStep s.blk)

/-- R253: what S_E_WRITE does with the answer of its OutWrite. -/
def eWriteStep (r : PortAnswer) (b : Block) : Micro :=
  match r with
  | .err => .error (.raise .ioError .bitEncode)
  | .ok =>
    let b1 := bwClear (countOut b)
    .ok (goto (if b1.bitIdx < codeLenAt b1 b1.sym then Code.sEBit else Code.sERead) b1)

/-- R253. -/
def execSEWrite (s : State) : Host.Outcome State Fault Refusal :=
  finish s (outWrite s.blk.bwBuf s.host).2 (eWriteStep (outWrite s.blk.bwBuf s.host).1 s.blk)

/-- R254: what S_E_FLUSH does with the answer of its OutWrite, when it makes one. -/
def eFlushStep (r : PortAnswer) (b : Block) : Micro :=
  match r with
  | .err => .error (.raise .ioError .bitEncode)
  | .ok => .ok (complete (bwClear (countOut b)))

/-- R254: with BW_CNT = 0 the step writes nothing. -/
def execSEFlush (s : State) : Host.Outcome State Fault Refusal :=
  if 0 < s.blk.bwCnt.toNat then
    finish s (outWrite s.blk.bwBuf s.host).2 (eFlushStep (outWrite s.blk.bwBuf s.host).1 s.blk)
  else finish s s.host (.ok (complete s.blk))

end Sys2Proof.Machine
end

