-- ==== Sys2Proof/Machine/Histogram.lean ====
section
/-! DEFINITION. The frequency histogram accumulator (spec/41_frequency_analyzer.md): S_E_COUNT and S_E_REWIND. -/

namespace Sys2Proof.Machine

/-- R134: what S_E_COUNT does with the answer of its InRead. -/
def countStep (r : InAnswer) (b : Block) : Micro :=
  match r with
  | .err => .error (.raise .ioError .analysis)
  | .eof => .ok (goto Code.sERewind b)
  | .byte x => (histInc x b).map (goto Code.sECount)

/-- R134. -/
def execSECount (s : State) : Host.Outcome State Fault Refusal :=
  finish s (inRead s.host).2 (countStep (inRead s.host).1 s.blk)

/-- R135: what S_E_REWIND does with the answer of its InRewind. -/
def rewindStep (r : PortAnswer) (b : Block) : Micro :=
  match r with
  | .err => .error (.raise .ioError .analysis)
  | .ok => .ok (goto Code.sTInit b)

/-- R135. -/
def execSERewind (s : State) : Host.Outcome State Fault Refusal :=
  finish s (inRewind s.host).2 (rewindStep (inRewind s.host).1 s.blk)

end Sys2Proof.Machine
end

