-- ==== Sys2Proof/Machine/Tree.lean ====
section
/-! DEFINITION. The Huffman tree builder (spec/42_tree_builder.md): S_T_INIT and S_T_MERGE. Neither makes a port
transaction. -/

namespace Sys2Proof.Machine

/-- R170, R164: the end of S_T_INIT, by the length of the initial worklist. -/
def initSuccessor (b : Block) : Micro :=
  if b.wlLen = 0 then
    if b.mode = 1 then .ok { b with rootV := false, hdrIdx := 0, state := Code.sEHdr }
    else .ok (complete { b with rootV := false })
  else if b.wlLen = 1 then (singleRoot b).map treeDone
  else .ok (goto Code.sTMerge b)

/-- R170. -/
def tInitStep (b : Block) : Micro := do
  let b1 ← buildLeaves allSymbols { b with total := histTotal b, distinct := histDistinct b }
  initSuccessor b1

/-- R170. -/
def execSTInit (s : State) : Host.Outcome State Fault Refusal := finish s s.host (tInitStep s.blk)

/-- R171: the end of S_T_MERGE, by the length of the worklist after the merge. WL[0] is the head of the worklist. -/
def mergeSuccessor (b : Block) : Block :=
  if b.wlLen = 1 then treeDone { b with root := b.wl[0], rootV := true } else goto Code.sTMerge b

/-- R171. -/
def tMergeStep (b : Block) : Micro := (mergeOnce b).map mergeSuccessor

/-- R171. -/
def execSTMerge (s : State) : Host.Outcome State Fault Refusal := finish s s.host (tMergeStep s.blk)

end Sys2Proof.Machine
end

