-- ==== Sys2Proof/Machine/Waiting.lean ====
section
/-! DEFINITION. The states in which the sequencer has no step: S_IDLE (R236) and the reserved STATE values (R97). -/

namespace Sys2Proof.Machine

/-- R236: the sequencer has no step in S_IDLE, so its turn changes nothing (log entry 8). -/
def execSIdle (s : State) : Host.Outcome State Fault Refusal := .next s

/-- R97, U10: no step; the block is stuck, never idle or done. -/
def stuck (code : BitVec 5) : Host.Outcome State Fault Refusal := .fault (.stuckState code)

/-- R97, STATE = 0x0E. -/
def execSReserved0E (_s : State) : Host.Outcome State Fault Refusal := stuck 0x0E#5

/-- R97, STATE = 0x0F. -/
def execSReserved0F (_s : State) : Host.Outcome State Fault Refusal := stuck 0x0F#5

/-- R97, STATE = 0x10. -/
def execSReserved10 (_s : State) : Host.Outcome State Fault Refusal := stuck 0x10#5

/-- R97, STATE = 0x11. -/
def execSReserved11 (_s : State) : Host.Outcome State Fault Refusal := stuck 0x11#5

/-- R97, STATE = 0x12. -/
def execSReserved12 (_s : State) : Host.Outcome State Fault Refusal := stuck 0x12#5

/-- R97, STATE = 0x13. -/
def execSReserved13 (_s : State) : Host.Outcome State Fault Refusal := stuck 0x13#5

/-- R97, STATE = 0x14. -/
def execSReserved14 (_s : State) : Host.Outcome State Fault Refusal := stuck 0x14#5

/-- R97, STATE = 0x15. -/
def execSReserved15 (_s : State) : Host.Outcome State Fault Refusal := stuck 0x15#5

/-- R97, STATE = 0x16. -/
def execSReserved16 (_s : State) : Host.Outcome State Fault Refusal := stuck 0x16#5

/-- R97, STATE = 0x17. -/
def execSReserved17 (_s : State) : Host.Outcome State Fault Refusal := stuck 0x17#5

/-- R97, STATE = 0x18. -/
def execSReserved18 (_s : State) : Host.Outcome State Fault Refusal := stuck 0x18#5

/-- R97, STATE = 0x19. -/
def execSReserved19 (_s : State) : Host.Outcome State Fault Refusal := stuck 0x19#5

/-- R97, STATE = 0x1A. -/
def execSReserved1A (_s : State) : Host.Outcome State Fault Refusal := stuck 0x1A#5

/-- R97, STATE = 0x1B. -/
def execSReserved1B (_s : State) : Host.Outcome State Fault Refusal := stuck 0x1B#5

/-- R97, STATE = 0x1C. -/
def execSReserved1C (_s : State) : Host.Outcome State Fault Refusal := stuck 0x1C#5

/-- R97, STATE = 0x1D. -/
def execSReserved1D (_s : State) : Host.Outcome State Fault Refusal := stuck 0x1D#5

/-- R97, STATE = 0x1E. -/
def execSReserved1E (_s : State) : Host.Outcome State Fault Refusal := stuck 0x1E#5

/-- R97, STATE = 0x1F. -/
def execSReserved1F (_s : State) : Host.Outcome State Fault Refusal := stuck 0x1F#5

end Sys2Proof.Machine
end

