-- ==== Sys2Proof/Machine/Dispatch.lean ====
section
/-! DEFINITION. The dispatch: one arm per instruction, each one call of its meaning. -/

namespace Sys2Proof.Machine

def exec (i : Instr) (s : State) : Host.Outcome State Fault Refusal :=
  match i with
  | .ack ign => Sys2Proof.Machine.execAck ign s
  | .encode ign => Sys2Proof.Machine.execEncode ign s
  | .decode ign => Sys2Proof.Machine.execDecode ign s
  | .cmdReserved3 ign => Sys2Proof.Machine.execCmdReserved3 ign s
  | .cmdReserved4 ign => Sys2Proof.Machine.execCmdReserved4 ign s
  | .cmdReserved5 ign => Sys2Proof.Machine.execCmdReserved5 ign s
  | .cmdReserved6 ign => Sys2Proof.Machine.execCmdReserved6 ign s
  | .cmdReserved7 ign => Sys2Proof.Machine.execCmdReserved7 ign s
  | .cmdReserved8 ign => Sys2Proof.Machine.execCmdReserved8 ign s
  | .cmdReserved9 ign => Sys2Proof.Machine.execCmdReserved9 ign s
  | .cmdReservedA ign => Sys2Proof.Machine.execCmdReservedA ign s
  | .cmdReservedB ign => Sys2Proof.Machine.execCmdReservedB ign s
  | .cmdReservedC ign => Sys2Proof.Machine.execCmdReservedC ign s
  | .cmdReservedD ign => Sys2Proof.Machine.execCmdReservedD ign s
  | .cmdReservedE ign => Sys2Proof.Machine.execCmdReservedE ign s
  | .cmdReservedF ign => Sys2Proof.Machine.execCmdReservedF ign s
  | .sIdle => Sys2Proof.Machine.execSIdle s
  | .sECount => Sys2Proof.Machine.execSECount s
  | .sERewind => Sys2Proof.Machine.execSERewind s
  | .sTInit => Sys2Proof.Machine.execSTInit s
  | .sTMerge => Sys2Proof.Machine.execSTMerge s
  | .sCGen => Sys2Proof.Machine.execSCGen s
  | .sEHdr => Sys2Proof.Machine.execSEHdr s
  | .sERead => Sys2Proof.Machine.execSERead s
  | .sEBit => Sys2Proof.Machine.execSEBit s
  | .sEWrite => Sys2Proof.Machine.execSEWrite s
  | .sEFlush => Sys2Proof.Machine.execSEFlush s
  | .sDHdr => Sys2Proof.Machine.execSDHdr s
  | .sDBit => Sys2Proof.Machine.execSDBit s
  | .sDEmit => Sys2Proof.Machine.execSDEmit s
  | .sReserved0E => Sys2Proof.Machine.execSReserved0E s
  | .sReserved0F => Sys2Proof.Machine.execSReserved0F s
  | .sReserved10 => Sys2Proof.Machine.execSReserved10 s
  | .sReserved11 => Sys2Proof.Machine.execSReserved11 s
  | .sReserved12 => Sys2Proof.Machine.execSReserved12 s
  | .sReserved13 => Sys2Proof.Machine.execSReserved13 s
  | .sReserved14 => Sys2Proof.Machine.execSReserved14 s
  | .sReserved15 => Sys2Proof.Machine.execSReserved15 s
  | .sReserved16 => Sys2Proof.Machine.execSReserved16 s
  | .sReserved17 => Sys2Proof.Machine.execSReserved17 s
  | .sReserved18 => Sys2Proof.Machine.execSReserved18 s
  | .sReserved19 => Sys2Proof.Machine.execSReserved19 s
  | .sReserved1A => Sys2Proof.Machine.execSReserved1A s
  | .sReserved1B => Sys2Proof.Machine.execSReserved1B s
  | .sReserved1C => Sys2Proof.Machine.execSReserved1C s
  | .sReserved1D => Sys2Proof.Machine.execSReserved1D s
  | .sReserved1E => Sys2Proof.Machine.execSReserved1E s
  | .sReserved1F => Sys2Proof.Machine.execSReserved1F s

end Sys2Proof.Machine
end

