-- ==== Sys2Proof/Machine/Turn.lean ====
section
/-! DEFINITION. Whose turn it is and what it runs: the fetch of this machine (R12, R31, R74, R230). The sequencer's
instruction is the one its STATE selects (R95, R96); the host's is the command word it writes to CMD (R91). -/

namespace Sys2Proof.Machine

/-- A turn runs one instruction from a state, or is a host step that is no instruction and has its outcome already. -/
inductive Turn where
  | run (i : Instr) (s : State)
  | host (o : Host.Outcome State Fault Refusal)

/-- The state with the host's schedule, and its draw for this step's port transaction (R64), set. -/
def withSchedule (agenda : List HostEvent) (ans : Bool) (s : State) : State :=
  { s with host := { s.host with agenda := agenda, ansErr := ans } }

/-- R9, R31: the sequencer's step is the rule that STATE selects. -/
def sequencerTurn (s : State) : Turn := .run (decodeState s.blk.state) s

/-- R23, R46, R71: a register read returns the current value and changes nothing of the block. -/
def hostRead (off : Byte) (size : AccessSize) (s : State) : Host.Outcome State Fault Refusal :=
  if accessOk off size then
    .next { s with host := { s.host with obs := .regRead off (readReg s.blk off) :: s.host.obs } }
  else .refused (.badAccess off size)

/-- R23: a write to CMD is a command; any other write is ignored. -/
def hostWrite (off : Byte) (size : AccessSize) (data : Word) (s : State) : Turn :=
  if accessOk off size then
    if off = 0 then .run (decodeCmd data) s else .host (.next s)
  else .host (.refused (.badAccess off size))

/-- R102, R355: bind the input stream, with ICUR = 0; not during a command (R361). -/
def bindIn (data : List Byte) (s : State) : Host.Outcome State Fault Refusal :=
  if s.blk.busy then .refused .bindWhileBusy
  else .next { s with host := { s.host with inData := data, icur := 0, inBound := true } }

/-- R102, R355: bind the output stream; not during a command (R356). -/
def bindOut (data : List Byte) (s : State) : Host.Outcome State Fault Refusal :=
  if s.blk.busy then .refused .bindWhileBusy else .next { s with host := { s.host with outData := data, outBound := true } }

/-- One event of the host's schedule, from the state that holds the rest of it. -/
def eventTurn (e : HostEvent) (rest : List HostEvent) (s : State) : Turn :=
  match e with
  | .seq err => sequencerTurn (withSchedule rest err s)
  | .read off size => .host (hostRead off size (withSchedule rest false s))
  | .write off size data => hostWrite off size data (withSchedule rest false s)
  | .bindIn data => .host (bindIn data (withSchedule rest false s))
  | .bindOut data => .host (bindOut data (withSchedule rest false s))
  | .reset => .host (.next (resetEvent (withSchedule rest false s)))

/-- R74: one interleaving of host steps and sequencer steps, the one the schedule says. -/
def takeTurn (s : State) : Turn :=
  match s.host.agenda with
  | [] => sequencerTurn (withSchedule [] false s)
  | e :: rest => eventTurn e rest s

/-- Place an instruction where the next turn takes it. A STATE code goes to STATE, and the sequencer's turn comes
first; a command word is the host's next write to CMD. -/
def placeWord (nbits w : Nat) (s : State) : State :=
  if 5 ≤ nbits ∧ nbits ≤ 8 then
    { s with
      blk := goto (BitVec.ofNat 5 w) s.blk
      host := { s.host with agenda := .seq s.host.ansErr :: s.host.agenda } }
  else { s with host := { s.host with agenda := .write 0 .word (BitVec.ofNat 32 w) :: s.host.agenda } }

end Sys2Proof.Machine
end

