-- ==== Sys2Proof/Machine/Step.lean ====
section
/-! DEFINITION. One step of the machine: one turn of the host or of the sequencer (R10, R12, R74). -/

namespace Sys2Proof.Machine

def step (s : State) : Host.Outcome State Fault Refusal :=
  match takeTurn s with
  | .run i s' => exec i s'
  | .host o => o

/-- The state whose next step fetches and runs exactly the instruction that the bits of w are. A program comes to run
on this machine by host commands and by the sequencer's own STATE (log entry 9). -/
def State.withFetchWord (s : State) (nbits w : Nat) : State := placeWord nbits w s

end Sys2Proof.Machine
end

