-- ==== Sys2Proof/Safety.lean ====
section
/-! DEFINITION. What the statements speak in: the launch premise (R356), the kinds of instructions, and the invariants
of the machine, each clause citing the rule it comes from. -/

namespace Sys2Proof.Machine

/-! Kinds of instructions. -/

/-- The sixteen host commands (R91). -/
def isCommand (i : Instr) : Bool :=
  match encodeWord i with
  | .cmd _ => true
  | .state _ => false

/-- The fourteen micro-operations of the defined STATE values (R95). -/
def isMicroOp (i : Instr) : Bool :=
  match encodeWord i with
  | .cmd _ => false
  | .state c => decide (c.toNat < 14)

/-- A reserved command, OP 0x3 to 0xF (R91). -/
def isReservedCommand (i : Instr) : Bool := isCommand i && decide (3 ≤ i.row.bits)

/-- A reserved STATE value, 0x0E to 0x1F (R97). -/
def isReservedState (i : Instr) : Bool := !isCommand i && !isMicroOp i

/-! A schedule that only lets the sequencer step, each time with the host's draw. -/

def onlySequencer (agenda : List HostEvent) : Bool :=
  agenda.all fun e =>
    match e with
    | .seq _ => true
    | _ => false

/-- The states of the command that the step from s launches: from its acceptance on, as long as BUSY = 1. -/
inductive DuringCommand (s : State) : State → Prop
  | accepted (t : State) (e : step s = .next t) (busy : t.blk.busy = true) : DuringCommand s t
  | goesOn (t u : State) (d : DuringCommand s t) (e : step t = .next u) (busy : u.blk.busy = true) : DuringCommand s u

/-- R356: CleanLaunch. Two of its premises are part of the model: the streams are distinct, being separate fields, and
the host answers every transaction. Nothing is asked of the host but that it leaves IN_DATA as it is until the command
ends: it may poll STATUS, write CMD while busy, and do what it likes afterwards. -/
structure CleanLaunch (s : State) : Prop where
  idle : s.blk.state = Code.sIdle
  notBusy : s.blk.busy = false
  launch : ∃ w rest, s.host.agenda = .write 0 .word w :: rest ∧ (w.toNat % 16 = 1 ∨ w.toNat % 16 = 2)
  inBound : s.host.inBound = true
  atStart : s.host.icur = 0
  inFixed : ∀ t data rest, DuringCommand s t → t.host.agenda ≠ .bindIn data :: rest
  outBound : s.host.outBound = true

/-- The host events that leave a running command to its end: the sequencer's turns and the accesses that R23 allows,
polls and busy writes among them. A reset event abandons the command (R351); a bind or another access has no
transition then (R23, R361). -/
def leavesRunning (e : HostEvent) : Bool :=
  match e with
  | .seq _ => true
  | .read off size => accessOk off size
  | .write off size _ => accessOk off size
  | .bindIn _ => false
  | .bindOut _ => false
  | .reset => false

/-! Control: the flags, MODE and STATE. -/

def encodeStates : List (BitVec 5) :=
  [Code.sECount, Code.sERewind, Code.sCGen, Code.sEHdr, Code.sERead, Code.sEBit, Code.sEWrite, Code.sEFlush]

def decodeStates : List (BitVec 5) := [Code.sDHdr, Code.sDBit, Code.sDEmit]

def treeStates : List (BitVec 5) := [Code.sTInit, Code.sTMerge]

structure ControlInv (b : Block) : Prop where
  /-- R25: BUSY = 1 exactly when STATE ≠ S_IDLE -/
  busyIff : b.busy = true ↔ b.state ≠ Code.sIdle
  /-- R97: no reserved STATE value -/
  defined : b.state.toNat < 14
  /-- R32: MODE is never 3 -/
  modeLegal : b.mode ≠ 3
  /-- R25: DONE and ERR are not both 1 -/
  notBoth : ¬(b.done = true ∧ b.err = true)
  /-- R231, R232, R281: a running command has neither ended nor failed -/
  busyClean : b.busy = true → b.done = false ∧ b.err = false
  /-- R26: ERROR is 0 exactly when ERR = 0 -/
  errorIff : b.err = true ↔ b.errCode ≠ .none
  noStage : b.err = false → b.errStage = .none
  /-- R240, R241: the states of each command -/
  modeEncode : b.state ∈ encodeStates → b.mode = 1
  modeDecode : b.state ∈ decodeStates → b.mode = 2
  modeTree : b.state ∈ treeStates → b.mode = 1 ∨ b.mode = 2

/-! The writer, the reader and the header index. -/

structure WriterInv (b : Block) : Prop where
  /-- R40 -/
  count : b.bwCnt.toNat ≤ 8
  /-- R40, R203: the unfilled low bits are 0 -/
  lowZero : ∀ i, i < 8 - b.bwCnt.toNat → b.bwBuf.getLsbD i = false
  /-- R252: the entry conditions of S_E_BIT -/
  atBit : b.state = Code.sEBit → b.bwCnt.toNat < 8 ∧ b.bitIdx < codeLenAt b b.sym
  /-- R253: the entry conditions of S_E_WRITE -/
  atWrite : b.state = Code.sEWrite → b.bwCnt = 8 ∧ b.bitIdx ≤ codeLenAt b b.sym
  /-- R254 -/
  atRead : b.state = Code.sERead ∨ b.state = Code.sEFlush → b.bwCnt.toNat < 8
  /-- R49: nothing is in the writer before the emit pass -/
  before : b.state ∈ [Code.sECount, Code.sERewind, Code.sTInit, Code.sTMerge, Code.sCGen, Code.sEHdr, Code.sDHdr] →
    b.bwCnt = 0

structure IndexInv (b : Block) : Prop where
  /-- R39 -/
  header : b.hdrIdx.toNat ≤ 1024
  /-- R250, R260 -/
  atHeader : b.state = Code.sEHdr ∨ b.state = Code.sDHdr → b.hdrIdx.toNat < 1024
  /-- R41 -/
  reader : b.brCnt.toNat ≤ 8

/-! The tree. -/

/-- The node a handle below NCNT names. -/
def createdNode (b : Block) (h : Handle) : Option Node := if h.toNat < b.ncnt.toNat then b.node[h.toNat]? else none

/-- `FullTree b h k d`: below h hangs a tree with k leaves and depth d in which every internal node has both children
(R167.3), its frequency is their sum (R166), and a child's handle is less than its parent's (R167.2). -/
inductive FullTree (b : Block) : Handle → Nat → Nat → Prop where
  | leaf (h : Handle) (n : Node) (hn : createdNode b h = some n) (hl : isLeaf n = true) : FullTree b h 1 0
  | node (h : Handle) (n : Node) (k₁ d₁ k₂ d₂ : Nat) (hn : createdNode b h = some n) (hlv : n.lv = true)
      (hrv : n.rv = true) (hl : n.l < h) (hr : n.r < h)
      (hf : n.freq.toNat = (freqOf b n.l).toNat + (freqOf b n.r).toNat)
      (tl : FullTree b n.l k₁ d₁) (tr : FullTree b n.r k₂ d₂) : FullTree b h (k₁ + k₂) (max d₁ d₂ + 1)

/-- The tree of a code over at most 256 symbols: a full tree, or the root with only a left child, a leaf (R163,
R167.4). -/
inductive CodeTree (b : Block) (h : Handle) : Prop where
  | full (k d : Nat) (t : FullTree b h k d) (two : 2 ≤ k) (many : k ≤ 256)
  | single (n m : Node) (hn : createdNode b h = some n) (hlv : n.lv = true) (hrv : n.rv = false)
      (hm : createdNode b n.l = some m) (hl : isLeaf m = true)

/-- Trees side by side, with the number of their leaves. -/
inductive Forest (b : Block) : List Handle → Nat → Prop where
  | nil : Forest b [] 0
  | cons (h : Handle) (hs : List Handle) (k d m : Nat) (t : FullTree b h k d) (f : Forest b hs m) :
      Forest b (h :: hs) (k + m)

/-- R152: lexicographic order by frequency and handle. -/
def sortsBefore (b : Block) (x y : Handle) : Prop :=
  freqOf b x < freqOf b y ∨ (freqOf b x = freqOf b y ∧ x < y)

/-- The worklist and the arena while merging. -/
structure MergeInv (b : Block) : Prop where
  /-- R171, R157 -/
  two : 2 ≤ b.wlLen.toNat
  fits : b.wlLen.toNat ≤ 256
  /-- R155 -/
  distinct : b.distinct.toNat ≤ 256
  /-- R169: each merge creates one node and shortens the worklist by one -/
  count : b.ncnt.toNat + b.wlLen.toNat = 2 * b.distinct.toNat
  /-- R167: the candidates are trees over all the distinct symbols -/
  forest : Forest b (worklist b) b.distinct.toNat
  /-- R152 -/
  sorted : (worklist b).Pairwise (sortsBefore b)
  /-- R165, R166: no sum overflows -/
  freqSum : ((worklist b).map fun h => (freqOf b h).toNat).sum = b.total.toNat
  bounded : b.total.toNat < 2 ^ 40
  positive : 0 < b.total.toNat

/-- A node that is no leaf: a place where the decode walk takes a bit. -/
def atInternal (b : Block) (h : Handle) : Prop := ∃ n, createdNode b h = some n ∧ isLeaf n = false

/-- A leaf: a place where the decode walk emits a symbol. -/
def atLeaf (b : Block) (h : Handle) : Prop := ∃ n, createdNode b h = some n ∧ isLeaf n = true

/-- A place the decode walk can be at, with the longest way down to a leaf: the root of the code tree, or a node of a
full tree. -/
inductive WalkAt (b : Block) (h : Handle) : Nat → Prop where
  | full (k d : Nat) (t : FullTree b h k d) (many : k ≤ 256) : WalkAt b h d
  | single (c : CodeTree b h) (one : ∃ n, createdNode b h = some n ∧ n.rv = false ∧ n.lv = true) : WalkAt b h 1

structure TreeInv (b : Block) : Prop where
  /-- R5: no handle of the arena is out of range -/
  arena : b.ncnt.toNat ≤ 511
  /-- R49: acceptance left nothing of the last tree -/
  before : b.state ∈ [Code.sECount, Code.sERewind, Code.sDHdr, Code.sTInit] →
    b.ncnt = 0 ∧ b.wlLen = 0 ∧ b.decCnt = 0
  /-- R171 -/
  atMerge : b.state = Code.sTMerge → MergeInv b ∧ b.decCnt = 0
  /-- R181, R190 -/
  atCodeGen : b.state = Code.sCGen → b.rootV = true ∧ CodeTree b b.root
  /-- R261: entered with DEC_CNT < TOTAL and CUR not a leaf -/
  atDecodeBit : b.state = Code.sDBit →
    CodeTree b b.root ∧ atInternal b b.cur ∧ (∃ d, WalkAt b b.cur d) ∧ b.decCnt < b.total
  /-- R262: entered with CUR a leaf -/
  atEmit : b.state = Code.sDEmit → CodeTree b b.root ∧ atLeaf b b.cur ∧ b.decCnt < b.total

/-- The invariant of the machine. -/
structure MachineInv (s : State) : Prop where
  control : ControlInv s.blk
  writer : WriterInv s.blk
  index : IndexInv s.blk
  tree : TreeInv s.blk
  /-- R60: the cursor is inside the input -/
  cursor : s.host.icur ≤ s.host.inData.length

/-! Reading a code. -/

/-- The codeword of a symbol as a bit string, the first bit first (R8, R183). -/
def codeword (b : Block) (s : Byte) : List Bool :=
  (List.range (codeLenAt b s).toNat).map fun i => (codeBitsAt b s).getLsbD i

/-- R100, R182: follow a bit string down the arena from h, 0 to the left child and 1 to the right. -/
def follow (b : Block) : Handle → List Bool → Option Handle
  | h, [] => some h
  | h, x :: xs =>
    match nodeAt b h with
    | .error _ => none
    | .ok n =>
      match x with
      | false => if n.lv then follow b n.l xs else none
      | true => if n.rv then follow b n.r xs else none

/-- The symbols with a non-zero count, ascending (R155, R156). -/
def presentSymbols (b : Block) : List Byte := allSymbols.filter fun s => decide (histAt b s ≠ 0)

/-- The same block but for the entries of NODE and WL. -/
def sameButArena (b c : Block) : Prop := { b with node := c.node, wl := c.wl } = c

end Sys2Proof.Machine
end

