-- ==== Sys2Proof/Certificates/Slice0/Obligations.lean ====
section
/-! DEFINITION. The statements for the provers. Each docstring names the rules of spec/ it formalises. -/

open Sys2Proof Sys2Proof.Machine

/-! ## Encodings -/

/-- Words written out from R91, R92 and R95: the table's codes, with ignored bits 0 and 1. That a command word is laid
out as four bytes, the lowest bits first, and a STATE code as one byte is the model's choice (DESIGN CHOICE, log entry
14); the spec lays neither out as bytes. -/
def Obligations.WrittenOutWordsDecode : Prop :=
  decode [0x00#8, 0x00#8, 0x00#8, 0x00#8] = .ok (.ack 0) ∧
  decode [0xF1#8, 0xFF#8, 0xFF#8, 0xFF#8] = .ok (.encode 0xFFFFFFF) ∧
  decode [0x02#8, 0x00#8, 0x00#8, 0x80#8] = .ok (.decode 0x8000000) ∧
  decode [0x1F#8, 0x00#8, 0x00#8, 0x00#8] = .ok (.cmdReservedF 1) ∧
  decode [0x00#8] = .ok .sIdle ∧
  decode [0x01#8] = .ok .sECount ∧
  decode [0x03#8] = .ok .sTInit ∧
  decode [0x05#8] = .ok .sCGen ∧
  decode [0x09#8] = .ok .sEWrite ∧
  decode [0x0D#8] = .ok .sDEmit ∧
  decode [0x0E#8] = .ok .sReserved0E

/-- No bit of an encoding is dropped: every instruction, with every value of its ignored bits, decodes to itself. -/
def Obligations.DecodeOfEncodeIsTheInstruction : Prop :=
  ∀ i : Instr, i.wellFormed = true → decode (encode i) = .ok i

/-- R91, R95: every command word and every STATE code has one meaning, and encoding that meaning gives it back. -/
def Obligations.EveryCodeWordHasOneMeaning : Prop :=
  (∀ w : Word, encodeWord (decodeCmd w) = .cmd w ∧ (decodeCmd w).wellFormed = true) ∧
  (∀ c : BitVec 5, encodeWord (decodeState c) = .state c ∧
    (decodeState c).row.mask = 0x1F ∧ (decodeState c).row.bits = c.toNat)

/-- R92: bits [31:4] of a command word have no effect, and the match is on word & 0x0000000F. -/
def Obligations.CommandIsDecidedByOpAlone : Prop :=
  (∀ (w : Word), (decodeCmd w).row.mask = 0x0000000F ∧ (decodeCmd w).row.bits = (w &&& 0x0000000F#32).toNat) ∧
  (∀ (w v : Word) (s : State), w &&& 0x0000000F#32 = v &&& 0x0000000F#32 →
    exec (decodeCmd w) s = exec (decodeCmd v) s)

/-! ## A step and the register window -/

/-- R23, R230: when the host's next step writes the word of a command to CMD, the step is that command. -/
def Obligations.StepRunsTheCommandWritten : Prop :=
  ∀ (i : Instr) (w : Word) (rest : List HostEvent) (s : State), i.wellFormed = true → encodeWord i = .cmd w →
    s.host.agenda = .write 0x00#8 .word w :: rest → step s = exec i (withSchedule rest false s)

/-- R31, R96: when the sequencer's turn comes, the step is the micro-operation that STATE selects, with the host's
draw for its port transaction. -/
def Obligations.StepRunsTheStateSelected : Prop :=
  ∀ (i : Instr) (s : State), encodeWord i = .state s.blk.state →
    (s.host.agenda = [] → step s = exec i (withSchedule [] false s)) ∧
    (∀ (err : Bool) (rest : List HostEvent), s.host.agenda = .seq err :: rest →
      step s = exec i (withSchedule rest err s))

/-- R22, R23, R46, R71: a word-aligned 32-bit read returns the register's current value and changes nothing but what
the host has seen. -/
def Obligations.RegisterReadsReturnCurrentValues : Prop :=
  ∀ (off : Byte) (rest : List HostEvent) (s : State), s.host.agenda = .read off .word :: rest →
    off.toNat % 4 = 0 → ∃ v : Word,
      step s = .next { withSchedule rest false s with
        host := { (withSchedule rest false s).host with obs := .regRead off v :: s.host.obs } } ∧
      (off.toNat = 0x00 → v = 0) ∧
      (off.toNat = 0x04 → v = statusWord s.blk) ∧
      (off.toNat = 0x08 → v = errorWord s.blk) ∧
      (off.toNat = 0x0C → v.toNat = s.blk.inSize.toNat % 2 ^ 32) ∧
      (off.toNat = 0x10 → v.toNat = s.blk.inSize.toNat / 2 ^ 32) ∧
      (off.toNat = 0x14 → v.toNat = s.blk.outSize.toNat % 2 ^ 32) ∧
      (off.toNat = 0x18 → v.toNat = s.blk.outSize.toNat / 2 ^ 32) ∧
      (off.toNat = 0x1C → v.toNat = s.blk.total.toNat % 2 ^ 32) ∧
      (off.toNat = 0x20 → v.toNat = s.blk.total.toNat / 2 ^ 32) ∧
      (off.toNat = 0x24 → v.toNat = s.blk.distinct.toNat) ∧
      (0x28 ≤ off.toNat → v = 0)

/-- R23: a word-aligned 32-bit write anywhere but CMD changes nothing; an access that is narrower or not word aligned
is refused. -/
def Obligations.OtherWritesIgnoredBadAccessesRefused : Prop :=
  ∀ (off : Byte) (size : AccessSize) (data : Word) (rest : List HostEvent) (s : State),
    (s.host.agenda = .write off size data :: rest → size = .word → off.toNat % 4 = 0 → off ≠ 0 →
      step s = .next (withSchedule rest false s)) ∧
    (s.host.agenda = .write off size data :: rest ∨ s.host.agenda = .read off size :: rest →
      size ≠ .word ∨ off.toNat % 4 ≠ 0 → step s = .refused (.badAccess off size))

/-- R93, R94, R300, R301: STATUS = zext_32(STATE, 00, MODE, REJ, ERR, DONE, BUSY) and ERROR = zext_32(STAGE, CODE),
with the tables' numbers. -/
def Obligations.StatusAndErrorWordLayouts : Prop :=
  ∀ b : Block,
    (statusWord b).toNat =
      b.busy.toNat + 2 * b.done.toNat + 4 * b.err.toNat + 8 * b.rej.toNat + 16 * b.mode.toNat +
        256 * b.state.toNat ∧
    (errorWord b).toNat =
      16 * (match b.errStage with
        | .none => 0 | .analysis => 1 | .header => 2 | .treeBuild => 3 | .bitDecode => 4 | .codeGen => 5
        | .bitEncode => 6 | .command => 7) +
      (match b.errCode with
        | .none => 0 | .ioError => 1 | .formatError => 2 | .allocationError => 3 | .countOverflow => 4
        | .streamMismatch => 5 | .illegalCommand => 6)

/-- R30, R320: `done_irq` is DONE or ERR, and a step clears it only by an accepted ACK, ENCODE or DECODE, or by the
reset event. -/
def Obligations.DoneIrqClearedOnlyByAckAcceptanceOrReset : Prop :=
  ∀ s t : State, step s = .next t → s.blk.done = true ∨ s.blk.err = true → doneIrq t.blk = false →
    (s.blk.busy = false ∧ ∃ w rest, s.host.agenda = .write 0x00#8 .word w :: rest ∧ w.toNat % 16 < 3) ∨
    (∃ rest, s.host.agenda = .reset :: rest)

/-- R350, R351: the reset event gives every piece of block state that has one its value of R48, and leaves the
streams, the cursor and the parameter as they are. -/
def Obligations.ResetEventValues : Prop :=
  ∀ (rest : List HostEvent) (s : State), s.host.agenda = .reset :: rest → ∃ t : State, step s = .next t ∧
    t.cfg = s.cfg ∧ t.host.inData = s.host.inData ∧ t.host.icur = s.host.icur ∧ t.host.outData = s.host.outData ∧
    t.host.inBound = s.host.inBound ∧ t.host.outBound = s.host.outBound ∧ t.host.agenda = rest ∧ t.blk.state = 0x00#5 ∧ t.blk.mode = 0 ∧ statusWord t.blk = 0 ∧ errorWord t.blk = 0 ∧
    t.blk.inSize = 0 ∧ t.blk.outSize = 0 ∧ t.blk.total = 0 ∧ t.blk.distinct = 0 ∧ doneIrq t.blk = false ∧
    t.blk.ncnt = 0 ∧ t.blk.wlLen = 0 ∧ t.blk.rootV = false ∧ t.blk.hdrIdx = 0 ∧ t.blk.bwBuf = 0 ∧ t.blk.bwCnt = 0 ∧
    t.blk.brBuf = 0 ∧ t.blk.brCnt = 0 ∧ t.blk.sym = 0 ∧ t.blk.bitIdx = 0 ∧ t.blk.emitCnt = 0 ∧ t.blk.decCnt = 0 ∧
    t.blk.cur = 0

/-- R48: the state after reset, the values that the spec gives (none for HIST, NODE, WL, ROOT and the code table). -/
def Obligations.ResetStateValues : Prop :=
  let b := State.reset.blk
  b.state = 0x00#5 ∧ b.mode = 0 ∧ b.busy = false ∧ b.done = false ∧ b.err = false ∧ b.rej = false ∧
  b.errCode = .none ∧ b.errStage = .none ∧ b.inSize = 0 ∧ b.outSize = 0 ∧ b.total = 0 ∧ b.distinct = 0 ∧
  doneIrq b = false ∧ b.ncnt = 0 ∧ b.wlLen = 0 ∧ b.rootV = false ∧ b.hdrIdx = 0 ∧ b.bwBuf = 0 ∧ b.bwCnt = 0 ∧
  b.brBuf = 0 ∧ b.brCnt = 0 ∧ b.sym = 0 ∧ b.bitIdx = 0 ∧ b.emitCnt = 0 ∧ b.decCnt = 0 ∧ b.cur = 0

/-! ## Host commands -/

/-- R233: ACK while idle clears DONE, ERR, REJ and ERROR, so `done_irq` becomes 0, and keeps everything else. -/
def Obligations.AckClearsFlagsAndError : Prop :=
  ∀ (ign : Nat) (s : State), s.blk.busy = false →
    ∃ t : State, exec (.ack ign) s = .next t ∧
      t = { s with
        blk := { s.blk with done := false, err := false, rej := false, errCode := .none, errStage := .none } } ∧
      errorWord t.blk = 0 ∧ doneIrq t.blk = false

/-- R231, R232, R49: ENCODE and DECODE while idle, launched with ICUR = 0 (R355), initialise everything the command
reads, keep the entries of NODE and WL, start the command's first state and make no port transaction. With ICUR ≠ 0 a
model has no transition (R355, R356, U20 of spec/93_implementation_defined.md); that this is a refusal of its own name
is the model's choice (DESIGN CHOICE of the form, log entry 11). -/
def Obligations.AcceptedCommandsStart : Prop :=
  ∀ (i : Instr) (mode : BitVec 2) (first : BitVec 5) (s : State), s.blk.busy = false →
    ((∃ ign, i = .encode ign) ∧ mode = 1 ∧ first = 0x01#5) ∨ ((∃ ign, i = .decode ign) ∧ mode = 2 ∧ first = 0x0B#5) →
    (s.host.icur = 0 → exec i s = .next { s with
      blk := { Block.reset with
        hist := Vector.replicate 256 0, codeLen := Vector.replicate 256 0, codeBits := Vector.replicate 256 0,
        root := 0, node := s.blk.node, wl := s.blk.wl, mode := mode, busy := true, state := first } }) ∧
    (s.host.icur ≠ 0 → exec i s = .refused .launchNotAtStart)

/-- R234: a reserved command while idle clears DONE, sets ERR and records IllegalCommand(COMMAND), which reads 0x76. -/
def Obligations.ReservedCommandsAreIllegal : Prop :=
  ∀ (i : Instr) (s : State), isReservedCommand i = true → s.blk.busy = false →
    ∃ t : State, exec i s = .next t ∧
      t = { s with blk := { s.blk with
        done := false, err := true, errCode := .illegalCommand, errStage := .command } } ∧
      errorWord t.blk = 0x00000076#32 ∧ doneIrq t.blk = true

/-- R235: a CMD write while BUSY = 1, of any command, sets REJ and changes nothing else. -/
def Obligations.CommandsWhileBusyOnlySetRej : Prop :=
  ∀ (i : Instr) (s : State), isCommand i = true → s.blk.busy = true →
    exec i s = .next { s with blk := { s.blk with rej := true } }

/-- R49: acceptance leaves nothing of the last command but the entries of NODE and WL: what it makes is the same from
any two idle blocks whose input is at its start (R355), but for those entries, which it keeps. That no later step reads
them before it writes them (R47) is not said here. -/
def Obligations.AcceptanceForgetsTheLastCommand : Prop :=
  ∀ (i : Instr) (s₁ s₂ : State), ((∃ ign, i = .encode ign) ∨ (∃ ign, i = .decode ign)) →
    s₁.blk.busy = false → s₂.blk.busy = false → s₁.host.icur = 0 → s₂.host.icur = 0 →
    ∃ t₁ t₂ : State, exec i s₁ = .next t₁ ∧ exec i s₂ = .next t₂ ∧ sameButArena t₁.blk t₂.blk ∧
      t₁.blk.node = s₁.blk.node ∧ t₁.blk.wl = s₁.blk.wl ∧ t₁.host = s₁.host

/-- R32: MODE changes only when an ENCODE or a DECODE is accepted, or by the reset event. -/
def Obligations.ModeChangesOnlyAtAcceptance : Prop :=
  ∀ s t : State, step s = .next t → t.blk.mode ≠ s.blk.mode →
    (s.blk.busy = false ∧ ∃ w rest, s.host.agenda = .write 0x00#8 .word w :: rest ∧
      ((w.toNat % 16 = 1 ∧ t.blk.mode = 1) ∨ (w.toNat % 16 = 2 ∧ t.blk.mode = 2))) ∨
    (∃ rest, s.host.agenda = .reset :: rest)

/-! ## Port transactions and bit primitives -/

/-- R61, R62, R63: the answers of the ports and what they leave. After Err the cursor, or the output, is a free value:
only that the cursor stays inside the input is said of it (R60). -/
def Obligations.PortTransactionRules : Prop :=
  ∀ (x : Byte) (h : HostSide),
    (h.ansErr = false → h.icur = h.inData.length →
      inRead h = (.eof, { h with obs := .inRead .eof :: h.obs })) ∧
    (h.ansErr = false → h.inData[h.icur]? = some x →
      inRead h = (.byte x, { h with icur := h.icur + 1, obs := .inRead (.byte x) :: h.obs })) ∧
    (h.ansErr = false → inRewind h = (.ok, { h with icur := 0, obs := .inRewind .ok :: h.obs })) ∧
    (h.ansErr = false →
      outWrite x h = (.ok, { h with outData := h.outData ++ [x], obs := .outWrite x .ok :: h.obs })) ∧
    (h.ansErr = true → (inRead h).1 = .err ∧ (inRead h).2.icur ≤ h.inData.length ∧ (inRead h).2.inData = h.inData ∧
      (inRead h).2.outData = h.outData) ∧
    (h.ansErr = true → (inRewind h).1 = .err ∧ (inRewind h).2.icur ≤ h.inData.length ∧
      (inRewind h).2.inData = h.inData ∧ (inRewind h).2.outData = h.outData) ∧
    (h.ansErr = true → (outWrite x h).1 = .err ∧ (outWrite x h).2.inData = h.inData ∧
      (outWrite x h).2.icur = h.icur)

/-- R66: header byte k is byte k mod 4 of the count of symbol k div 4, least significant first under LE, most
significant first under BE. -/
def Obligations.HeaderByteOrder : Prop :=
  ∀ (b : Block) (k : BitVec 11), k.toNat < 1024 →
    (hdrByte .le b k).toNat = (histAt b (BitVec.ofNat 8 (k.toNat / 4))).toNat / 2 ^ (8 * (k.toNat % 4)) % 256 ∧
    (hdrByte .be b k).toNat = (histAt b (BitVec.ofNat 8 (k.toNat / 4))).toNat / 2 ^ (8 * (3 - k.toNat % 4)) % 256

/-- R201, R203, R206, R210, R211, R214: eight bits put into an empty writer make a full byte, and taking eight bits
from a reader loaded with that byte gives them back in order. -/
def Obligations.ReaderReturnsWhatTheWriterPacked : Prop :=
  ∀ (x0 x1 x2 x3 x4 x5 x6 x7 : Bool) (b : Block), b.bwBuf = 0 → b.bwCnt = 0 → ∃ w : Block,
    ([x0, x1, x2, x3, x4, x5, x6, x7].foldl (fun (m : Micro) x => m.bind (bwPut x)) (.ok b) = .ok w) ∧
    w.bwCnt = 8 ∧
    ([0, 1, 2, 3, 4, 5, 6, 7].map fun n => (brTake (Nat.iterate (fun c => (brTake c).2) n (brLoad w.bwBuf b))).1) =
      [x0, x1, x2, x3, x4, x5, x6, x7] ∧
    (Nat.iterate (fun c => (brTake c).2) 8 (brLoad w.bwBuf b)).brCnt = 0

/-! ## The tree builder's primitives -/

/-- R154: insertStable puts the candidate before the first whose frequency strictly exceeds its own, and after all
others. -/
def Obligations.InsertStablePosition : Prop :=
  ∀ (h : Handle) (b : Block), b.wlLen.toNat < 256 → (h :: worklist b).all inArena = true →
    ∃ (c : Block) (before after : List Handle), insertStable h b = .ok c ∧ worklist b = before ++ after ∧
      worklist c = before ++ h :: after ∧ c.wlLen = b.wlLen + 1 ∧
      (∀ x ∈ before, ¬(freqOf b h < freqOf b x)) ∧ (∀ x ∈ after.head?, freqOf b h < freqOf b x) ∧
      (∀ j (hj : j < 256), b.wlLen.toNat < j → c.wl[j] = b.wl[j]) ∧ c = { b with wl := c.wl, wlLen := c.wlLen }

/-- R161: removeHead takes WL[0] and moves every other entry of the worklist down by one. -/
def Obligations.RemoveHeadShiftsTheWorklist : Prop :=
  ∀ b : Block, 1 ≤ b.wlLen.toNat → b.wlLen.toNat ≤ 256 → ∃ c : Block, removeHead b = .ok (b.wl[0], c) ∧
    c.wlLen = b.wlLen - 1 ∧ (∀ j (hj : j < 255), j + 1 < b.wlLen.toNat → c.wl[j] = b.wl[j + 1]) ∧
    (∀ j (hj : j < 256), b.wlLen.toNat ≤ j + 1 → c.wl[j] = b.wl[j]) ∧ c = { b with wl := c.wl, wlLen := c.wlLen }

/-- R158, R159: the two ways a node is made, and the check on a full arena. That the check is there at all is the
model's choice (DESIGN CHOICE, log entry 10): R304 and U16 let a model leave it out. -/
def Obligations.NodeCreation : Prop :=
  ∀ (x : Byte) (f : Size) (l r : Handle) (lv rv : Bool) (b : Block),
    (∀ p : b.ncnt.toNat < 511,
      newLeaf x f b = .ok (b.ncnt.setWidth 9, { b with
        node := b.node.set b.ncnt.toNat ⟨f, x, false, 0, false, 0⟩ p, ncnt := b.ncnt + 1 }) ∧
      newInternal f l lv r rv b = .ok (b.ncnt.setWidth 9, { b with
        node := b.node.set b.ncnt.toNat ⟨f, 0, lv, bif lv then l else 0, rv, bif rv then r else 0⟩ p,
        ncnt := b.ncnt + 1 })) ∧
    (b.ncnt = 511#10 → newLeaf x f b = .error (.raise .allocationError .treeBuild) ∧
      newInternal f l lv r rv b = .error (.raise .allocationError .treeBuild))

/-! ## Micro-operations: results and completion -/

/-- R236: in S_IDLE the sequencer has no step: its turn changes nothing. -/
def Obligations.IdleHasNoStep : Prop := ∀ s : State, exec .sIdle s = .next s

/-- R97: a reserved STATE value is stuck. -/
def Obligations.ReservedStatesAreStuck : Prop :=
  ∀ (i : Instr) (s : State), isReservedState i = true → ∃ c : BitVec 5, encodeWord i = .state c ∧
    exec i s = .fault (.stuckState c)

/-- R132, R133, R134: S_E_COUNT counts a byte, raises CountOverflow at the 2^32-th occurrence of a value with the byte
consumed, and goes to S_E_REWIND at the end of the input. -/
def Obligations.CountStepResult : Prop :=
  ∀ (x : Byte) (s : State), s.host.ansErr = false →
    (s.host.inData[s.host.icur]? = some x → histAt s.blk x ≠ 0xFFFFFFFF#32 →
      exec .sECount s = .next { s with
        blk := { s.blk with
          hist := s.blk.hist.set x.toNat (histAt s.blk x + 1) x.isLt, inSize := s.blk.inSize + 1, state := 0x01#5 }
        host := { s.host with icur := s.host.icur + 1, obs := .inRead (.byte x) :: s.host.obs } }) ∧
    (s.host.inData[s.host.icur]? = some x → histAt s.blk x = 0xFFFFFFFF#32 →
      exec .sECount s = .next { s with
        blk := errorEntry .countOverflow .analysis s.blk
        host := { s.host with icur := s.host.icur + 1, obs := .inRead (.byte x) :: s.host.obs } }) ∧
    (s.host.icur = s.host.inData.length →
      exec .sECount s = .next { s with
        blk := { s.blk with state := 0x02#5 }, host := { s.host with obs := .inRead .eof :: s.host.obs } })

/-- R135: S_E_REWIND rewinds and goes to S_T_INIT. -/
def Obligations.RewindStepResult : Prop :=
  ∀ s : State, s.host.ansErr = false →
    exec .sERewind s = .next { s with
      blk := { s.blk with state := 0x03#5 }
      host := { s.host with icur := 0, obs := .inRewind .ok :: s.host.obs } }

/-- R155, R156, R163, R164, R170: from an empty arena and worklist, S_T_INIT sums the counts, creates one leaf per
present symbol in ascending order, and goes on by their number and MODE. -/
def Obligations.TreeInitResult : Prop :=
  ∀ s : State, s.blk.ncnt = 0 → s.blk.wlLen = 0 → ∃ t : State, exec .sTInit s = .next t ∧ t.host = s.host ∧
    t.blk.total.toNat = (allSymbols.map fun x => (histAt s.blk x).toNat).sum ∧
    t.blk.distinct.toNat = (presentSymbols s.blk).length ∧
    (∀ (k : Nat) (hk : k < (presentSymbols s.blk).length),
      t.blk.node[k]? = some ⟨(histAt s.blk (presentSymbols s.blk)[k]).setWidth 64, (presentSymbols s.blk)[k],
        false, 0, false, 0⟩) ∧
    ((presentSymbols s.blk).length = 0 → t.blk.ncnt = 0 ∧ t.blk.rootV = false ∧
      (s.blk.mode = 1 → t.blk.state = 0x06#5 ∧ t.blk.hdrIdx = 0 ∧ t.blk.busy = s.blk.busy ∧
        t.blk.done = s.blk.done) ∧
      (s.blk.mode ≠ 1 → t.blk.state = 0x00#5 ∧ t.blk.busy = false ∧ t.blk.done = true)) ∧
    ((presentSymbols s.blk).length = 1 → t.blk.ncnt = 2 ∧ t.blk.root = 1 ∧ t.blk.rootV = true ∧
      t.blk.node[1]? = some ⟨freqOf t.blk 0, 0, true, 0, false, 0⟩ ∧
      (s.blk.mode = 1 → t.blk.state = 0x05#5) ∧
      (s.blk.mode ≠ 1 → t.blk.state = 0x0C#5 ∧ t.blk.cur = 1 ∧ t.blk.brCnt = 0)) ∧
    (2 ≤ (presentSymbols s.blk).length → t.blk.ncnt.toNat = (presentSymbols s.blk).length ∧ t.blk.state = 0x04#5 ∧
      (worklist t.blk).Perm ((List.range (presentSymbols s.blk).length).map (BitVec.ofNat 9)) ∧
      (worklist t.blk).Pairwise (sortsBefore t.blk))

/-- R162, R171: S_T_MERGE makes the two candidates that sort first the left and the right child of a new node, inserts
it, and ends the tree when it is the only candidate. -/
def Obligations.TreeMergeResult : Prop :=
  ∀ (a c : Handle) (rest : List Handle) (s : State), worklist s.blk = a :: c :: rest → s.blk.wlLen.toNat ≤ 256 →
    s.blk.ncnt.toNat < 511 → (∀ h ∈ worklist s.blk, h.toNat < s.blk.ncnt.toNat) →
    ∃ t : State, exec .sTMerge s = .next t ∧ t.host = s.host ∧ t.blk.ncnt = s.blk.ncnt + 1 ∧
      t.blk.node[s.blk.ncnt.toNat]? = some ⟨freqOf s.blk a + freqOf s.blk c, 0, true, a, true, c⟩ ∧
      (∀ k, k ≠ s.blk.ncnt.toNat → t.blk.node[k]? = s.blk.node[k]?) ∧
      t.blk.wlLen.toNat + 1 = s.blk.wlLen.toNat ∧
      (∃ before after, rest = before ++ after ∧ worklist t.blk = before ++ s.blk.ncnt.setWidth 9 :: after ∧
        (∀ x ∈ before, ¬(freqOf s.blk a + freqOf s.blk c < freqOf s.blk x)) ∧
        (∀ x ∈ after.head?, freqOf s.blk a + freqOf s.blk c < freqOf s.blk x)) ∧
      (rest ≠ [] → t.blk.state = 0x04#5 ∧ t.blk.root = s.blk.root ∧ t.blk.rootV = s.blk.rootV) ∧
      (rest = [] → t.blk.root = s.blk.ncnt.setWidth 9 ∧ t.blk.rootV = true ∧
        (s.blk.mode = 1 → t.blk.state = 0x05#5) ∧
        (s.blk.mode ≠ 1 → t.blk.state = 0x0C#5 ∧ t.blk.cur = t.blk.root ∧ t.blk.brCnt = 0))

/-- R186, R190: from the root of a code tree over at most 256 symbols, S_C_GEN completes, with no codeword longer than
255 bits, and writes the code table, HDR_IDX and STATE alone. -/
def Obligations.CodeGenCompletes : Prop :=
  ∀ s : State, CodeTree s.blk s.blk.root → ∃ t : State, exec .sCGen s = .next t ∧
    t = { s with blk := { s.blk with
      codeLen := t.blk.codeLen, codeBits := t.blk.codeBits, hdrIdx := 0, state := 0x06#5 } } ∧
    ((∀ x, codeLenAt s.blk x = 0) → ∀ x, (codeLenAt t.blk x).toNat ≤ 255)

/-- R181, R182, R183, R184: each codeword of S_C_GEN is the path from the root to a leaf of its symbol, 0 to the left
and 1 to the right, with zeros above its end, and every leaf below the root gives its symbol a codeword. -/
def Obligations.CodewordsAreTreePaths : Prop :=
  ∀ s t : State, (∀ x, codeLenAt s.blk x = 0) → exec .sCGen s = .next t →
    (∀ x, codeLenAt t.blk x ≠ 0 →
      (∃ h n, follow s.blk s.blk.root (codeword t.blk x) = some h ∧ nodeAt s.blk h = .ok n ∧ isLeaf n = true ∧
        n.sym = x) ∧
      (∀ i, (codeLenAt t.blk x).toNat ≤ i → (codeBitsAt t.blk x).getLsbD i = false)) ∧
    (∀ p h n, p ≠ [] → follow s.blk s.blk.root p = some h → nodeAt s.blk h = .ok n → isLeaf n = true →
      codeLenAt t.blk n.sym ≠ 0)

/-- R187: no codeword of S_C_GEN is a bit-prefix of another. -/
def Obligations.CodewordsArePrefixFree : Prop :=
  ∀ s t : State, (∀ x, codeLenAt s.blk x = 0) → exec .sCGen s = .next t →
    ∀ x y, x ≠ y → codeLenAt t.blk x ≠ 0 → codeLenAt t.blk y ≠ 0 → ¬(codeword t.blk x <+: codeword t.blk y)

/-- R250: S_E_HDR writes header byte HDR_IDX; after the last one it completes on the empty path, else goes to
S_E_READ. -/
def Obligations.HeaderWriteResult : Prop :=
  ∀ s : State, s.host.ansErr = false → s.blk.hdrIdx.toNat < 1024 →
    exec .sEHdr s = .next { s with
      blk :=
        if s.blk.hdrIdx.toNat = 1023 then
          if s.blk.distinct = 0 then
            { s.blk with outSize := s.blk.outSize + 1, hdrIdx := 1024, state := 0x00#5, busy := false, done := true }
          else { s.blk with outSize := s.blk.outSize + 1, hdrIdx := 1024, state := 0x07#5 }
        else { s.blk with outSize := s.blk.outSize + 1, hdrIdx := s.blk.hdrIdx + 1, state := 0x06#5 }
      host := { s.host with
        outData := s.host.outData ++ [hdrByte s.cfg.hdrByteOrder s.blk s.blk.hdrIdx]
        obs := .outWrite (hdrByte s.cfg.hdrByteOrder s.blk s.blk.hdrIdx) .ok :: s.host.obs } }

/-- R251, R306: S_E_READ takes the next input byte when it was counted, goes to S_E_FLUSH at the end, and raises
StreamMismatch in its three cases. -/
def Obligations.EmitReadResult : Prop :=
  ∀ (x : Byte) (s : State), s.host.ansErr = false →
    (s.host.inData[s.host.icur]? = some x →
      exec .sERead s = .next { s with
        blk :=
          if s.blk.emitCnt = s.blk.inSize ∨ codeLenAt s.blk x = 0 then errorEntry .streamMismatch .bitEncode s.blk
          else { s.blk with emitCnt := s.blk.emitCnt + 1, sym := x, bitIdx := 0, state := 0x08#5 }
        host := { s.host with icur := s.host.icur + 1, obs := .inRead (.byte x) :: s.host.obs } }) ∧
    (s.host.icur = s.host.inData.length →
      exec .sERead s = .next { s with
        blk :=
          if s.blk.emitCnt = s.blk.inSize then { s.blk with state := 0x0A#5 }
          else errorEntry .streamMismatch .bitEncode s.blk
        host := { s.host with obs := .inRead .eof :: s.host.obs } })

/-- R201, R252: S_E_BIT puts bit BIT_IDX of the codeword of SYM at bit 7 - BW_CNT of the writer, and goes on to the
write of a full byte, the next input byte, or the next bit. -/
def Obligations.EmitBitResult : Prop :=
  ∀ s : State, s.blk.bwCnt.toNat < 8 → ∃ t : State, exec .sEBit s = .next t ∧
    t = { s with blk := { s.blk with
      bwBuf := t.blk.bwBuf, bwCnt := s.blk.bwCnt + 1, bitIdx := s.blk.bitIdx + 1, state := t.blk.state } } ∧
    (∀ i, t.blk.bwBuf.getLsbD i = (s.blk.bwBuf.getLsbD i ||
      (decide (i = 7 - s.blk.bwCnt.toNat) && (codeBitsAt s.blk s.blk.sym).getLsbD s.blk.bitIdx.toNat))) ∧
    t.blk.state = (if s.blk.bwCnt.toNat = 7 then 0x09#5
      else if s.blk.bitIdx + 1 = codeLenAt s.blk s.blk.sym then 0x07#5 else 0x08#5)

/-- R203, R253: S_E_WRITE writes the writer's byte, empties the writer and goes on with the codeword or the input. -/
def Obligations.EmitWriteResult : Prop :=
  ∀ s : State, s.host.ansErr = false →
    exec .sEWrite s = .next { s with
      blk := { s.blk with
        outSize := s.blk.outSize + 1, bwBuf := 0, bwCnt := 0,
        state := if s.blk.bitIdx < codeLenAt s.blk s.blk.sym then 0x08#5 else 0x07#5 }
      host := { s.host with
        outData := s.host.outData ++ [s.blk.bwBuf], obs := .outWrite s.blk.bwBuf .ok :: s.host.obs } }

/-- R204, R254, R281: S_E_FLUSH writes a partial byte, if there is one, and completes. -/
def Obligations.FlushResult : Prop :=
  ∀ s : State,
    (s.blk.bwCnt = 0 →
      exec .sEFlush s = .next { s with blk := { s.blk with state := 0x00#5, busy := false, done := true } }) ∧
    (s.blk.bwCnt ≠ 0 → s.host.ansErr = false →
      exec .sEFlush s = .next { s with
        blk := { s.blk with
          outSize := s.blk.outSize + 1, bwBuf := 0, bwCnt := 0, state := 0x00#5, busy := false, done := true }
        host := { s.host with
          outData := s.host.outData ++ [s.blk.bwBuf], obs := .outWrite s.blk.bwBuf .ok :: s.host.obs } })

/-- R260: S_D_HDR writes one byte lane of one count; an input that ends inside the header is a FormatError. -/
def Obligations.HeaderReadResult : Prop :=
  ∀ (x : Byte) (s : State), s.host.ansErr = false →
    (s.host.inData[s.host.icur]? = some x → s.blk.hdrIdx.toNat < 1024 → ∃ t : State, exec .sDHdr s = .next t ∧
      t = { s with
        blk := { s.blk with
          hist := t.blk.hist, inSize := s.blk.inSize + 1, hdrIdx := s.blk.hdrIdx + 1,
          state := if s.blk.hdrIdx.toNat = 1023 then 0x03#5 else 0x0B#5 }
        host := { s.host with icur := s.host.icur + 1, obs := .inRead (.byte x) :: s.host.obs } } ∧
      hdrByte s.cfg.hdrByteOrder t.blk s.blk.hdrIdx = x ∧
      (∀ k : BitVec 11, k.toNat < 1024 → k ≠ s.blk.hdrIdx →
        hdrByte s.cfg.hdrByteOrder t.blk k = hdrByte s.cfg.hdrByteOrder s.blk k)) ∧
    (s.host.icur = s.host.inData.length →
      exec .sDHdr s = .next { s with
        blk := errorEntry .formatError .header s.blk
        host := { s.host with obs := .inRead .eof :: s.host.obs } })

/-- R210, R211, R261: S_D_BIT takes one bit, from a byte it reads only when it holds none, and moves to the left child
on 0 and the right child on 1. -/
def Obligations.DecodeBitResult : Prop :=
  ∀ (buf : Byte) (cnt : BitVec 4) (size : Size) (h : HostSide) (n m : Node) (c : Handle) (s : State),
    (s.blk.brCnt ≠ 0 ∧ buf = s.blk.brBuf ∧ cnt = s.blk.brCnt ∧ size = s.blk.inSize ∧ h = s.host) ∨
    (s.blk.brCnt = 0 ∧ s.host.ansErr = false ∧ s.host.inData[s.host.icur]? = some buf ∧ cnt = 8 ∧
      size = s.blk.inSize + 1 ∧
      h = { s.host with icur := s.host.icur + 1, obs := .inRead (.byte buf) :: s.host.obs }) →
    nodeAt s.blk s.blk.cur = .ok n →
    ((buf.getLsbD 7 = false ∧ n.lv = true ∧ c = n.l) ∨ (buf.getLsbD 7 = true ∧ n.rv = true ∧ c = n.r)) →
    nodeAt s.blk c = .ok m →
    exec .sDBit s = .next { s with
      blk := { s.blk with
        brBuf := buf <<< 1, brCnt := cnt - 1, inSize := size, cur := c,
        state := if m.lv = false ∧ m.rv = false then 0x0D#5 else 0x0C#5 }
      host := h }

/-- R261, R303, R311: S_D_BIT at the end of the input, or at a bit with no child to go to, is a FormatError: the byte
read stays consumed and no register but the error fields changes. -/
def Obligations.DecodeBitErrors : Prop :=
  ∀ (buf : Byte) (h : HostSide) (n : Node) (s : State),
    (s.blk.brCnt = 0 → s.host.ansErr = false → s.host.icur = s.host.inData.length →
      exec .sDBit s = .next { s with
        blk := errorEntry .formatError .bitDecode s.blk
        host := { s.host with obs := .inRead .eof :: s.host.obs } }) ∧
    ((s.blk.brCnt ≠ 0 ∧ buf = s.blk.brBuf ∧ h = s.host) ∨
      (s.blk.brCnt = 0 ∧ s.host.ansErr = false ∧ s.host.inData[s.host.icur]? = some buf ∧
        h = { s.host with icur := s.host.icur + 1, obs := .inRead (.byte buf) :: s.host.obs }) →
      nodeAt s.blk s.blk.cur = .ok n →
      (buf.getLsbD 7 = false ∧ n.lv = false) ∨ (buf.getLsbD 7 = true ∧ n.rv = false) →
      exec .sDBit s = .next { s with blk := errorEntry .formatError .bitDecode s.blk, host := h })

/-- R262, R281: S_D_EMIT writes the leaf's symbol, goes back to the root, and completes exactly when DEC_CNT reaches
TOTAL. -/
def Obligations.DecodeEmitResult : Prop :=
  ∀ (n : Node) (s : State), nodeAt s.blk s.blk.cur = .ok n → s.host.ansErr = false →
    exec .sDEmit s = .next { s with
      blk :=
        if s.blk.decCnt + 1 = s.blk.total then
          { s.blk with
            outSize := s.blk.outSize + 1, decCnt := s.blk.decCnt + 1, cur := s.blk.root, state := 0x00#5,
            busy := false, done := true }
        else { s.blk with
            outSize := s.blk.outSize + 1, decCnt := s.blk.decCnt + 1, cur := s.blk.root, state := 0x0C#5 }
      host := { s.host with outData := s.host.outData ++ [n.sym], obs := .outWrite n.sym .ok :: s.host.obs } }

/-! ## Errors -/

/-- R10, R310, R311: errors are precise: a micro-operation that raises writes STATE, BUSY, DONE, ERR and ERROR, leaves
every other register and memory as it was, and `done_irq` is then 1. -/
def Obligations.ErrorsArePrecise : Prop :=
  ∀ (i : Instr) (s t : State), isMicroOp i = true → exec i s = .next t → s.blk.err = false → t.blk.err = true →
    t.blk = { s.blk with
      state := 0x00#5, busy := false, done := false, err := true, errCode := t.blk.errCode,
      errStage := t.blk.errStage } ∧
    t.blk.errCode ≠ .none ∧ t.blk.errStage ≠ .none ∧ doneIrq t.blk = true ∧ t.cfg = s.cfg

/-- R302, R312: an Err answer raises IoError with the state's stage, after exactly one transaction. -/
def Obligations.ErrAnswerRaisesIoError : Prop :=
  ∀ (i : Instr) (g : Stage) (s : State), s.host.ansErr = true →
    ((i = .sECount ∧ g = .analysis) ∨ (i = .sERewind ∧ g = .analysis) ∨
      (i = .sEHdr ∧ g = .header ∧ s.blk.hdrIdx.toNat < 1024) ∨ (i = .sERead ∧ g = .bitEncode) ∨
      (i = .sEWrite ∧ g = .bitEncode) ∨ (i = .sEFlush ∧ g = .bitEncode ∧ s.blk.bwCnt ≠ 0) ∨
      (i = .sDHdr ∧ g = .header) ∨ (i = .sDBit ∧ g = .bitDecode ∧ s.blk.brCnt = 0) ∨
      (i = .sDEmit ∧ g = .bitDecode ∧ s.blk.cur.toNat < 511)) →
    ∃ (t : State) (o : Obs), exec i s = .next t ∧ t.blk = errorEntry .ioError g s.blk ∧ t.cfg = s.cfg ∧
      t.host.inData = s.host.inData ∧ t.host.agenda = s.host.agenda ∧ t.host.obs = o :: s.host.obs

/-- R308: the errors that each state's step can raise. -/
def Obligations.ErrorsOfEachState : Prop :=
  ∀ (i : Instr) (s t : State), isMicroOp i = true → exec i s = .next t → s.blk.err = false → t.blk.err = true →
    (i, t.blk.errCode, t.blk.errStage) ∈
      [(Instr.sECount, ErrCode.ioError, Stage.analysis), (.sECount, .countOverflow, .analysis),
        (.sERewind, .ioError, .analysis), (.sTInit, .allocationError, .treeBuild),
        (.sTMerge, .allocationError, .treeBuild), (.sEHdr, .ioError, .header), (.sERead, .ioError, .bitEncode),
        (.sERead, .streamMismatch, .bitEncode), (.sEWrite, .ioError, .bitEncode), (.sEFlush, .ioError, .bitEncode),
        (.sDHdr, .ioError, .header), (.sDHdr, .formatError, .header), (.sDBit, .ioError, .bitDecode),
        (.sDBit, .formatError, .bitDecode), (.sDEmit, .ioError, .bitDecode)]

/-! ## Frames -/

/-- R133, R134, R135, R251, R260, R261: what the reading micro-operations leave unchanged: every register not named,
every HIST entry but the one counted or written, the output stream, the parameter. -/
def Obligations.ReadingStepsFrame : Prop :=
  ∀ s t : State,
    (exec .sECount s = .next t →
      t.blk = { s.blk with
        state := t.blk.state, busy := t.blk.busy, done := t.blk.done, err := t.blk.err, errCode := t.blk.errCode,
        errStage := t.blk.errStage, hist := t.blk.hist, inSize := t.blk.inSize } ∧
      (∀ x, s.host.inData[s.host.icur]? ≠ some x → histAt t.blk x = histAt s.blk x)) ∧
    (exec .sERewind s = .next t →
      t.blk = { s.blk with
        state := t.blk.state, busy := t.blk.busy, done := t.blk.done, err := t.blk.err, errCode := t.blk.errCode,
        errStage := t.blk.errStage }) ∧
    (exec .sERead s = .next t →
      t.blk = { s.blk with
        state := t.blk.state, busy := t.blk.busy, done := t.blk.done, err := t.blk.err, errCode := t.blk.errCode,
        errStage := t.blk.errStage, emitCnt := t.blk.emitCnt, sym := t.blk.sym, bitIdx := t.blk.bitIdx }) ∧
    (exec .sDHdr s = .next t →
      t.blk = { s.blk with
        state := t.blk.state, busy := t.blk.busy, done := t.blk.done, err := t.blk.err, errCode := t.blk.errCode,
        errStage := t.blk.errStage, hist := t.blk.hist, inSize := t.blk.inSize, hdrIdx := t.blk.hdrIdx } ∧
      (∀ x, x.toNat ≠ s.blk.hdrIdx.toNat / 4 → histAt t.blk x = histAt s.blk x)) ∧
    (exec .sDBit s = .next t →
      t.blk = { s.blk with
        state := t.blk.state, busy := t.blk.busy, done := t.blk.done, err := t.blk.err, errCode := t.blk.errCode,
        errStage := t.blk.errStage, inSize := t.blk.inSize, brBuf := t.blk.brBuf, brCnt := t.blk.brCnt,
        cur := t.blk.cur }) ∧
    (∀ i, i ∈ [Instr.sECount, .sERewind, .sERead, .sDHdr, .sDBit] → exec i s = .next t →
      t.cfg = s.cfg ∧ t.host.outData = s.host.outData ∧ t.host.inData = s.host.inData ∧
      t.host.inBound = s.host.inBound ∧ t.host.outBound = s.host.outBound)

/-- R250, R253, R254, R262: what the writing micro-operations leave unchanged, and that the output stream grows by the
byte written when the answer is Ok. -/
def Obligations.WritingStepsFrame : Prop :=
  ∀ s t : State,
    (exec .sEHdr s = .next t →
      t.blk = { s.blk with
        state := t.blk.state, busy := t.blk.busy, done := t.blk.done, err := t.blk.err, errCode := t.blk.errCode,
        errStage := t.blk.errStage, outSize := t.blk.outSize, hdrIdx := t.blk.hdrIdx }) ∧
    (∀ i, i ∈ [Instr.sEWrite, .sEFlush] → exec i s = .next t →
      t.blk = { s.blk with
        state := t.blk.state, busy := t.blk.busy, done := t.blk.done, err := t.blk.err, errCode := t.blk.errCode,
        errStage := t.blk.errStage, outSize := t.blk.outSize, bwBuf := t.blk.bwBuf, bwCnt := t.blk.bwCnt }) ∧
    (exec .sDEmit s = .next t →
      t.blk = { s.blk with
        state := t.blk.state, busy := t.blk.busy, done := t.blk.done, err := t.blk.err, errCode := t.blk.errCode,
        errStage := t.blk.errStage, outSize := t.blk.outSize, decCnt := t.blk.decCnt, cur := t.blk.cur }) ∧
    (∀ i, i ∈ [Instr.sEHdr, .sEWrite, .sEFlush, .sDEmit] → exec i s = .next t →
      t.cfg = s.cfg ∧ t.host.inData = s.host.inData ∧ t.host.icur = s.host.icur ∧
      t.host.inBound = s.host.inBound ∧ t.host.outBound = s.host.outBound ∧
      (s.host.ansErr = false → t.host.outData = s.host.outData ∨ ∃ x, t.host.outData = s.host.outData ++ [x]))

/-- R170, R171, R190, R252: what the internal micro-operations leave unchanged: the whole host's side, every register
not named, and every arena entry already created. -/
def Obligations.InternalStepsFrame : Prop :=
  ∀ s t : State,
    (∀ i, i ∈ [Instr.sTInit, .sTMerge, .sCGen, .sEBit] → exec i s = .next t → t.host = s.host ∧ t.cfg = s.cfg) ∧
    (∀ i, i ∈ [Instr.sTInit, .sTMerge] → exec i s = .next t →
      (∀ k, k < s.blk.ncnt.toNat → t.blk.node[k]? = s.blk.node[k]?) ∧ s.blk.ncnt.toNat ≤ t.blk.ncnt.toNat) ∧
    (exec .sTInit s = .next t →
      t.blk = { s.blk with
        state := t.blk.state, busy := t.blk.busy, done := t.blk.done, err := t.blk.err, errCode := t.blk.errCode,
        errStage := t.blk.errStage, total := t.blk.total, distinct := t.blk.distinct, node := t.blk.node,
        ncnt := t.blk.ncnt, wl := t.blk.wl, wlLen := t.blk.wlLen, root := t.blk.root, rootV := t.blk.rootV,
        hdrIdx := t.blk.hdrIdx, cur := t.blk.cur, brCnt := t.blk.brCnt }) ∧
    (exec .sTMerge s = .next t →
      t.blk = { s.blk with
        state := t.blk.state, busy := t.blk.busy, done := t.blk.done, err := t.blk.err, errCode := t.blk.errCode,
        errStage := t.blk.errStage, node := t.blk.node, ncnt := t.blk.ncnt, wl := t.blk.wl, wlLen := t.blk.wlLen,
        root := t.blk.root, rootV := t.blk.rootV, cur := t.blk.cur, brCnt := t.blk.brCnt }) ∧
    (exec .sCGen s = .next t →
      t.blk = { s.blk with
        state := t.blk.state, codeLen := t.blk.codeLen, codeBits := t.blk.codeBits, hdrIdx := t.blk.hdrIdx }) ∧
    (exec .sEBit s = .next t →
      t.blk = { s.blk with
        state := t.blk.state, bwBuf := t.blk.bwBuf, bwCnt := t.blk.bwCnt, bitIdx := t.blk.bitIdx })

/-- R20, R22, R231 to R235: the frame of the host commands: no port transaction, no stream, no entry of NODE or WL; and
ACK and the reserved commands leave the whole block but the flags and ERROR. -/
def Obligations.CommandsFrame : Prop :=
  ∀ (i : Instr) (s t : State), isCommand i = true → exec i s = .next t →
    t.host = s.host ∧ t.cfg = s.cfg ∧ t.blk.node = s.blk.node ∧ t.blk.wl = s.blk.wl ∧
    ((∀ ign, i ≠ .encode ign) → (∀ ign, i ≠ .decode ign) →
      t.blk = { s.blk with
        done := t.blk.done, err := t.blk.err, rej := t.blk.rej, errCode := t.blk.errCode,
        errStage := t.blk.errStage })

/-! ## The whole machine -/

/-- R10, R70, R73: a sequencer step makes at most one port transaction. -/
def Obligations.AtMostOneTransactionPerStep : Prop :=
  ∀ (i : Instr) (s t : State), isMicroOp i = true → exec i s = .next t →
    t.host.obs = s.host.obs ∨ ∃ o, t.host.obs = o :: s.host.obs ∧ ∀ off v, o ≠ .regRead off v

/-- R64, R356, R361: no step changes IN_DATA while a command runs, and none but a bind changes it at all. -/
def Obligations.InputUnchangedDuringCommand : Prop :=
  ∀ s t : State, step s = .next t → t.host.inData ≠ s.host.inData →
    s.blk.busy = false ∧ ∃ data rest, s.host.agenda = .bindIn data :: rest ∧ t.host.inData = data ∧ t.host.icur = 0

/-- R168: the tree is a function of HIST alone: whatever else two blocks hold, S_T_INIT and S_T_MERGE build the same
nodes and the same worklist in them. -/
def Obligations.TreeDependsOnHistAlone : Prop :=
  (∀ s₁ s₂ t₁ : State, s₁.blk.hist = s₂.blk.hist → s₁.blk.ncnt = 0 → s₁.blk.wlLen = 0 → s₂.blk.ncnt = 0 →
    s₂.blk.wlLen = 0 → exec .sTInit s₁ = .next t₁ → ∃ t₂ : State, exec .sTInit s₂ = .next t₂ ∧
      t₁.blk.total = t₂.blk.total ∧ t₁.blk.distinct = t₂.blk.distinct ∧ t₁.blk.ncnt = t₂.blk.ncnt ∧
      worklist t₁.blk = worklist t₂.blk ∧ (∀ k, k < t₁.blk.ncnt.toNat → t₁.blk.node[k]? = t₂.blk.node[k]?)) ∧
  (∀ s₁ s₂ t₁ : State, s₁.blk.ncnt = s₂.blk.ncnt → s₁.blk.wlLen = s₂.blk.wlLen → s₁.blk.wlLen.toNat ≤ 256 →
    worklist s₁.blk = worklist s₂.blk → (∀ h ∈ worklist s₁.blk, h.toNat < s₁.blk.ncnt.toNat) →
    s₁.blk.ncnt.toNat < 511 → (∀ k, k < s₁.blk.ncnt.toNat → s₁.blk.node[k]? = s₂.blk.node[k]?) →
    exec .sTMerge s₁ = .next t₁ → ∃ t₂ : State, exec .sTMerge s₂ = .next t₂ ∧
      t₁.blk.ncnt = t₂.blk.ncnt ∧ t₁.blk.wlLen = t₂.blk.wlLen ∧ worklist t₁.blk = worklist t₂.blk ∧
      (∀ k, k < t₁.blk.ncnt.toNat → t₁.blk.node[k]? = t₂.blk.node[k]?) ∧
      (t₁.blk.wlLen = 1 → t₁.blk.root = t₂.blk.root))

/-- The machine's invariant holds right after reset. -/
def Obligations.InvariantHoldsAtReset : Prop := MachineInv State.reset

/-- R25, R26, R32, R97, R240, R241: the control invariant is kept by every step from every state. -/
def Obligations.ControlInvariantKept : Prop :=
  ∀ s t : State, ControlInv s.blk → step s = .next t → ControlInv t.blk

/-- R40, R202, R203, R252, R253, R254: the writer's invariant is kept by every step from every state. -/
def Obligations.WriterInvariantKept : Prop :=
  ∀ s t : State, WriterInv s.blk → step s = .next t → WriterInv t.blk

/-- R39, R41, R60: the index registers and the input cursor stay in range in every step from every state. -/
def Obligations.IndexAndCursorInvariantKept : Prop :=
  ∀ s t : State, IndexInv s.blk → s.host.icur ≤ s.host.inData.length → step s = .next t →
    IndexInv t.blk ∧ t.host.icur ≤ t.host.inData.length

/-- R152, R157, R160, R165 to R167, R169, R261, R262: the tree, the order of the worklist, the counts and the decode
walk keep their invariant in every step from every state. -/
def Obligations.TreeInvariantKept : Prop :=
  ∀ s t : State, TreeInv s.blk → step s = .next t → TreeInv t.blk

/-- R47, R97, R160, R186: from a state with the invariant no step faults: no memory is indexed outside its entries, no
primitive is called outside its precondition, no reserved state is met; and no error is an AllocationError. -/
def Obligations.InvariantStatesNeverFault : Prop :=
  ∀ s : State, MachineInv s → (∀ f, step s ≠ .fault f) ∧
    (∀ t, step s = .next t → s.blk.errCode ≠ .allocationError → t.blk.errCode ≠ .allocationError)

/-- R372, R374: under fairness every command ends: while only the sequencer steps, whatever the host answers, a state
with the invariant reaches one that is not busy. It says that some number of steps does, and gives no bound. When the
schedule is used up the sequencer steps on with no Err answered, the model's choice (DESIGN CHOICE, log entry 4), and
every transaction is answered (DEDUCED, log entry 15). -/
def Obligations.EveryCommandEnds : Prop :=
  ∀ s : State, MachineInv s → onlySequencer s.host.agenda = true → ∃ (k : Nat) (t : State),
    Host.Core.run Sys2Proof.core k s = .next t ∧ t.blk.busy = false ∧ MachineInv t

/-- R280, R356, R374: a command launched from CleanLaunch runs to completion or fails outright, whatever the host
answers and however it polls STATUS or writes CMD meanwhile, as long as no reset event abandons the command (R351) and
the host takes no step that has no transition (R23, R361). It says that some number of steps does, and gives no bound.
When the schedule is used up the sequencer steps on with no Err answered, the model's choice (DESIGN CHOICE, log entry
4), and every transaction is answered (DEDUCED, log entry 15). -/
def Obligations.CleanLaunchEndsInDoneOrErr : Prop :=
  ∀ s : State, MachineInv s → CleanLaunch s →
    (∀ t e rest, DuringCommand s t → t.host.agenda = e :: rest → leavesRunning e = true) → ∃ (k : Nat) (t : State),
    Host.Core.run Sys2Proof.core (k + 1) s = .next t ∧ t.blk.busy = false ∧ t.blk.state = Code.sIdle ∧
    (t.blk.done = true ∨ t.blk.err = true)
end

