-- ==== Sys2Proof/Laws/State.lean ====
section
/-! SUPPORT. One lemma per field per update of the block, true by rfl: no proof unfolds a record update. -/

namespace Sys2Proof.Machine

/-! goto -/

@[simp] theorem goto_busy (c : BitVec 5) (b : Block) : (goto c b).busy = b.busy := rfl
@[simp] theorem goto_done (c : BitVec 5) (b : Block) : (goto c b).done = b.done := rfl
@[simp] theorem goto_err (c : BitVec 5) (b : Block) : (goto c b).err = b.err := rfl
@[simp] theorem goto_rej (c : BitVec 5) (b : Block) : (goto c b).rej = b.rej := rfl
@[simp] theorem goto_errCode (c : BitVec 5) (b : Block) : (goto c b).errCode = b.errCode := rfl
@[simp] theorem goto_errStage (c : BitVec 5) (b : Block) : (goto c b).errStage = b.errStage := rfl
@[simp] theorem goto_inSize (c : BitVec 5) (b : Block) : (goto c b).inSize = b.inSize := rfl
@[simp] theorem goto_outSize (c : BitVec 5) (b : Block) : (goto c b).outSize = b.outSize := rfl
@[simp] theorem goto_total (c : BitVec 5) (b : Block) : (goto c b).total = b.total := rfl
@[simp] theorem goto_distinct (c : BitVec 5) (b : Block) : (goto c b).distinct = b.distinct := rfl
@[simp] theorem goto_state (c : BitVec 5) (b : Block) : (goto c b).state = c := rfl
@[simp] theorem goto_mode (c : BitVec 5) (b : Block) : (goto c b).mode = b.mode := rfl
@[simp] theorem goto_hist (c : BitVec 5) (b : Block) : (goto c b).hist = b.hist := rfl
@[simp] theorem goto_node (c : BitVec 5) (b : Block) : (goto c b).node = b.node := rfl
@[simp] theorem goto_ncnt (c : BitVec 5) (b : Block) : (goto c b).ncnt = b.ncnt := rfl
@[simp] theorem goto_wl (c : BitVec 5) (b : Block) : (goto c b).wl = b.wl := rfl
@[simp] theorem goto_wlLen (c : BitVec 5) (b : Block) : (goto c b).wlLen = b.wlLen := rfl
@[simp] theorem goto_root (c : BitVec 5) (b : Block) : (goto c b).root = b.root := rfl
@[simp] theorem goto_rootV (c : BitVec 5) (b : Block) : (goto c b).rootV = b.rootV := rfl
@[simp] theorem goto_codeLen (c : BitVec 5) (b : Block) : (goto c b).codeLen = b.codeLen := rfl
@[simp] theorem goto_codeBits (c : BitVec 5) (b : Block) : (goto c b).codeBits = b.codeBits := rfl
@[simp] theorem goto_hdrIdx (c : BitVec 5) (b : Block) : (goto c b).hdrIdx = b.hdrIdx := rfl
@[simp] theorem goto_bwBuf (c : BitVec 5) (b : Block) : (goto c b).bwBuf = b.bwBuf := rfl
@[simp] theorem goto_bwCnt (c : BitVec 5) (b : Block) : (goto c b).bwCnt = b.bwCnt := rfl
@[simp] theorem goto_brBuf (c : BitVec 5) (b : Block) : (goto c b).brBuf = b.brBuf := rfl
@[simp] theorem goto_brCnt (c : BitVec 5) (b : Block) : (goto c b).brCnt = b.brCnt := rfl
@[simp] theorem goto_sym (c : BitVec 5) (b : Block) : (goto c b).sym = b.sym := rfl
@[simp] theorem goto_bitIdx (c : BitVec 5) (b : Block) : (goto c b).bitIdx = b.bitIdx := rfl
@[simp] theorem goto_emitCnt (c : BitVec 5) (b : Block) : (goto c b).emitCnt = b.emitCnt := rfl
@[simp] theorem goto_decCnt (c : BitVec 5) (b : Block) : (goto c b).decCnt = b.decCnt := rfl
@[simp] theorem goto_cur (c : BitVec 5) (b : Block) : (goto c b).cur = b.cur := rfl

/-! errorEntry -/

@[simp] theorem errorEntry_busy (c : ErrCode) (g : Stage) (b : Block) : (errorEntry c g b).busy = false := rfl
@[simp] theorem errorEntry_done (c : ErrCode) (g : Stage) (b : Block) : (errorEntry c g b).done = false := rfl
@[simp] theorem errorEntry_err (c : ErrCode) (g : Stage) (b : Block) : (errorEntry c g b).err = true := rfl
@[simp] theorem errorEntry_rej (c : ErrCode) (g : Stage) (b : Block) : (errorEntry c g b).rej = b.rej := rfl
@[simp] theorem errorEntry_errCode (c : ErrCode) (g : Stage) (b : Block) : (errorEntry c g b).errCode = c := rfl
@[simp] theorem errorEntry_errStage (c : ErrCode) (g : Stage) (b : Block) : (errorEntry c g b).errStage = g := rfl
@[simp] theorem errorEntry_inSize (c : ErrCode) (g : Stage) (b : Block) : (errorEntry c g b).inSize = b.inSize := rfl
@[simp] theorem errorEntry_outSize (c : ErrCode) (g : Stage) (b : Block) : (errorEntry c g b).outSize = b.outSize := rfl
@[simp] theorem errorEntry_total (c : ErrCode) (g : Stage) (b : Block) : (errorEntry c g b).total = b.total := rfl
@[simp] theorem errorEntry_distinct (c : ErrCode) (g : Stage) (b : Block) : (errorEntry c g b).distinct = b.distinct := rfl
@[simp] theorem errorEntry_state (c : ErrCode) (g : Stage) (b : Block) : (errorEntry c g b).state = Code.sIdle := rfl
@[simp] theorem errorEntry_mode (c : ErrCode) (g : Stage) (b : Block) : (errorEntry c g b).mode = b.mode := rfl
@[simp] theorem errorEntry_hist (c : ErrCode) (g : Stage) (b : Block) : (errorEntry c g b).hist = b.hist := rfl
@[simp] theorem errorEntry_node (c : ErrCode) (g : Stage) (b : Block) : (errorEntry c g b).node = b.node := rfl
@[simp] theorem errorEntry_ncnt (c : ErrCode) (g : Stage) (b : Block) : (errorEntry c g b).ncnt = b.ncnt := rfl
@[simp] theorem errorEntry_wl (c : ErrCode) (g : Stage) (b : Block) : (errorEntry c g b).wl = b.wl := rfl
@[simp] theorem errorEntry_wlLen (c : ErrCode) (g : Stage) (b : Block) : (errorEntry c g b).wlLen = b.wlLen := rfl
@[simp] theorem errorEntry_root (c : ErrCode) (g : Stage) (b : Block) : (errorEntry c g b).root = b.root := rfl
@[simp] theorem errorEntry_rootV (c : ErrCode) (g : Stage) (b : Block) : (errorEntry c g b).rootV = b.rootV := rfl
@[simp] theorem errorEntry_codeLen (c : ErrCode) (g : Stage) (b : Block) : (errorEntry c g b).codeLen = b.codeLen := rfl
@[simp] theorem errorEntry_codeBits (c : ErrCode) (g : Stage) (b : Block) : (errorEntry c g b).codeBits = b.codeBits := rfl
@[simp] theorem errorEntry_hdrIdx (c : ErrCode) (g : Stage) (b : Block) : (errorEntry c g b).hdrIdx = b.hdrIdx := rfl
@[simp] theorem errorEntry_bwBuf (c : ErrCode) (g : Stage) (b : Block) : (errorEntry c g b).bwBuf = b.bwBuf := rfl
@[simp] theorem errorEntry_bwCnt (c : ErrCode) (g : Stage) (b : Block) : (errorEntry c g b).bwCnt = b.bwCnt := rfl
@[simp] theorem errorEntry_brBuf (c : ErrCode) (g : Stage) (b : Block) : (errorEntry c g b).brBuf = b.brBuf := rfl
@[simp] theorem errorEntry_brCnt (c : ErrCode) (g : Stage) (b : Block) : (errorEntry c g b).brCnt = b.brCnt := rfl
@[simp] theorem errorEntry_sym (c : ErrCode) (g : Stage) (b : Block) : (errorEntry c g b).sym = b.sym := rfl
@[simp] theorem errorEntry_bitIdx (c : ErrCode) (g : Stage) (b : Block) : (errorEntry c g b).bitIdx = b.bitIdx := rfl
@[simp] theorem errorEntry_emitCnt (c : ErrCode) (g : Stage) (b : Block) : (errorEntry c g b).emitCnt = b.emitCnt := rfl
@[simp] theorem errorEntry_decCnt (c : ErrCode) (g : Stage) (b : Block) : (errorEntry c g b).decCnt = b.decCnt := rfl
@[simp] theorem errorEntry_cur (c : ErrCode) (g : Stage) (b : Block) : (errorEntry c g b).cur = b.cur := rfl

/-! complete -/

@[simp] theorem complete_busy (b : Block) : (complete b).busy = false := rfl
@[simp] theorem complete_done (b : Block) : (complete b).done = true := rfl
@[simp] theorem complete_err (b : Block) : (complete b).err = b.err := rfl
@[simp] theorem complete_rej (b : Block) : (complete b).rej = b.rej := rfl
@[simp] theorem complete_errCode (b : Block) : (complete b).errCode = b.errCode := rfl
@[simp] theorem complete_errStage (b : Block) : (complete b).errStage = b.errStage := rfl
@[simp] theorem complete_inSize (b : Block) : (complete b).inSize = b.inSize := rfl
@[simp] theorem complete_outSize (b : Block) : (complete b).outSize = b.outSize := rfl
@[simp] theorem complete_total (b : Block) : (complete b).total = b.total := rfl
@[simp] theorem complete_distinct (b : Block) : (complete b).distinct = b.distinct := rfl
@[simp] theorem complete_state (b : Block) : (complete b).state = Code.sIdle := rfl
@[simp] theorem complete_mode (b : Block) : (complete b).mode = b.mode := rfl
@[simp] theorem complete_hist (b : Block) : (complete b).hist = b.hist := rfl
@[simp] theorem complete_node (b : Block) : (complete b).node = b.node := rfl
@[simp] theorem complete_ncnt (b : Block) : (complete b).ncnt = b.ncnt := rfl
@[simp] theorem complete_wl (b : Block) : (complete b).wl = b.wl := rfl
@[simp] theorem complete_wlLen (b : Block) : (complete b).wlLen = b.wlLen := rfl
@[simp] theorem complete_root (b : Block) : (complete b).root = b.root := rfl
@[simp] theorem complete_rootV (b : Block) : (complete b).rootV = b.rootV := rfl
@[simp] theorem complete_codeLen (b : Block) : (complete b).codeLen = b.codeLen := rfl
@[simp] theorem complete_codeBits (b : Block) : (complete b).codeBits = b.codeBits := rfl
@[simp] theorem complete_hdrIdx (b : Block) : (complete b).hdrIdx = b.hdrIdx := rfl
@[simp] theorem complete_bwBuf (b : Block) : (complete b).bwBuf = b.bwBuf := rfl
@[simp] theorem complete_bwCnt (b : Block) : (complete b).bwCnt = b.bwCnt := rfl
@[simp] theorem complete_brBuf (b : Block) : (complete b).brBuf = b.brBuf := rfl
@[simp] theorem complete_brCnt (b : Block) : (complete b).brCnt = b.brCnt := rfl
@[simp] theorem complete_sym (b : Block) : (complete b).sym = b.sym := rfl
@[simp] theorem complete_bitIdx (b : Block) : (complete b).bitIdx = b.bitIdx := rfl
@[simp] theorem complete_emitCnt (b : Block) : (complete b).emitCnt = b.emitCnt := rfl
@[simp] theorem complete_decCnt (b : Block) : (complete b).decCnt = b.decCnt := rfl
@[simp] theorem complete_cur (b : Block) : (complete b).cur = b.cur := rfl

/-! ackReturn -/

@[simp] theorem ackReturn_busy (b : Block) : (ackReturn b).busy = b.busy := rfl
@[simp] theorem ackReturn_done (b : Block) : (ackReturn b).done = false := rfl
@[simp] theorem ackReturn_err (b : Block) : (ackReturn b).err = false := rfl
@[simp] theorem ackReturn_rej (b : Block) : (ackReturn b).rej = false := rfl
@[simp] theorem ackReturn_errCode (b : Block) : (ackReturn b).errCode = .none := rfl
@[simp] theorem ackReturn_errStage (b : Block) : (ackReturn b).errStage = .none := rfl
@[simp] theorem ackReturn_inSize (b : Block) : (ackReturn b).inSize = b.inSize := rfl
@[simp] theorem ackReturn_outSize (b : Block) : (ackReturn b).outSize = b.outSize := rfl
@[simp] theorem ackReturn_total (b : Block) : (ackReturn b).total = b.total := rfl
@[simp] theorem ackReturn_distinct (b : Block) : (ackReturn b).distinct = b.distinct := rfl
@[simp] theorem ackReturn_state (b : Block) : (ackReturn b).state = b.state := rfl
@[simp] theorem ackReturn_mode (b : Block) : (ackReturn b).mode = b.mode := rfl
@[simp] theorem ackReturn_hist (b : Block) : (ackReturn b).hist = b.hist := rfl
@[simp] theorem ackReturn_node (b : Block) : (ackReturn b).node = b.node := rfl
@[simp] theorem ackReturn_ncnt (b : Block) : (ackReturn b).ncnt = b.ncnt := rfl
@[simp] theorem ackReturn_wl (b : Block) : (ackReturn b).wl = b.wl := rfl
@[simp] theorem ackReturn_wlLen (b : Block) : (ackReturn b).wlLen = b.wlLen := rfl
@[simp] theorem ackReturn_root (b : Block) : (ackReturn b).root = b.root := rfl
@[simp] theorem ackReturn_rootV (b : Block) : (ackReturn b).rootV = b.rootV := rfl
@[simp] theorem ackReturn_codeLen (b : Block) : (ackReturn b).codeLen = b.codeLen := rfl
@[simp] theorem ackReturn_codeBits (b : Block) : (ackReturn b).codeBits = b.codeBits := rfl
@[simp] theorem ackReturn_hdrIdx (b : Block) : (ackReturn b).hdrIdx = b.hdrIdx := rfl
@[simp] theorem ackReturn_bwBuf (b : Block) : (ackReturn b).bwBuf = b.bwBuf := rfl
@[simp] theorem ackReturn_bwCnt (b : Block) : (ackReturn b).bwCnt = b.bwCnt := rfl
@[simp] theorem ackReturn_brBuf (b : Block) : (ackReturn b).brBuf = b.brBuf := rfl
@[simp] theorem ackReturn_brCnt (b : Block) : (ackReturn b).brCnt = b.brCnt := rfl
@[simp] theorem ackReturn_sym (b : Block) : (ackReturn b).sym = b.sym := rfl
@[simp] theorem ackReturn_bitIdx (b : Block) : (ackReturn b).bitIdx = b.bitIdx := rfl
@[simp] theorem ackReturn_emitCnt (b : Block) : (ackReturn b).emitCnt = b.emitCnt := rfl
@[simp] theorem ackReturn_decCnt (b : Block) : (ackReturn b).decCnt = b.decCnt := rfl
@[simp] theorem ackReturn_cur (b : Block) : (ackReturn b).cur = b.cur := rfl

/-! busyWrite -/

@[simp] theorem busyWrite_busy (b : Block) : (busyWrite b).busy = b.busy := rfl
@[simp] theorem busyWrite_done (b : Block) : (busyWrite b).done = b.done := rfl
@[simp] theorem busyWrite_err (b : Block) : (busyWrite b).err = b.err := rfl
@[simp] theorem busyWrite_rej (b : Block) : (busyWrite b).rej = true := rfl
@[simp] theorem busyWrite_errCode (b : Block) : (busyWrite b).errCode = b.errCode := rfl
@[simp] theorem busyWrite_errStage (b : Block) : (busyWrite b).errStage = b.errStage := rfl
@[simp] theorem busyWrite_inSize (b : Block) : (busyWrite b).inSize = b.inSize := rfl
@[simp] theorem busyWrite_outSize (b : Block) : (busyWrite b).outSize = b.outSize := rfl
@[simp] theorem busyWrite_total (b : Block) : (busyWrite b).total = b.total := rfl
@[simp] theorem busyWrite_distinct (b : Block) : (busyWrite b).distinct = b.distinct := rfl
@[simp] theorem busyWrite_state (b : Block) : (busyWrite b).state = b.state := rfl
@[simp] theorem busyWrite_mode (b : Block) : (busyWrite b).mode = b.mode := rfl
@[simp] theorem busyWrite_hist (b : Block) : (busyWrite b).hist = b.hist := rfl
@[simp] theorem busyWrite_node (b : Block) : (busyWrite b).node = b.node := rfl
@[simp] theorem busyWrite_ncnt (b : Block) : (busyWrite b).ncnt = b.ncnt := rfl
@[simp] theorem busyWrite_wl (b : Block) : (busyWrite b).wl = b.wl := rfl
@[simp] theorem busyWrite_wlLen (b : Block) : (busyWrite b).wlLen = b.wlLen := rfl
@[simp] theorem busyWrite_root (b : Block) : (busyWrite b).root = b.root := rfl
@[simp] theorem busyWrite_rootV (b : Block) : (busyWrite b).rootV = b.rootV := rfl
@[simp] theorem busyWrite_codeLen (b : Block) : (busyWrite b).codeLen = b.codeLen := rfl
@[simp] theorem busyWrite_codeBits (b : Block) : (busyWrite b).codeBits = b.codeBits := rfl
@[simp] theorem busyWrite_hdrIdx (b : Block) : (busyWrite b).hdrIdx = b.hdrIdx := rfl
@[simp] theorem busyWrite_bwBuf (b : Block) : (busyWrite b).bwBuf = b.bwBuf := rfl
@[simp] theorem busyWrite_bwCnt (b : Block) : (busyWrite b).bwCnt = b.bwCnt := rfl
@[simp] theorem busyWrite_brBuf (b : Block) : (busyWrite b).brBuf = b.brBuf := rfl
@[simp] theorem busyWrite_brCnt (b : Block) : (busyWrite b).brCnt = b.brCnt := rfl
@[simp] theorem busyWrite_sym (b : Block) : (busyWrite b).sym = b.sym := rfl
@[simp] theorem busyWrite_bitIdx (b : Block) : (busyWrite b).bitIdx = b.bitIdx := rfl
@[simp] theorem busyWrite_emitCnt (b : Block) : (busyWrite b).emitCnt = b.emitCnt := rfl
@[simp] theorem busyWrite_decCnt (b : Block) : (busyWrite b).decCnt = b.decCnt := rfl
@[simp] theorem busyWrite_cur (b : Block) : (busyWrite b).cur = b.cur := rfl

/-! illegalCommand -/

@[simp] theorem illegalCommand_busy (b : Block) : (illegalCommand b).busy = b.busy := rfl
@[simp] theorem illegalCommand_done (b : Block) : (illegalCommand b).done = false := rfl
@[simp] theorem illegalCommand_err (b : Block) : (illegalCommand b).err = true := rfl
@[simp] theorem illegalCommand_rej (b : Block) : (illegalCommand b).rej = b.rej := rfl
@[simp] theorem illegalCommand_errCode (b : Block) : (illegalCommand b).errCode = .illegalCommand := rfl
@[simp] theorem illegalCommand_errStage (b : Block) : (illegalCommand b).errStage = .command := rfl
@[simp] theorem illegalCommand_inSize (b : Block) : (illegalCommand b).inSize = b.inSize := rfl
@[simp] theorem illegalCommand_outSize (b : Block) : (illegalCommand b).outSize = b.outSize := rfl
@[simp] theorem illegalCommand_total (b : Block) : (illegalCommand b).total = b.total := rfl
@[simp] theorem illegalCommand_distinct (b : Block) : (illegalCommand b).distinct = b.distinct := rfl
@[simp] theorem illegalCommand_state (b : Block) : (illegalCommand b).state = b.state := rfl
@[simp] theorem illegalCommand_mode (b : Block) : (illegalCommand b).mode = b.mode := rfl
@[simp] theorem illegalCommand_hist (b : Block) : (illegalCommand b).hist = b.hist := rfl
@[simp] theorem illegalCommand_node (b : Block) : (illegalCommand b).node = b.node := rfl
@[simp] theorem illegalCommand_ncnt (b : Block) : (illegalCommand b).ncnt = b.ncnt := rfl
@[simp] theorem illegalCommand_wl (b : Block) : (illegalCommand b).wl = b.wl := rfl
@[simp] theorem illegalCommand_wlLen (b : Block) : (illegalCommand b).wlLen = b.wlLen := rfl
@[simp] theorem illegalCommand_root (b : Block) : (illegalCommand b).root = b.root := rfl
@[simp] theorem illegalCommand_rootV (b : Block) : (illegalCommand b).rootV = b.rootV := rfl
@[simp] theorem illegalCommand_codeLen (b : Block) : (illegalCommand b).codeLen = b.codeLen := rfl
@[simp] theorem illegalCommand_codeBits (b : Block) : (illegalCommand b).codeBits = b.codeBits := rfl
@[simp] theorem illegalCommand_hdrIdx (b : Block) : (illegalCommand b).hdrIdx = b.hdrIdx := rfl
@[simp] theorem illegalCommand_bwBuf (b : Block) : (illegalCommand b).bwBuf = b.bwBuf := rfl
@[simp] theorem illegalCommand_bwCnt (b : Block) : (illegalCommand b).bwCnt = b.bwCnt := rfl
@[simp] theorem illegalCommand_brBuf (b : Block) : (illegalCommand b).brBuf = b.brBuf := rfl
@[simp] theorem illegalCommand_brCnt (b : Block) : (illegalCommand b).brCnt = b.brCnt := rfl
@[simp] theorem illegalCommand_sym (b : Block) : (illegalCommand b).sym = b.sym := rfl
@[simp] theorem illegalCommand_bitIdx (b : Block) : (illegalCommand b).bitIdx = b.bitIdx := rfl
@[simp] theorem illegalCommand_emitCnt (b : Block) : (illegalCommand b).emitCnt = b.emitCnt := rfl
@[simp] theorem illegalCommand_decCnt (b : Block) : (illegalCommand b).decCnt = b.decCnt := rfl
@[simp] theorem illegalCommand_cur (b : Block) : (illegalCommand b).cur = b.cur := rfl

/-! countIn -/

@[simp] theorem countIn_busy (b : Block) : (countIn b).busy = b.busy := rfl
@[simp] theorem countIn_done (b : Block) : (countIn b).done = b.done := rfl
@[simp] theorem countIn_err (b : Block) : (countIn b).err = b.err := rfl
@[simp] theorem countIn_rej (b : Block) : (countIn b).rej = b.rej := rfl
@[simp] theorem countIn_errCode (b : Block) : (countIn b).errCode = b.errCode := rfl
@[simp] theorem countIn_errStage (b : Block) : (countIn b).errStage = b.errStage := rfl
@[simp] theorem countIn_inSize (b : Block) : (countIn b).inSize = b.inSize + 1 := rfl
@[simp] theorem countIn_outSize (b : Block) : (countIn b).outSize = b.outSize := rfl
@[simp] theorem countIn_total (b : Block) : (countIn b).total = b.total := rfl
@[simp] theorem countIn_distinct (b : Block) : (countIn b).distinct = b.distinct := rfl
@[simp] theorem countIn_state (b : Block) : (countIn b).state = b.state := rfl
@[simp] theorem countIn_mode (b : Block) : (countIn b).mode = b.mode := rfl
@[simp] theorem countIn_hist (b : Block) : (countIn b).hist = b.hist := rfl
@[simp] theorem countIn_node (b : Block) : (countIn b).node = b.node := rfl
@[simp] theorem countIn_ncnt (b : Block) : (countIn b).ncnt = b.ncnt := rfl
@[simp] theorem countIn_wl (b : Block) : (countIn b).wl = b.wl := rfl
@[simp] theorem countIn_wlLen (b : Block) : (countIn b).wlLen = b.wlLen := rfl
@[simp] theorem countIn_root (b : Block) : (countIn b).root = b.root := rfl
@[simp] theorem countIn_rootV (b : Block) : (countIn b).rootV = b.rootV := rfl
@[simp] theorem countIn_codeLen (b : Block) : (countIn b).codeLen = b.codeLen := rfl
@[simp] theorem countIn_codeBits (b : Block) : (countIn b).codeBits = b.codeBits := rfl
@[simp] theorem countIn_hdrIdx (b : Block) : (countIn b).hdrIdx = b.hdrIdx := rfl
@[simp] theorem countIn_bwBuf (b : Block) : (countIn b).bwBuf = b.bwBuf := rfl
@[simp] theorem countIn_bwCnt (b : Block) : (countIn b).bwCnt = b.bwCnt := rfl
@[simp] theorem countIn_brBuf (b : Block) : (countIn b).brBuf = b.brBuf := rfl
@[simp] theorem countIn_brCnt (b : Block) : (countIn b).brCnt = b.brCnt := rfl
@[simp] theorem countIn_sym (b : Block) : (countIn b).sym = b.sym := rfl
@[simp] theorem countIn_bitIdx (b : Block) : (countIn b).bitIdx = b.bitIdx := rfl
@[simp] theorem countIn_emitCnt (b : Block) : (countIn b).emitCnt = b.emitCnt := rfl
@[simp] theorem countIn_decCnt (b : Block) : (countIn b).decCnt = b.decCnt := rfl
@[simp] theorem countIn_cur (b : Block) : (countIn b).cur = b.cur := rfl

/-! countOut -/

@[simp] theorem countOut_busy (b : Block) : (countOut b).busy = b.busy := rfl
@[simp] theorem countOut_done (b : Block) : (countOut b).done = b.done := rfl
@[simp] theorem countOut_err (b : Block) : (countOut b).err = b.err := rfl
@[simp] theorem countOut_rej (b : Block) : (countOut b).rej = b.rej := rfl
@[simp] theorem countOut_errCode (b : Block) : (countOut b).errCode = b.errCode := rfl
@[simp] theorem countOut_errStage (b : Block) : (countOut b).errStage = b.errStage := rfl
@[simp] theorem countOut_inSize (b : Block) : (countOut b).inSize = b.inSize := rfl
@[simp] theorem countOut_outSize (b : Block) : (countOut b).outSize = b.outSize + 1 := rfl
@[simp] theorem countOut_total (b : Block) : (countOut b).total = b.total := rfl
@[simp] theorem countOut_distinct (b : Block) : (countOut b).distinct = b.distinct := rfl
@[simp] theorem countOut_state (b : Block) : (countOut b).state = b.state := rfl
@[simp] theorem countOut_mode (b : Block) : (countOut b).mode = b.mode := rfl
@[simp] theorem countOut_hist (b : Block) : (countOut b).hist = b.hist := rfl
@[simp] theorem countOut_node (b : Block) : (countOut b).node = b.node := rfl
@[simp] theorem countOut_ncnt (b : Block) : (countOut b).ncnt = b.ncnt := rfl
@[simp] theorem countOut_wl (b : Block) : (countOut b).wl = b.wl := rfl
@[simp] theorem countOut_wlLen (b : Block) : (countOut b).wlLen = b.wlLen := rfl
@[simp] theorem countOut_root (b : Block) : (countOut b).root = b.root := rfl
@[simp] theorem countOut_rootV (b : Block) : (countOut b).rootV = b.rootV := rfl
@[simp] theorem countOut_codeLen (b : Block) : (countOut b).codeLen = b.codeLen := rfl
@[simp] theorem countOut_codeBits (b : Block) : (countOut b).codeBits = b.codeBits := rfl
@[simp] theorem countOut_hdrIdx (b : Block) : (countOut b).hdrIdx = b.hdrIdx := rfl
@[simp] theorem countOut_bwBuf (b : Block) : (countOut b).bwBuf = b.bwBuf := rfl
@[simp] theorem countOut_bwCnt (b : Block) : (countOut b).bwCnt = b.bwCnt := rfl
@[simp] theorem countOut_brBuf (b : Block) : (countOut b).brBuf = b.brBuf := rfl
@[simp] theorem countOut_brCnt (b : Block) : (countOut b).brCnt = b.brCnt := rfl
@[simp] theorem countOut_sym (b : Block) : (countOut b).sym = b.sym := rfl
@[simp] theorem countOut_bitIdx (b : Block) : (countOut b).bitIdx = b.bitIdx := rfl
@[simp] theorem countOut_emitCnt (b : Block) : (countOut b).emitCnt = b.emitCnt := rfl
@[simp] theorem countOut_decCnt (b : Block) : (countOut b).decCnt = b.decCnt := rfl
@[simp] theorem countOut_cur (b : Block) : (countOut b).cur = b.cur := rfl

/-! bwClear -/

@[simp] theorem bwClear_busy (b : Block) : (bwClear b).busy = b.busy := rfl
@[simp] theorem bwClear_done (b : Block) : (bwClear b).done = b.done := rfl
@[simp] theorem bwClear_err (b : Block) : (bwClear b).err = b.err := rfl
@[simp] theorem bwClear_rej (b : Block) : (bwClear b).rej = b.rej := rfl
@[simp] theorem bwClear_errCode (b : Block) : (bwClear b).errCode = b.errCode := rfl
@[simp] theorem bwClear_errStage (b : Block) : (bwClear b).errStage = b.errStage := rfl
@[simp] theorem bwClear_inSize (b : Block) : (bwClear b).inSize = b.inSize := rfl
@[simp] theorem bwClear_outSize (b : Block) : (bwClear b).outSize = b.outSize := rfl
@[simp] theorem bwClear_total (b : Block) : (bwClear b).total = b.total := rfl
@[simp] theorem bwClear_distinct (b : Block) : (bwClear b).distinct = b.distinct := rfl
@[simp] theorem bwClear_state (b : Block) : (bwClear b).state = b.state := rfl
@[simp] theorem bwClear_mode (b : Block) : (bwClear b).mode = b.mode := rfl
@[simp] theorem bwClear_hist (b : Block) : (bwClear b).hist = b.hist := rfl
@[simp] theorem bwClear_node (b : Block) : (bwClear b).node = b.node := rfl
@[simp] theorem bwClear_ncnt (b : Block) : (bwClear b).ncnt = b.ncnt := rfl
@[simp] theorem bwClear_wl (b : Block) : (bwClear b).wl = b.wl := rfl
@[simp] theorem bwClear_wlLen (b : Block) : (bwClear b).wlLen = b.wlLen := rfl
@[simp] theorem bwClear_root (b : Block) : (bwClear b).root = b.root := rfl
@[simp] theorem bwClear_rootV (b : Block) : (bwClear b).rootV = b.rootV := rfl
@[simp] theorem bwClear_codeLen (b : Block) : (bwClear b).codeLen = b.codeLen := rfl
@[simp] theorem bwClear_codeBits (b : Block) : (bwClear b).codeBits = b.codeBits := rfl
@[simp] theorem bwClear_hdrIdx (b : Block) : (bwClear b).hdrIdx = b.hdrIdx := rfl
@[simp] theorem bwClear_bwBuf (b : Block) : (bwClear b).bwBuf = 0 := rfl
@[simp] theorem bwClear_bwCnt (b : Block) : (bwClear b).bwCnt = 0 := rfl
@[simp] theorem bwClear_brBuf (b : Block) : (bwClear b).brBuf = b.brBuf := rfl
@[simp] theorem bwClear_brCnt (b : Block) : (bwClear b).brCnt = b.brCnt := rfl
@[simp] theorem bwClear_sym (b : Block) : (bwClear b).sym = b.sym := rfl
@[simp] theorem bwClear_bitIdx (b : Block) : (bwClear b).bitIdx = b.bitIdx := rfl
@[simp] theorem bwClear_emitCnt (b : Block) : (bwClear b).emitCnt = b.emitCnt := rfl
@[simp] theorem bwClear_decCnt (b : Block) : (bwClear b).decCnt = b.decCnt := rfl
@[simp] theorem bwClear_cur (b : Block) : (bwClear b).cur = b.cur := rfl

/-! brLoad -/

@[simp] theorem brLoad_busy (x : Byte) (b : Block) : (brLoad x b).busy = b.busy := rfl
@[simp] theorem brLoad_done (x : Byte) (b : Block) : (brLoad x b).done = b.done := rfl
@[simp] theorem brLoad_err (x : Byte) (b : Block) : (brLoad x b).err = b.err := rfl
@[simp] theorem brLoad_rej (x : Byte) (b : Block) : (brLoad x b).rej = b.rej := rfl
@[simp] theorem brLoad_errCode (x : Byte) (b : Block) : (brLoad x b).errCode = b.errCode := rfl
@[simp] theorem brLoad_errStage (x : Byte) (b : Block) : (brLoad x b).errStage = b.errStage := rfl
@[simp] theorem brLoad_inSize (x : Byte) (b : Block) : (brLoad x b).inSize = b.inSize := rfl
@[simp] theorem brLoad_outSize (x : Byte) (b : Block) : (brLoad x b).outSize = b.outSize := rfl
@[simp] theorem brLoad_total (x : Byte) (b : Block) : (brLoad x b).total = b.total := rfl
@[simp] theorem brLoad_distinct (x : Byte) (b : Block) : (brLoad x b).distinct = b.distinct := rfl
@[simp] theorem brLoad_state (x : Byte) (b : Block) : (brLoad x b).state = b.state := rfl
@[simp] theorem brLoad_mode (x : Byte) (b : Block) : (brLoad x b).mode = b.mode := rfl
@[simp] theorem brLoad_hist (x : Byte) (b : Block) : (brLoad x b).hist = b.hist := rfl
@[simp] theorem brLoad_node (x : Byte) (b : Block) : (brLoad x b).node = b.node := rfl
@[simp] theorem brLoad_ncnt (x : Byte) (b : Block) : (brLoad x b).ncnt = b.ncnt := rfl
@[simp] theorem brLoad_wl (x : Byte) (b : Block) : (brLoad x b).wl = b.wl := rfl
@[simp] theorem brLoad_wlLen (x : Byte) (b : Block) : (brLoad x b).wlLen = b.wlLen := rfl
@[simp] theorem brLoad_root (x : Byte) (b : Block) : (brLoad x b).root = b.root := rfl
@[simp] theorem brLoad_rootV (x : Byte) (b : Block) : (brLoad x b).rootV = b.rootV := rfl
@[simp] theorem brLoad_codeLen (x : Byte) (b : Block) : (brLoad x b).codeLen = b.codeLen := rfl
@[simp] theorem brLoad_codeBits (x : Byte) (b : Block) : (brLoad x b).codeBits = b.codeBits := rfl
@[simp] theorem brLoad_hdrIdx (x : Byte) (b : Block) : (brLoad x b).hdrIdx = b.hdrIdx := rfl
@[simp] theorem brLoad_bwBuf (x : Byte) (b : Block) : (brLoad x b).bwBuf = b.bwBuf := rfl
@[simp] theorem brLoad_bwCnt (x : Byte) (b : Block) : (brLoad x b).bwCnt = b.bwCnt := rfl
@[simp] theorem brLoad_brBuf (x : Byte) (b : Block) : (brLoad x b).brBuf = x := rfl
@[simp] theorem brLoad_brCnt (x : Byte) (b : Block) : (brLoad x b).brCnt = 8 := rfl
@[simp] theorem brLoad_sym (x : Byte) (b : Block) : (brLoad x b).sym = b.sym := rfl
@[simp] theorem brLoad_bitIdx (x : Byte) (b : Block) : (brLoad x b).bitIdx = b.bitIdx := rfl
@[simp] theorem brLoad_emitCnt (x : Byte) (b : Block) : (brLoad x b).emitCnt = b.emitCnt := rfl
@[simp] theorem brLoad_decCnt (x : Byte) (b : Block) : (brLoad x b).decCnt = b.decCnt := rfl
@[simp] theorem brLoad_cur (x : Byte) (b : Block) : (brLoad x b).cur = b.cur := rfl

/-! setHist -/

@[simp] theorem setHist_busy (x : Byte) (v : Word) (b : Block) : (setHist x v b).busy = b.busy := rfl
@[simp] theorem setHist_done (x : Byte) (v : Word) (b : Block) : (setHist x v b).done = b.done := rfl
@[simp] theorem setHist_err (x : Byte) (v : Word) (b : Block) : (setHist x v b).err = b.err := rfl
@[simp] theorem setHist_rej (x : Byte) (v : Word) (b : Block) : (setHist x v b).rej = b.rej := rfl
@[simp] theorem setHist_errCode (x : Byte) (v : Word) (b : Block) : (setHist x v b).errCode = b.errCode := rfl
@[simp] theorem setHist_errStage (x : Byte) (v : Word) (b : Block) : (setHist x v b).errStage = b.errStage := rfl
@[simp] theorem setHist_inSize (x : Byte) (v : Word) (b : Block) : (setHist x v b).inSize = b.inSize := rfl
@[simp] theorem setHist_outSize (x : Byte) (v : Word) (b : Block) : (setHist x v b).outSize = b.outSize := rfl
@[simp] theorem setHist_total (x : Byte) (v : Word) (b : Block) : (setHist x v b).total = b.total := rfl
@[simp] theorem setHist_distinct (x : Byte) (v : Word) (b : Block) : (setHist x v b).distinct = b.distinct := rfl
@[simp] theorem setHist_state (x : Byte) (v : Word) (b : Block) : (setHist x v b).state = b.state := rfl
@[simp] theorem setHist_mode (x : Byte) (v : Word) (b : Block) : (setHist x v b).mode = b.mode := rfl
@[simp] theorem setHist_hist (x : Byte) (v : Word) (b : Block) : (setHist x v b).hist = b.hist.set x.toNat v x.isLt := rfl
@[simp] theorem setHist_node (x : Byte) (v : Word) (b : Block) : (setHist x v b).node = b.node := rfl
@[simp] theorem setHist_ncnt (x : Byte) (v : Word) (b : Block) : (setHist x v b).ncnt = b.ncnt := rfl
@[simp] theorem setHist_wl (x : Byte) (v : Word) (b : Block) : (setHist x v b).wl = b.wl := rfl
@[simp] theorem setHist_wlLen (x : Byte) (v : Word) (b : Block) : (setHist x v b).wlLen = b.wlLen := rfl
@[simp] theorem setHist_root (x : Byte) (v : Word) (b : Block) : (setHist x v b).root = b.root := rfl
@[simp] theorem setHist_rootV (x : Byte) (v : Word) (b : Block) : (setHist x v b).rootV = b.rootV := rfl
@[simp] theorem setHist_codeLen (x : Byte) (v : Word) (b : Block) : (setHist x v b).codeLen = b.codeLen := rfl
@[simp] theorem setHist_codeBits (x : Byte) (v : Word) (b : Block) : (setHist x v b).codeBits = b.codeBits := rfl
@[simp] theorem setHist_hdrIdx (x : Byte) (v : Word) (b : Block) : (setHist x v b).hdrIdx = b.hdrIdx := rfl
@[simp] theorem setHist_bwBuf (x : Byte) (v : Word) (b : Block) : (setHist x v b).bwBuf = b.bwBuf := rfl
@[simp] theorem setHist_bwCnt (x : Byte) (v : Word) (b : Block) : (setHist x v b).bwCnt = b.bwCnt := rfl
@[simp] theorem setHist_brBuf (x : Byte) (v : Word) (b : Block) : (setHist x v b).brBuf = b.brBuf := rfl
@[simp] theorem setHist_brCnt (x : Byte) (v : Word) (b : Block) : (setHist x v b).brCnt = b.brCnt := rfl
@[simp] theorem setHist_sym (x : Byte) (v : Word) (b : Block) : (setHist x v b).sym = b.sym := rfl
@[simp] theorem setHist_bitIdx (x : Byte) (v : Word) (b : Block) : (setHist x v b).bitIdx = b.bitIdx := rfl
@[simp] theorem setHist_emitCnt (x : Byte) (v : Word) (b : Block) : (setHist x v b).emitCnt = b.emitCnt := rfl
@[simp] theorem setHist_decCnt (x : Byte) (v : Word) (b : Block) : (setHist x v b).decCnt = b.decCnt := rfl
@[simp] theorem setHist_cur (x : Byte) (v : Word) (b : Block) : (setHist x v b).cur = b.cur := rfl

/-! setCode -/

@[simp] theorem setCode_busy (x : Byte) (p : List Bool) (b : Block) : (setCode x p b).busy = b.busy := rfl
@[simp] theorem setCode_done (x : Byte) (p : List Bool) (b : Block) : (setCode x p b).done = b.done := rfl
@[simp] theorem setCode_err (x : Byte) (p : List Bool) (b : Block) : (setCode x p b).err = b.err := rfl
@[simp] theorem setCode_rej (x : Byte) (p : List Bool) (b : Block) : (setCode x p b).rej = b.rej := rfl
@[simp] theorem setCode_errCode (x : Byte) (p : List Bool) (b : Block) : (setCode x p b).errCode = b.errCode := rfl
@[simp] theorem setCode_errStage (x : Byte) (p : List Bool) (b : Block) : (setCode x p b).errStage = b.errStage := rfl
@[simp] theorem setCode_inSize (x : Byte) (p : List Bool) (b : Block) : (setCode x p b).inSize = b.inSize := rfl
@[simp] theorem setCode_outSize (x : Byte) (p : List Bool) (b : Block) : (setCode x p b).outSize = b.outSize := rfl
@[simp] theorem setCode_total (x : Byte) (p : List Bool) (b : Block) : (setCode x p b).total = b.total := rfl
@[simp] theorem setCode_distinct (x : Byte) (p : List Bool) (b : Block) : (setCode x p b).distinct = b.distinct := rfl
@[simp] theorem setCode_state (x : Byte) (p : List Bool) (b : Block) : (setCode x p b).state = b.state := rfl
@[simp] theorem setCode_mode (x : Byte) (p : List Bool) (b : Block) : (setCode x p b).mode = b.mode := rfl
@[simp] theorem setCode_hist (x : Byte) (p : List Bool) (b : Block) : (setCode x p b).hist = b.hist := rfl
@[simp] theorem setCode_node (x : Byte) (p : List Bool) (b : Block) : (setCode x p b).node = b.node := rfl
@[simp] theorem setCode_ncnt (x : Byte) (p : List Bool) (b : Block) : (setCode x p b).ncnt = b.ncnt := rfl
@[simp] theorem setCode_wl (x : Byte) (p : List Bool) (b : Block) : (setCode x p b).wl = b.wl := rfl
@[simp] theorem setCode_wlLen (x : Byte) (p : List Bool) (b : Block) : (setCode x p b).wlLen = b.wlLen := rfl
@[simp] theorem setCode_root (x : Byte) (p : List Bool) (b : Block) : (setCode x p b).root = b.root := rfl
@[simp] theorem setCode_rootV (x : Byte) (p : List Bool) (b : Block) : (setCode x p b).rootV = b.rootV := rfl
@[simp] theorem setCode_codeLen (x : Byte) (p : List Bool) (b : Block) : (setCode x p b).codeLen = b.codeLen.set x.toNat (BitVec.ofNat 9 p.length) x.isLt := rfl
@[simp] theorem setCode_codeBits (x : Byte) (p : List Bool) (b : Block) : (setCode x p b).codeBits = b.codeBits.set x.toNat (packPath p) x.isLt := rfl
@[simp] theorem setCode_hdrIdx (x : Byte) (p : List Bool) (b : Block) : (setCode x p b).hdrIdx = b.hdrIdx := rfl
@[simp] theorem setCode_bwBuf (x : Byte) (p : List Bool) (b : Block) : (setCode x p b).bwBuf = b.bwBuf := rfl
@[simp] theorem setCode_bwCnt (x : Byte) (p : List Bool) (b : Block) : (setCode x p b).bwCnt = b.bwCnt := rfl
@[simp] theorem setCode_brBuf (x : Byte) (p : List Bool) (b : Block) : (setCode x p b).brBuf = b.brBuf := rfl
@[simp] theorem setCode_brCnt (x : Byte) (p : List Bool) (b : Block) : (setCode x p b).brCnt = b.brCnt := rfl
@[simp] theorem setCode_sym (x : Byte) (p : List Bool) (b : Block) : (setCode x p b).sym = b.sym := rfl
@[simp] theorem setCode_bitIdx (x : Byte) (p : List Bool) (b : Block) : (setCode x p b).bitIdx = b.bitIdx := rfl
@[simp] theorem setCode_emitCnt (x : Byte) (p : List Bool) (b : Block) : (setCode x p b).emitCnt = b.emitCnt := rfl
@[simp] theorem setCode_decCnt (x : Byte) (p : List Bool) (b : Block) : (setCode x p b).decCnt = b.decCnt := rfl
@[simp] theorem setCode_cur (x : Byte) (p : List Bool) (b : Block) : (setCode x p b).cur = b.cur := rfl

/-! putWorklist -/

@[simp] theorem putWorklist_busy (l : List Handle) (b : Block) : (putWorklist l b).busy = b.busy := rfl
@[simp] theorem putWorklist_done (l : List Handle) (b : Block) : (putWorklist l b).done = b.done := rfl
@[simp] theorem putWorklist_err (l : List Handle) (b : Block) : (putWorklist l b).err = b.err := rfl
@[simp] theorem putWorklist_rej (l : List Handle) (b : Block) : (putWorklist l b).rej = b.rej := rfl
@[simp] theorem putWorklist_errCode (l : List Handle) (b : Block) : (putWorklist l b).errCode = b.errCode := rfl
@[simp] theorem putWorklist_errStage (l : List Handle) (b : Block) : (putWorklist l b).errStage = b.errStage := rfl
@[simp] theorem putWorklist_inSize (l : List Handle) (b : Block) : (putWorklist l b).inSize = b.inSize := rfl
@[simp] theorem putWorklist_outSize (l : List Handle) (b : Block) : (putWorklist l b).outSize = b.outSize := rfl
@[simp] theorem putWorklist_total (l : List Handle) (b : Block) : (putWorklist l b).total = b.total := rfl
@[simp] theorem putWorklist_distinct (l : List Handle) (b : Block) : (putWorklist l b).distinct = b.distinct := rfl
@[simp] theorem putWorklist_state (l : List Handle) (b : Block) : (putWorklist l b).state = b.state := rfl
@[simp] theorem putWorklist_mode (l : List Handle) (b : Block) : (putWorklist l b).mode = b.mode := rfl
@[simp] theorem putWorklist_hist (l : List Handle) (b : Block) : (putWorklist l b).hist = b.hist := rfl
@[simp] theorem putWorklist_node (l : List Handle) (b : Block) : (putWorklist l b).node = b.node := rfl
@[simp] theorem putWorklist_ncnt (l : List Handle) (b : Block) : (putWorklist l b).ncnt = b.ncnt := rfl
@[simp] theorem putWorklist_wl (l : List Handle) (b : Block) : (putWorklist l b).wl = writeWlFrom 0 l b.wl := rfl
@[simp] theorem putWorklist_wlLen (l : List Handle) (b : Block) : (putWorklist l b).wlLen = BitVec.ofNat 9 l.length := rfl
@[simp] theorem putWorklist_root (l : List Handle) (b : Block) : (putWorklist l b).root = b.root := rfl
@[simp] theorem putWorklist_rootV (l : List Handle) (b : Block) : (putWorklist l b).rootV = b.rootV := rfl
@[simp] theorem putWorklist_codeLen (l : List Handle) (b : Block) : (putWorklist l b).codeLen = b.codeLen := rfl
@[simp] theorem putWorklist_codeBits (l : List Handle) (b : Block) : (putWorklist l b).codeBits = b.codeBits := rfl
@[simp] theorem putWorklist_hdrIdx (l : List Handle) (b : Block) : (putWorklist l b).hdrIdx = b.hdrIdx := rfl
@[simp] theorem putWorklist_bwBuf (l : List Handle) (b : Block) : (putWorklist l b).bwBuf = b.bwBuf := rfl
@[simp] theorem putWorklist_bwCnt (l : List Handle) (b : Block) : (putWorklist l b).bwCnt = b.bwCnt := rfl
@[simp] theorem putWorklist_brBuf (l : List Handle) (b : Block) : (putWorklist l b).brBuf = b.brBuf := rfl
@[simp] theorem putWorklist_brCnt (l : List Handle) (b : Block) : (putWorklist l b).brCnt = b.brCnt := rfl
@[simp] theorem putWorklist_sym (l : List Handle) (b : Block) : (putWorklist l b).sym = b.sym := rfl
@[simp] theorem putWorklist_bitIdx (l : List Handle) (b : Block) : (putWorklist l b).bitIdx = b.bitIdx := rfl
@[simp] theorem putWorklist_emitCnt (l : List Handle) (b : Block) : (putWorklist l b).emitCnt = b.emitCnt := rfl
@[simp] theorem putWorklist_decCnt (l : List Handle) (b : Block) : (putWorklist l b).decCnt = b.decCnt := rfl
@[simp] theorem putWorklist_cur (l : List Handle) (b : Block) : (putWorklist l b).cur = b.cur := rfl

/-! accept -/

@[simp] theorem accept_busy (m : BitVec 2) (c : BitVec 5) (b : Block) : (accept m c b).busy = true := rfl
@[simp] theorem accept_done (m : BitVec 2) (c : BitVec 5) (b : Block) : (accept m c b).done = false := rfl
@[simp] theorem accept_err (m : BitVec 2) (c : BitVec 5) (b : Block) : (accept m c b).err = false := rfl
@[simp] theorem accept_rej (m : BitVec 2) (c : BitVec 5) (b : Block) : (accept m c b).rej = false := rfl
@[simp] theorem accept_errCode (m : BitVec 2) (c : BitVec 5) (b : Block) : (accept m c b).errCode = .none := rfl
@[simp] theorem accept_errStage (m : BitVec 2) (c : BitVec 5) (b : Block) : (accept m c b).errStage = .none := rfl
@[simp] theorem accept_inSize (m : BitVec 2) (c : BitVec 5) (b : Block) : (accept m c b).inSize = 0 := rfl
@[simp] theorem accept_outSize (m : BitVec 2) (c : BitVec 5) (b : Block) : (accept m c b).outSize = 0 := rfl
@[simp] theorem accept_total (m : BitVec 2) (c : BitVec 5) (b : Block) : (accept m c b).total = 0 := rfl
@[simp] theorem accept_distinct (m : BitVec 2) (c : BitVec 5) (b : Block) : (accept m c b).distinct = 0 := rfl
@[simp] theorem accept_state (m : BitVec 2) (c : BitVec 5) (b : Block) : (accept m c b).state = c := rfl
@[simp] theorem accept_mode (m : BitVec 2) (c : BitVec 5) (b : Block) : (accept m c b).mode = m := rfl
@[simp] theorem accept_hist (m : BitVec 2) (c : BitVec 5) (b : Block) : (accept m c b).hist = Vector.replicate 256 0 := rfl
@[simp] theorem accept_node (m : BitVec 2) (c : BitVec 5) (b : Block) : (accept m c b).node = b.node := rfl
@[simp] theorem accept_ncnt (m : BitVec 2) (c : BitVec 5) (b : Block) : (accept m c b).ncnt = 0 := rfl
@[simp] theorem accept_wl (m : BitVec 2) (c : BitVec 5) (b : Block) : (accept m c b).wl = b.wl := rfl
@[simp] theorem accept_wlLen (m : BitVec 2) (c : BitVec 5) (b : Block) : (accept m c b).wlLen = 0 := rfl
@[simp] theorem accept_root (m : BitVec 2) (c : BitVec 5) (b : Block) : (accept m c b).root = 0 := rfl
@[simp] theorem accept_rootV (m : BitVec 2) (c : BitVec 5) (b : Block) : (accept m c b).rootV = false := rfl
@[simp] theorem accept_codeLen (m : BitVec 2) (c : BitVec 5) (b : Block) : (accept m c b).codeLen = Vector.replicate 256 0 := rfl
@[simp] theorem accept_codeBits (m : BitVec 2) (c : BitVec 5) (b : Block) : (accept m c b).codeBits = Vector.replicate 256 0 := rfl
@[simp] theorem accept_hdrIdx (m : BitVec 2) (c : BitVec 5) (b : Block) : (accept m c b).hdrIdx = 0 := rfl
@[simp] theorem accept_bwBuf (m : BitVec 2) (c : BitVec 5) (b : Block) : (accept m c b).bwBuf = 0 := rfl
@[simp] theorem accept_bwCnt (m : BitVec 2) (c : BitVec 5) (b : Block) : (accept m c b).bwCnt = 0 := rfl
@[simp] theorem accept_brBuf (m : BitVec 2) (c : BitVec 5) (b : Block) : (accept m c b).brBuf = 0 := rfl
@[simp] theorem accept_brCnt (m : BitVec 2) (c : BitVec 5) (b : Block) : (accept m c b).brCnt = 0 := rfl
@[simp] theorem accept_sym (m : BitVec 2) (c : BitVec 5) (b : Block) : (accept m c b).sym = 0 := rfl
@[simp] theorem accept_bitIdx (m : BitVec 2) (c : BitVec 5) (b : Block) : (accept m c b).bitIdx = 0 := rfl
@[simp] theorem accept_emitCnt (m : BitVec 2) (c : BitVec 5) (b : Block) : (accept m c b).emitCnt = 0 := rfl
@[simp] theorem accept_decCnt (m : BitVec 2) (c : BitVec 5) (b : Block) : (accept m c b).decCnt = 0 := rfl
@[simp] theorem accept_cur (m : BitVec 2) (c : BitVec 5) (b : Block) : (accept m c b).cur = 0 := rfl

/-! withSchedule -/

@[simp] theorem withSchedule_blk (a : List HostEvent) (e : Bool) (s : State) : (withSchedule a e s).blk = s.blk := rfl
@[simp] theorem withSchedule_cfg (a : List HostEvent) (e : Bool) (s : State) : (withSchedule a e s).cfg = s.cfg := rfl
@[simp] theorem withSchedule_inData (a : List HostEvent) (e : Bool) (s : State) :
    (withSchedule a e s).host.inData = s.host.inData := rfl
@[simp] theorem withSchedule_icur (a : List HostEvent) (e : Bool) (s : State) :
    (withSchedule a e s).host.icur = s.host.icur := rfl
@[simp] theorem withSchedule_outData (a : List HostEvent) (e : Bool) (s : State) :
    (withSchedule a e s).host.outData = s.host.outData := rfl
@[simp] theorem withSchedule_inBound (a : List HostEvent) (e : Bool) (s : State) :
    (withSchedule a e s).host.inBound = s.host.inBound := rfl
@[simp] theorem withSchedule_outBound (a : List HostEvent) (e : Bool) (s : State) :
    (withSchedule a e s).host.outBound = s.host.outBound := rfl
@[simp] theorem withSchedule_draws (a : List HostEvent) (e : Bool) (s : State) :
    (withSchedule a e s).host.draws = s.host.draws := rfl
@[simp] theorem withSchedule_obs (a : List HostEvent) (e : Bool) (s : State) :
    (withSchedule a e s).host.obs = s.host.obs := rfl
@[simp] theorem withSchedule_agenda (a : List HostEvent) (e : Bool) (s : State) :
    (withSchedule a e s).host.agenda = a := rfl
@[simp] theorem withSchedule_ansErr (a : List HostEvent) (e : Bool) (s : State) :
    (withSchedule a e s).host.ansErr = e := rfl

end Sys2Proof.Machine
end

