-- ==== Sys2Proof/Laws/Ops.lean ====
section
/-! SUPPORT. What each shared operation can do, said once: the end of a micro-operation, the ports, the histogram, the
worklist, the arena, the code table and the bit registers. -/

namespace Sys2Proof.Machine

/-! Code words and their bytes (R91, R95). -/

/-- The bytes of a code word give it back. -/
theorem codeWordOfBytes_toBytes (c : CodeWord) : codeWordOfBytes c.toBytes = .ok c := by
  cases c with
  | cmd w =>
    simp only [CodeWord.toBytes, codeWordOfBytes, Except.ok.injEq, CodeWord.cmd.injEq]
    apply BitVec.eq_of_toNat_eq
    have := w.isLt
    simp only [BitVec.toNat_ofNat, BitVec.extractLsb'_toNat, Nat.shiftRight_eq_div_pow]
    omega
  | state c => simp [CodeWord.toBytes, codeWordOfBytes]

theorem cmdWord_toNat {ign op : Nat} (h : ign < 2 ^ 28) (o : op < 16) : (cmdWord ign op).toNat = ign * 16 + op := by
  simp only [cmdWord, BitVec.toNat_ofNat]
  omega

/-! The end of a micro-operation (R10, R310). -/

@[simp] theorem finish_ok (s : State) (h : HostSide) (b : Block) :
    finish s h (.ok b) = .next { s with blk := b, host := h } := rfl

@[simp] theorem finish_raise (s : State) (h : HostSide) (c : ErrCode) (g : Stage) :
    finish s h (.error (.raise c g)) = .next { s with blk := errorEntry c g s.blk, host := h } := rfl

@[simp] theorem finish_fault (s : State) (h : HostSide) (f : Fault) :
    finish s h (.error (.fault f)) = .fault f := rfl

/-- All that `finish` can answer. -/
theorem finish_next_cases {s t : State} {h : HostSide} {m : Micro} (e : finish s h m = .next t) :
    (∃ b, m = .ok b ∧ t = { s with blk := b, host := h }) ∨
    (∃ c g, m = .error (.raise c g) ∧ t = { s with blk := errorEntry c g s.blk, host := h }) := by
  match m, e with
  | .ok b, e => exact .inl ⟨b, rfl, by simpa using e.symm⟩
  | .error (.raise c g), e => exact .inr ⟨c, g, rfl, by simpa using e.symm⟩

theorem finish_ne_refused (s : State) (h : HostSide) (m : Micro) (r : Refusal) : finish s h m ≠ .refused r := by
  match m with
  | .ok b => simp
  | .error (.raise c g) => simp
  | .error (.fault f) => simp

/-! A launch (R231, R232, R355). -/

theorem onLaunch_refused {m : BitVec 2} {c : BitVec 5} {s : State} (b : s.blk.busy = false) (h : s.host.icur ≠ 0) :
    onLaunch m c s = .refused .launchNotAtStart := by simp [onLaunch, b, h]

theorem onLaunch_atStart {m : BitVec 2} {c : BitVec 5} {s : State} (b : s.blk.busy = false) (h : s.host.icur = 0) :
    onLaunch m c s = .next { s with blk := accept m c s.blk } := by simp [onLaunch, onCommand, b, h]

theorem onLaunch_busy {m : BitVec 2} {c : BitVec 5} {s : State} (b : s.blk.busy = true) :
    onLaunch m c s = .next { s with blk := busyWrite s.blk } := by simp [onLaunch, onCommand, b]

/-- A launch that answers a next state is a command acted on, from the start of the input if it was accepted. -/
theorem onLaunch_next {m : BitVec 2} {c : BitVec 5} {s t : State} (e : onLaunch m c s = .next t) :
    onCommand (accept m c) s = .next t ∧ (s.blk.busy = false → s.host.icur = 0) := by
  unfold onLaunch at e
  split at e
  · cases e
  · rename_i p
    exact ⟨e, fun b => Decidable.byContradiction fun h => p ⟨b, h⟩⟩

/-! Ports (R61 to R63). -/

theorem inRead_err {h : HostSide} (e : h.ansErr = true) :
    inRead h = (.err, { h with
      icur := Config.freeCursor h.draws % (h.inData.length + 1)
      draws := h.draws + 1
      obs := .inRead .err :: h.obs }) := by simp [inRead, e]

theorem inRead_eof {h : HostSide} (e : h.ansErr = false) (p : h.inData.length ≤ h.icur) :
    inRead h = (.eof, { h with obs := .inRead .eof :: h.obs }) := by
  simp [inRead, e, List.getElem?_eq_none p]

theorem inRead_byte {h : HostSide} {x : Byte} (e : h.ansErr = false) (p : h.inData[h.icur]? = some x) :
    inRead h = (.byte x, { h with icur := h.icur + 1, obs := .inRead (.byte x) :: h.obs }) := by
  simp [inRead, e, p]

/-- All that a read can do. -/
theorem inRead_cases (h : HostSide) :
    (h.ansErr = true ∧ inRead h = (.err, { h with
      icur := Config.freeCursor h.draws % (h.inData.length + 1)
      draws := h.draws + 1
      obs := .inRead .err :: h.obs })) ∨
    (h.ansErr = false ∧ h.inData.length ≤ h.icur ∧ inRead h = (.eof, { h with obs := .inRead .eof :: h.obs })) ∨
    (∃ x, h.ansErr = false ∧ h.inData[h.icur]? = some x ∧
      inRead h = (.byte x, { h with icur := h.icur + 1, obs := .inRead (.byte x) :: h.obs })) := by
  rcases Bool.eq_false_or_eq_true h.ansErr with e | e
  · exact .inl ⟨e, inRead_err e⟩
  · rcases p : h.inData[h.icur]? with - | x
    · exact .inr (.inl ⟨e, List.getElem?_eq_none_iff.mp p, inRead_eof e (List.getElem?_eq_none_iff.mp p)⟩)
    · exact .inr (.inr ⟨x, e, rfl, inRead_byte e p⟩)

theorem inRewind_err {h : HostSide} (e : h.ansErr = true) :
    inRewind h = (.err, { h with
      icur := Config.freeCursor h.draws % (h.inData.length + 1)
      draws := h.draws + 1
      obs := .inRewind .err :: h.obs }) := by simp [inRewind, e]

theorem inRewind_ok {h : HostSide} (e : h.ansErr = false) :
    inRewind h = (.ok, { h with icur := 0, obs := .inRewind .ok :: h.obs }) := by simp [inRewind, e]

theorem outWrite_err {h : HostSide} (x : Byte) (e : h.ansErr = true) :
    outWrite x h = (.err, { h with
      outData := Config.freeOutput h.draws
      draws := h.draws + 1
      obs := .outWrite x .err :: h.obs }) := by simp [outWrite, e]

theorem outWrite_ok {h : HostSide} (x : Byte) (e : h.ansErr = false) :
    outWrite x h = (.ok, { h with outData := h.outData ++ [x], obs := .outWrite x .ok :: h.obs }) := by
  simp [outWrite, e]

/-- A port transaction leaves the input, the schedule and the draw alone. -/
@[simp] theorem inRead_inData (h : HostSide) : (inRead h).2.inData = h.inData := by
  rcases inRead_cases h with ⟨-, e⟩ | ⟨-, -, e⟩ | ⟨x, -, -, e⟩ <;> rw [e]

@[simp] theorem inRead_outData (h : HostSide) : (inRead h).2.outData = h.outData := by
  rcases inRead_cases h with ⟨-, e⟩ | ⟨-, -, e⟩ | ⟨x, -, -, e⟩ <;> rw [e]

@[simp] theorem inRead_agenda (h : HostSide) : (inRead h).2.agenda = h.agenda := by
  rcases inRead_cases h with ⟨-, e⟩ | ⟨-, -, e⟩ | ⟨x, -, -, e⟩ <;> rw [e]

@[simp] theorem inRewind_inData (h : HostSide) : (inRewind h).2.inData = h.inData := by
  unfold inRewind; split <;> rfl

@[simp] theorem inRewind_outData (h : HostSide) : (inRewind h).2.outData = h.outData := by
  unfold inRewind; split <;> rfl

@[simp] theorem inRewind_agenda (h : HostSide) : (inRewind h).2.agenda = h.agenda := by
  unfold inRewind; split <;> rfl

@[simp] theorem outWrite_inData (x : Byte) (h : HostSide) : (outWrite x h).2.inData = h.inData := by
  unfold outWrite; split <;> rfl

@[simp] theorem outWrite_icur (x : Byte) (h : HostSide) : (outWrite x h).2.icur = h.icur := by
  unfold outWrite; split <;> rfl

@[simp] theorem outWrite_agenda (x : Byte) (h : HostSide) : (outWrite x h).2.agenda = h.agenda := by
  unfold outWrite; split <;> rfl

/-! No transaction binds or unbinds a port. -/

@[simp] theorem inRead_inBound (h : HostSide) : (inRead h).2.inBound = h.inBound := by
  rcases inRead_cases h with ⟨-, e⟩ | ⟨-, -, e⟩ | ⟨x, -, -, e⟩ <;> rw [e]

@[simp] theorem inRead_outBound (h : HostSide) : (inRead h).2.outBound = h.outBound := by
  rcases inRead_cases h with ⟨-, e⟩ | ⟨-, -, e⟩ | ⟨x, -, -, e⟩ <;> rw [e]

@[simp] theorem inRewind_inBound (h : HostSide) : (inRewind h).2.inBound = h.inBound := by
  unfold inRewind; split <;> rfl

@[simp] theorem inRewind_outBound (h : HostSide) : (inRewind h).2.outBound = h.outBound := by
  unfold inRewind; split <;> rfl

@[simp] theorem outWrite_inBound (x : Byte) (h : HostSide) : (outWrite x h).2.inBound = h.inBound := by
  unfold outWrite; split <;> rfl

@[simp] theorem outWrite_outBound (x : Byte) (h : HostSide) : (outWrite x h).2.outBound = h.outBound := by
  unfold outWrite; split <;> rfl

/-- R60: a read keeps the cursor inside the input. -/
theorem inRead_icur_le {h : HostSide} (p : h.icur ≤ h.inData.length) : (inRead h).2.icur ≤ h.inData.length := by
  rcases inRead_cases h with ⟨-, e⟩ | ⟨-, -, e⟩ | ⟨x, -, q, e⟩ <;> rw [e]
  · exact Nat.le_of_lt_succ (Nat.mod_lt _ (Nat.succ_pos _))
  · exact p
  · exact (List.getElem?_eq_some_iff.mp q).1

theorem inRewind_icur_le (h : HostSide) : (inRewind h).2.icur ≤ h.inData.length := by
  unfold inRewind
  split
  · exact Nat.le_of_lt_succ (Nat.mod_lt _ (Nat.succ_pos _))
  · exact Nat.zero_le _

/-! The histogram and the code table: read after write. -/

@[simp] theorem histAt_setHist_self (b : Block) (x : Byte) (v : Word) : histAt (setHist x v b) x = v := by
  simp [histAt, setHist]

theorem histAt_setHist_ne (b : Block) {x y : Byte} (v : Word) (h : x ≠ y) :
    histAt (setHist x v b) y = histAt b y := by
  have : x.toNat ≠ y.toNat := fun e => h (BitVec.eq_of_toNat_eq e)
  simp [histAt, setHist, this]

@[simp] theorem codeLenAt_setCode_self (b : Block) (x : Byte) (p : List Bool) :
    codeLenAt (setCode x p b) x = BitVec.ofNat 9 p.length := by
  simp [codeLenAt, setCode]

theorem codeLenAt_setCode_ne (b : Block) {x y : Byte} (p : List Bool) (h : x ≠ y) :
    codeLenAt (setCode x p b) y = codeLenAt b y := by
  have : x.toNat ≠ y.toNat := fun e => h (BitVec.eq_of_toNat_eq e)
  simp [codeLenAt, setCode, this]

@[simp] theorem codeBitsAt_setCode_self (b : Block) (x : Byte) (p : List Bool) :
    codeBitsAt (setCode x p b) x = packPath p := by
  simp [codeBitsAt, setCode]

theorem codeBitsAt_setCode_ne (b : Block) {x y : Byte} (p : List Bool) (h : x ≠ y) :
    codeBitsAt (setCode x p b) y = codeBitsAt b y := by
  have : x.toNat ≠ y.toNat := fun e => h (BitVec.eq_of_toNat_eq e)
  simp [codeBitsAt, setCode, this]

/-- R183: bit i of a packed path is the path's bit i, and 0 past its end. -/
theorem packPath_getLsbD (p : List Bool) (hp : p.length ≤ 256) (i : Nat) :
    (packPath p).getLsbD i = (p[i]?).getD false := by
  induction p generalizing i with
  | nil => simp [packPath]
  | cons x xs ih =>
    have hx : xs.length + 1 ≤ 256 := hp
    cases i with
    | zero => simp [packPath, flagBit]
    | succ i =>
      by_cases hi : i + 1 < 256
      · simp only [packPath, BitVec.getLsbD_or, BitVec.getLsbD_shiftLeft, List.getElem?_cons_succ]
        rw [ih (by omega)]
        simp [hi, flagBit]
      · have : xs[i]? = none := List.getElem?_eq_none (by omega)
        simp [packPath, hi, this, flagBit]

/-! The worklist (R36, R154, R161). -/

theorem writeWlFrom_getElem (l : List Handle) (i : Nat) (v : Vector Handle 256) (j : Nat) (hj : j < 256) :
    (writeWlFrom i l v)[j] = if i ≤ j then (l[j - i]?).getD v[j] else v[j] := by
  induction l generalizing i v with
  | nil => simp [writeWlFrom]
  | cons h hs ih =>
    rw [writeWlFrom, ih]
    by_cases c : i + 1 ≤ j
    · have hn : i ≠ j := by omega
      have : j - i = (j - (i + 1)) + 1 := by omega
      simp [c, show i ≤ j by omega, this, hn]
    · by_cases d : i = j
      · subst d; simp
      · simp [show ¬ i + 1 ≤ j by omega, show ¬ i ≤ j by omega, d]

/-- Making the worklist l makes it l. -/
@[simp] theorem worklist_putWorklist {l : List Handle} (b : Block) (h : l.length ≤ 256) :
    worklist (putWorklist l b) = l := by
  have hl : l.length % 512 = l.length := Nat.mod_eq_of_lt (by omega)
  apply List.ext_getElem
  · simp [worklist, hl]; omega
  · intro i h1 h2
    have hi : i < 256 := by omega
    simp [worklist, putWorklist, writeWlFrom_getElem, h2]

/-- The entries of WL above the worklist keep their values. -/
theorem putWorklist_above (l : List Handle) (b : Block) (j : Nat) (hj : j < 256) (h : l.length ≤ j) :
    (putWorklist l b).wl[j] = b.wl[j] := by
  simp [putWorklist, writeWlFrom_getElem, List.getElem?_eq_none h]

@[simp] theorem freqOf_putWorklist (l : List Handle) (b : Block) : freqOf (putWorklist l b) = freqOf b := rfl

theorem worklist_length_le (b : Block) : (worklist b).length ≤ 256 := by simp [worklist]

theorem worklist_length (b : Block) (h : b.wlLen.toNat ≤ 256) : (worklist b).length = b.wlLen.toNat := by
  simp [worklist, h]

theorem worklist_eq_nil (b : Block) : worklist b = [] ↔ b.wlLen = 0 := by
  rw [← List.length_eq_zero_iff]
  simp only [worklist, List.length_take, Vector.length_toList]
  constructor
  · intro h
    apply BitVec.eq_of_toNat_eq
    simp; omega
  · rintro rfl'
    simp [rfl']

@[simp] theorem insertByFreq_length (f : Handle → Size) (h : Handle) (l : List Handle) :
    (insertByFreq f h l).length = l.length + 1 := by
  induction l with
  | nil => rfl
  | cons x xs ih => unfold insertByFreq; split <;> simp [ih]

/-- Insertion adds h and nothing else. -/
theorem insertByFreq_perm (f : Handle → Size) (h : Handle) (l : List Handle) :
    (insertByFreq f h l).Perm (h :: l) := by
  induction l with
  | nil => exact .refl _
  | cons x xs ih =>
    unfold insertByFreq
    split
    · exact .refl _
    · exact (ih.cons x).trans (.swap h x xs)

theorem mem_insertByFreq (f : Handle → Size) (h x : Handle) (l : List Handle) :
    x ∈ insertByFreq f h l ↔ x = h ∨ x ∈ l := by
  rw [(insertByFreq_perm f h l).mem_iff, List.mem_cons]

/-- R154 keeps the order of R152, when h was created after every candidate. -/
theorem insertByFreq_sorted (b : Block) (h : Handle) (l : List Handle) (hs : l.Pairwise (sortsBefore b))
    (new : ∀ x ∈ l, x < h) : (insertByFreq (freqOf b) h l).Pairwise (sortsBefore b) := by
  induction l with
  | nil => simp [insertByFreq]
  | cons x xs ih =>
    obtain ⟨hx, hxs⟩ := List.pairwise_cons.mp hs
    unfold insertByFreq
    split
    · rename_i lt
      refine List.pairwise_cons.mpr ⟨?_, hs⟩
      intro y hy
      rcases List.mem_cons.mp hy with rfl | hy
      · exact .inl lt
      · rcases hx y hy with c | ⟨c, -⟩
        · exact .inl (BitVec.lt_trans lt c)
        · exact .inl (c ▸ lt)
    · rename_i ge
      refine List.pairwise_cons.mpr ⟨?_, ih hxs fun y hy => new y (List.mem_cons_of_mem _ hy)⟩
      intro y hy
      rcases (mem_insertByFreq ..).mp hy with rfl | hy
      · rcases Nat.lt_or_eq_of_le (Nat.not_lt.mp ge) with c | c
        · exact .inl c
        · exact .inr ⟨BitVec.eq_of_toNat_eq c, new x (List.mem_cons_self ..)⟩
      · exact hx y hy

theorem insertStable_ok {h : Handle} {b : Block} (len : b.wlLen.toNat < 256)
    (arena : (h :: worklist b).all inArena = true) :
    insertStable h b = .ok (putWorklist (insertByFreq (freqOf b) h (worklist b)) b) := by
  simp only [insertStable, show ¬ 256 ≤ b.wlLen.toNat by omega, if_false, arena, if_true]

/-- All that an insertion can commit. -/
theorem insertStable_inv {h : Handle} {b c : Block} (e : insertStable h b = .ok c) :
    b.wlLen.toNat < 256 ∧ (h :: worklist b).all inArena = true ∧
      c = putWorklist (insertByFreq (freqOf b) h (worklist b)) b := by
  unfold insertStable at e
  split at e
  · cases e
  · split at e
    · rename_i p q
      exact ⟨by omega, q, by cases e; rfl⟩
    · cases e

theorem removeHead_ok {h : Handle} {rest : List Handle} {b : Block} (len : b.wlLen.toNat ≤ 256)
    (wl : worklist b = h :: rest) : removeHead b = .ok (h, putWorklist rest b) := by
  simp only [removeHead, show ¬ 256 < b.wlLen.toNat by omega, if_false, wl]

/-- All that a removal can commit. -/
theorem removeHead_inv {h : Handle} {b c : Block} (e : removeHead b = .ok (h, c)) :
    b.wlLen.toNat ≤ 256 ∧ ∃ rest, worklist b = h :: rest ∧ c = putWorklist rest b := by
  unfold removeHead at e
  split at e
  · cases e
  · rename_i p
    split at e
    · cases e
    · rename_i h' rest w
      cases e
      exact ⟨by omega, rest, w, rfl⟩

/-! The arena (R34, R158, R159). -/

theorem nodeAt_ok {b : Block} {h : Handle} (p : h.toNat < 511) : nodeAt b h = .ok (b.node[h.toNat]'p) := by
  simp [nodeAt, p]

theorem nodeAt_ok_iff {b : Block} {h : Handle} {n : Node} : nodeAt b h = .ok n ↔ b.node[h.toNat]? = some n := by
  by_cases p : h.toNat < 511
  · simp [nodeAt, p]
  · simp [nodeAt, p]

theorem createdNode_nodeAt {b : Block} {h : Handle} {n : Node} (e : createdNode b h = some n) : nodeAt b h = .ok n := by
  unfold createdNode at e
  split at e
  · exact nodeAt_ok_iff.mpr e
  · cases e

theorem freqOf_of_nodeAt {b : Block} {h : Handle} {n : Node} (e : nodeAt b h = .ok n) : freqOf b h = n.freq := by
  simp [freqOf, nodeAt_ok_iff.mp e]

theorem allocNode_ok (n : Node) {b : Block} (p : b.ncnt.toNat < 511) :
    allocNode n b = .ok (b.ncnt.setWidth 9, { b with node := b.node.set b.ncnt.toNat n p, ncnt := b.ncnt + 1 }) := by
  have : b.ncnt ≠ 511#10 := by intro e; rw [e] at p; simp at p
  simp [allocNode, this, p]

/-- All that a creation can commit. -/
theorem allocNode_inv {n : Node} {b c : Block} {h : Handle} (e : allocNode n b = .ok (h, c)) :
    ∃ p : b.ncnt.toNat < 511, h = b.ncnt.setWidth 9 ∧
      c = { b with node := b.node.set b.ncnt.toNat n p, ncnt := b.ncnt + 1 } := by
  unfold allocNode at e
  split at e
  · cases e
  · split at e
    · rename_i q
      cases e
      exact ⟨q, rfl, rfl⟩
    · cases e

theorem bitsOfNode_getLsbD (n : Node) (i : Nat) (hi : i < 92) :
    (bitsOfNode n).getLsbD i = (n.freq ++ n.sym ++ flagBit n.lv ++ n.l ++ flagBit n.rv ++ n.r).getLsbD i := by
  rw [bitsOfNode, BitVec.getLsbD_setWidth]
  simp only [hi, decide_true, Bool.true_and]

/-- R118: the record and its 92 bits say the same. -/
theorem nodeOfBits_bitsOfNode (n : Node) : nodeOfBits (bitsOfNode n) = n := by
  obtain ⟨f, s, lv, l, rv, r⟩ := n
  simp only [nodeOfBits, Node.mk.injEq]
  refine ⟨?_, ?_, ?_, ?_, ?_, ?_⟩
  · ext i hi
    have e : 28 + i - 9 - 1 - 9 - 1 - 8 = i := by omega
    rw [BitVec.getElem_extractLsb', bitsOfNode_getLsbD _ _ (by omega)]
    simp only [BitVec.getLsbD_append, flagBit]
    simp [show ¬ 28 + i < 9 by omega, show ¬ 28 + i - 9 - 1 < 9 by omega, show ¬ 28 + i - 9 - 1 - 9 - 1 < 8 by omega,
      show ¬ 28 + i - 9 = 0 by omega, show ¬ 28 + i - 9 - 1 - 9 = 0 by omega, e, hi]
  · ext i hi
    have e : 20 + i - 9 - 1 - 9 - 1 = i := by omega
    rw [BitVec.getElem_extractLsb', bitsOfNode_getLsbD _ _ (by omega)]
    simp only [BitVec.getLsbD_append, flagBit]
    simp [show ¬ 20 + i < 9 by omega, show ¬ 20 + i - 9 - 1 < 9 by omega, show ¬ 20 + i - 9 = 0 by omega,
      show ¬ 20 + i - 9 - 1 - 9 = 0 by omega, e, hi]
  · rw [bitsOfNode_getLsbD _ _ (by omega)]; simp only [BitVec.getLsbD_append, flagBit]; simp
  · ext i hi
    have e : 10 + i - 9 - 1 = i := by omega
    rw [BitVec.getElem_extractLsb', bitsOfNode_getLsbD _ _ (by omega)]
    simp only [BitVec.getLsbD_append, flagBit]
    simp [show ¬ 10 + i < 9 by omega, show ¬ 10 + i - 9 = 0 by omega, e, hi]
  · rw [bitsOfNode_getLsbD _ _ (by omega)]; simp only [BitVec.getLsbD_append, flagBit]; simp
  · ext i hi
    rw [BitVec.getElem_extractLsb', bitsOfNode_getLsbD _ _ (by omega)]
    simp only [BitVec.getLsbD_append, flagBit]
    simp [hi]

/-! The bit registers (R201, R210). -/

theorem bwPut_ok (x : Bool) {b : Block} (p : b.bwCnt.toNat < 8) :
    bwPut x b = .ok { b with
      bwBuf := b.bwBuf ||| ((flagBit x).setWidth 8 <<< (7 - b.bwCnt.toNat)), bwCnt := b.bwCnt + 1 } := by
  simp [bwPut, p]

end Sys2Proof.Machine
end

