-- ==== Sys2Proof/Laws/Header.lean ====
section
/-! SUPPORT. The byte lanes of a header count (R66, R260): what is put in one lane reads back, and the other lanes and
counts keep their values; and the offsets of the register window on the bus (R332). -/

namespace Sys2Proof.Machine

/-! The byte lanes of a count (R66). -/

theorem putLane_getLsbD (o : ByteOrder) (j : Nat) (x : Byte) (v : Word) (i : Nat) (hi : i < 32) :
    (putLane o j x v).getLsbD i =
      if laneLow o j ≤ i ∧ i < laneLow o j + 8 then x.getLsbD (i - laneLow o j) else v.getLsbD i := by
  have ff (k : Nat) : (0xFF#32).getLsbD k = decide (k < 8) := by
    by_cases h : k < 8
    · have : ∀ k : Fin 8, (0xFF#32).getLsbD k.val = true := by decide
      simp [this ⟨k, h⟩, h]
    · by_cases g : k < 32
      · have : ∀ k : Fin 32, 8 ≤ k.val → (0xFF#32).getLsbD k.val = false := by decide
        simp [this ⟨k, g⟩ (by simp; omega), h]
      · simp [h, BitVec.getLsbD_of_ge _ _ (Nat.not_lt.mp g)]
  generalize hl : laneLow o j = low
  simp only [putLane, hl, BitVec.getLsbD_or, BitVec.getLsbD_and, BitVec.getLsbD_not, BitVec.getLsbD_shiftLeft, hi,
    decide_true, Bool.true_and, ff, BitVec.getLsbD_setWidth]
  by_cases a : i < low
  · simp [a, show ¬ low ≤ i by omega]
  · by_cases b : i < low + 8
    · simp [a, b, show low ≤ i by omega, show i - low < 8 by omega, show i - low < 32 by omega]
    · simp [a, b, show ¬ i - low < 8 by omega, BitVec.getLsbD_of_ge x (i - low) (by omega)]

theorem laneLow_le {o : ByteOrder} {j : Nat} (h : j < 4) : laneLow o j ≤ 24 := by
  cases o <;> simp only [laneLow] <;> omega

/-- A lane reads back what was put in it. -/
theorem getLane_putLane_self (o : ByteOrder) {j : Nat} (h : j < 4) (x : Byte) (v : Word) :
    getLane o j (putLane o j x v) = x := by
  have := laneLow_le (o := o) h
  ext i hi
  rw [getLane, BitVec.getElem_extractLsb', putLane_getLsbD _ _ _ _ _ (by omega), if_pos (by omega)]
  simp [hi]

/-- The other lanes keep their values. -/
theorem getLane_putLane_ne (o : ByteOrder) {j k : Nat} (hj : j < 4) (hk : k < 4) (n : k ≠ j) (x : Byte) (v : Word) :
    getLane o k (putLane o j x v) = getLane o k v := by
  have a := laneLow_le (o := o) hk
  have b : laneLow o k + 8 ≤ laneLow o j ∨ laneLow o j + 8 ≤ laneLow o k := by
    cases o <;> simp only [laneLow] <;> omega
  ext i hi
  rw [getLane, getLane, BitVec.getElem_extractLsb', BitVec.getElem_extractLsb', putLane_getLsbD _ _ _ _ _ (by omega),
    if_neg (by omega)]

theorem hdrLane_lt (k : BitVec 11) : hdrLane k < 4 := by
  have : hdrLane k = k.toNat % 4 := Nat.and_two_pow_sub_one_eq_mod _ 2
  omega

/-- A header byte written reads back. -/
theorem hdrByte_putHdrByte_self (o : ByteOrder) (x : Byte) (b : Block) :
    hdrByte o (putHdrByte o x b) b.hdrIdx = x := by
  simp only [hdrByte, putHdrByte, histAt_setHist_self, getLane_putLane_self o (hdrLane_lt _)]

/-- Every other header byte keeps its value. -/
theorem hdrByte_putHdrByte_ne (o : ByteOrder) (x : Byte) (b : Block) (k : BitVec 11) (h : k.toNat < 1024)
    (g : b.hdrIdx.toNat < 1024) (n : k ≠ b.hdrIdx) : hdrByte o (putHdrByte o x b) k = hdrByte o b k := by
  simp only [hdrByte, putHdrByte]
  by_cases s : hdrSymbol b.hdrIdx = hdrSymbol k
  · rw [s, histAt_setHist_self, getLane_putLane_ne o (hdrLane_lt _) (hdrLane_lt _)]
    intro l
    apply n
    have e1 : hdrLane k = k.toNat % 4 := Nat.and_two_pow_sub_one_eq_mod _ 2
    have e2 : hdrLane b.hdrIdx = b.hdrIdx.toNat % 4 := Nat.and_two_pow_sub_one_eq_mod _ 2
    have := congrArg BitVec.toNat s
    simp only [hdrSymbol, BitVec.toNat_ofNat, Nat.shiftRight_eq_div_pow] at this
    apply BitVec.eq_of_toNat_eq
    omega
  · rw [histAt_setHist_ne _ _ s]

/-! The window on the bus. -/

/-- The bus address of an offset selects that offset. -/
theorem windowOffset_busAddress (off : Byte) : windowOffset (busAddress off) = some off := by
  have := off.isLt
  unfold windowOffset
  rw [if_pos ⟨Nat.le_add_right .., by unfold busAddress; omega⟩]
  simp [busAddress]

end Sys2Proof.Machine
end

