-- ==== Sys2Proof/Laws/PerInstr.lean ====
section
/-! SUPPORT. Statements about each instruction as syntax, one lemma per constructor. Family RowMatch: the encoding of a
well-formed instruction has the bits of its row of spec/opcode_table.json, under the row's mask (R91, R92, R95). -/

namespace Sys2Proof.Laws.RowMatch

/-- The bits that the row's mask selects from the encoding are the row's match. -/
def Statement (i : Instr) : Prop :=
  i.wellFormed = true → (encodeWord i).toNat &&& i.row.mask = i.row.bits

/-- A command word's OP field is the op it is made with. -/
theorem op_of_cmdWord {ign op : Nat} (h : ignFits ign = true) (o : op < 16) :
    (CodeWord.cmd (cmdWord ign op)).toNat &&& 0x0000000F = op := by
  have e := Machine.cmdWord_toNat (of_decide_eq_true h) o
  have m : (ign * 16 + op) &&& 15 = (ign * 16 + op) % 16 := Nat.and_two_pow_sub_one_eq_mod _ 4
  simp only [CodeWord.toNat, e, m]
  omega

theorem ack (ign : Nat) : Statement (.ack ign) := fun h => op_of_cmdWord h (by decide)
theorem encode (ign : Nat) : Statement (.encode ign) := fun h => op_of_cmdWord h (by decide)
theorem decode (ign : Nat) : Statement (.decode ign) := fun h => op_of_cmdWord h (by decide)
theorem cmdReserved3 (ign : Nat) : Statement (.cmdReserved3 ign) := fun h => op_of_cmdWord h (by decide)
theorem cmdReserved4 (ign : Nat) : Statement (.cmdReserved4 ign) := fun h => op_of_cmdWord h (by decide)
theorem cmdReserved5 (ign : Nat) : Statement (.cmdReserved5 ign) := fun h => op_of_cmdWord h (by decide)
theorem cmdReserved6 (ign : Nat) : Statement (.cmdReserved6 ign) := fun h => op_of_cmdWord h (by decide)
theorem cmdReserved7 (ign : Nat) : Statement (.cmdReserved7 ign) := fun h => op_of_cmdWord h (by decide)
theorem cmdReserved8 (ign : Nat) : Statement (.cmdReserved8 ign) := fun h => op_of_cmdWord h (by decide)
theorem cmdReserved9 (ign : Nat) : Statement (.cmdReserved9 ign) := fun h => op_of_cmdWord h (by decide)
theorem cmdReservedA (ign : Nat) : Statement (.cmdReservedA ign) := fun h => op_of_cmdWord h (by decide)
theorem cmdReservedB (ign : Nat) : Statement (.cmdReservedB ign) := fun h => op_of_cmdWord h (by decide)
theorem cmdReservedC (ign : Nat) : Statement (.cmdReservedC ign) := fun h => op_of_cmdWord h (by decide)
theorem cmdReservedD (ign : Nat) : Statement (.cmdReservedD ign) := fun h => op_of_cmdWord h (by decide)
theorem cmdReservedE (ign : Nat) : Statement (.cmdReservedE ign) := fun h => op_of_cmdWord h (by decide)
theorem cmdReservedF (ign : Nat) : Statement (.cmdReservedF ign) := fun h => op_of_cmdWord h (by decide)
theorem sIdle : Statement .sIdle := fun _ => rfl
theorem sECount : Statement .sECount := fun _ => rfl
theorem sERewind : Statement .sERewind := fun _ => rfl
theorem sTInit : Statement .sTInit := fun _ => rfl
theorem sTMerge : Statement .sTMerge := fun _ => rfl
theorem sCGen : Statement .sCGen := fun _ => rfl
theorem sEHdr : Statement .sEHdr := fun _ => rfl
theorem sERead : Statement .sERead := fun _ => rfl
theorem sEBit : Statement .sEBit := fun _ => rfl
theorem sEWrite : Statement .sEWrite := fun _ => rfl
theorem sEFlush : Statement .sEFlush := fun _ => rfl
theorem sDHdr : Statement .sDHdr := fun _ => rfl
theorem sDBit : Statement .sDBit := fun _ => rfl
theorem sDEmit : Statement .sDEmit := fun _ => rfl
theorem sReserved0E : Statement .sReserved0E := fun _ => rfl
theorem sReserved0F : Statement .sReserved0F := fun _ => rfl
theorem sReserved10 : Statement .sReserved10 := fun _ => rfl
theorem sReserved11 : Statement .sReserved11 := fun _ => rfl
theorem sReserved12 : Statement .sReserved12 := fun _ => rfl
theorem sReserved13 : Statement .sReserved13 := fun _ => rfl
theorem sReserved14 : Statement .sReserved14 := fun _ => rfl
theorem sReserved15 : Statement .sReserved15 := fun _ => rfl
theorem sReserved16 : Statement .sReserved16 := fun _ => rfl
theorem sReserved17 : Statement .sReserved17 := fun _ => rfl
theorem sReserved18 : Statement .sReserved18 := fun _ => rfl
theorem sReserved19 : Statement .sReserved19 := fun _ => rfl
theorem sReserved1A : Statement .sReserved1A := fun _ => rfl
theorem sReserved1B : Statement .sReserved1B := fun _ => rfl
theorem sReserved1C : Statement .sReserved1C := fun _ => rfl
theorem sReserved1D : Statement .sReserved1D := fun _ => rfl
theorem sReserved1E : Statement .sReserved1E := fun _ => rfl
theorem sReserved1F : Statement .sReserved1F := fun _ => rfl

end Sys2Proof.Laws.RowMatch
end

