-- ==== Sys2Proof/Laws/Step.lean ====
section
/-! SUPPORT. What a step can do, said once: whose turn it is, what a command word does, and one inversion lemma for each
micro-operation, with every way it can end in a next state. -/

namespace Sys2Proof.Machine

/-- The sequencer takes its step next, with the host's draw `err`, and leaves the schedule `rest`. -/
def SequencerNext (s : State) (err : Bool) (rest : List HostEvent) : Prop :=
  (s.host.agenda = [] ∧ err = false ∧ rest = []) ∨ s.host.agenda = .seq err :: rest

theorem step_of_sequencerNext {s : State} {err : Bool} {rest : List HostEvent} (h : SequencerNext s err rest) :
    step s = exec (decodeState s.blk.state) (withSchedule rest err s) := by
  rcases h with ⟨h, rfl, rfl⟩ | h <;> simp [step, takeTurn, h, eventTurn, sequencerTurn]

theorem step_of_cmdWrite {s : State} {w : Word} {rest : List HostEvent}
    (h : s.host.agenda = .write 0x00#8 .word w :: rest) : step s = exec (decodeCmd w) (withSchedule rest false s) := by
  simp [step, takeTurn, h, eventTurn, hostWrite, accessOk]

/-- All that a step can do when it answers a next state. -/
theorem step_next_cases {s t : State} (e : step s = .next t) :
    (∃ err rest, SequencerNext s err rest ∧ exec (decodeState s.blk.state) (withSchedule rest err s) = .next t) ∨
    (∃ w rest, s.host.agenda = .write 0x00#8 .word w :: rest ∧
      exec (decodeCmd w) (withSchedule rest false s) = .next t) ∨
    (∃ off size data rest, s.host.agenda = .write off size data :: rest ∧ t = withSchedule rest false s) ∨
    (∃ off size rest, s.host.agenda = .read off size :: rest ∧ t = { withSchedule rest false s with
      host := { (withSchedule rest false s).host with obs := .regRead off (readReg s.blk off) :: s.host.obs } }) ∨
    (∃ data rest, s.blk.busy = false ∧ s.host.agenda = .bindIn data :: rest ∧ t = { withSchedule rest false s with
      host := { (withSchedule rest false s).host with inData := data, icur := 0, inBound := true } }) ∨
    (∃ data rest, s.blk.busy = false ∧ s.host.agenda = .bindOut data :: rest ∧ t = { withSchedule rest false s with
      host := { (withSchedule rest false s).host with outData := data, outBound := true } }) ∨
    (∃ rest, s.host.agenda = .reset :: rest ∧ t = resetEvent (withSchedule rest false s)) := by
  unfold step takeTurn at e
  rcases a : s.host.agenda with - | ⟨ev, rest⟩
  · rw [a] at e
    exact .inl ⟨false, [], .inl ⟨a, rfl, rfl⟩, e⟩
  · rw [a] at e
    cases ev with
    | seq err => exact .inl ⟨err, rest, .inr a, e⟩
    | read off size =>
      simp only [eventTurn, hostRead] at e
      split at e
      · exact .inr (.inr (.inr (.inl ⟨off, size, rest, rfl, by simpa using e.symm⟩)))
      · cases e
    | write off size data =>
      simp only [eventTurn, hostWrite] at e
      by_cases ok : accessOk off size = true
      · simp only [ok, if_true] at e
        by_cases z : off = 0
        · subst z
          have sz : size = .word := by simpa [accessOk] using ok
          subst sz
          simp only [if_true] at e
          exact .inr (.inl ⟨data, rest, rfl, e⟩)
        · simp only [z, if_false] at e
          exact .inr (.inr (.inl ⟨off, size, data, rest, rfl, by simpa using e.symm⟩))
      · simp only [ok] at e
        cases e
    | bindIn data =>
      simp only [eventTurn, bindIn] at e
      split at e
      · cases e
      · rename_i nb
        exact .inr (.inr (.inr (.inr (.inl ⟨data, rest, by simpa using nb, rfl, by simpa using e.symm⟩))))
    | bindOut data =>
      simp only [eventTurn, bindOut] at e
      split at e
      · cases e
      · rename_i nb
        exact .inr (.inr (.inr (.inr (.inr (.inl ⟨data, rest, by simpa using nb, rfl, by simpa using e.symm⟩)))))
    | reset =>
      simp only [eventTurn] at e
      exact .inr (.inr (.inr (.inr (.inr (.inr ⟨rest, rfl, by simpa using e.symm⟩)))))

/-! Commands (R230 to R235). -/

theorem op_lt (w : Word) : w.toNat % 16 < 16 := Nat.mod_lt _ (by decide)

/-- What a command word does to an idle block, by its OP. -/
def commandAct (w : Word) : Block → Block :=
  match w.toNat % 16 with
  | 0 => ackReturn
  | 1 => accept 1#2 Code.sECount
  | 2 => accept 2#2 Code.sDHdr
  | _ => illegalCommand

/-- The words that start a command: ENCODE and DECODE. -/
def isLaunchWord (w : Word) : Prop := w.toNat % 16 = 1 ∨ w.toNat % 16 = 2

/-- All that a command word does, but for a launch from an idle block away from the start of the input. -/
theorem exec_decodeCmd {w : Word} {s : State} (ok : isLaunchWord w → s.blk.busy = false → s.host.icur = 0) :
    exec (decodeCmd w) s = onCommand (commandAct w) s := by
  have h := op_lt w
  unfold isLaunchWord at ok
  unfold decodeCmd commandAct
  generalize w.toNat % 16 = k at h ok
  interval_cases k
  · rfl
  · exact if_neg fun p => p.2 (ok (.inl rfl) p.1)
  · exact if_neg fun p => p.2 (ok (.inr rfl) p.1)
  all_goals rfl

/-- That launch has no transition. -/
theorem exec_decodeCmd_refused {w : Word} {s : State} (l : isLaunchWord w) (b : s.blk.busy = false)
    (i : s.host.icur ≠ 0) : exec (decodeCmd w) s = .refused .launchNotAtStart := by
  rcases l with l | l <;> simp only [decodeCmd, l] <;> exact onLaunch_refused b i

/-- All that a command word can do when it answers a next state. -/
theorem exec_decodeCmd_next {w : Word} {s t : State} (e : exec (decodeCmd w) s = .next t) :
    (isLaunchWord w → s.blk.busy = false → s.host.icur = 0) ∧ onCommand (commandAct w) s = .next t := by
  have ok : isLaunchWord w → s.blk.busy = false → s.host.icur = 0 := fun l b =>
    Decidable.byContradiction fun i => by rw [exec_decodeCmd_refused l b i] at e; cases e
  exact ⟨ok, (exec_decodeCmd ok).symm.trans e⟩

/-- All that a step can do to the block. -/
theorem step_block_cases {s t : State} (e : step s = .next t) :
    t.blk = s.blk ∨ (s.blk.busy = true ∧ t.blk = busyWrite s.blk) ∨
    (s.blk.busy = false ∧ ∃ w, t.blk = commandAct w s.blk) ∨ (∃ d, t.blk = resetBlock d) ∨
    (∃ s', s'.blk = s.blk ∧ s'.host.inData = s.host.inData ∧ s'.host.icur = s.host.icur ∧
      exec (decodeState s.blk.state) s' = .next t) := by
  rcases step_next_cases e with ⟨er, r, _, h⟩ | ⟨w, r, _, h⟩ | ⟨_, _, _, _, _, rfl⟩ | ⟨_, _, _, _, rfl⟩ |
    ⟨_, _, _, _, rfl⟩ | ⟨_, _, _, _, rfl⟩ | ⟨_, _, rfl⟩
  · exact .inr (.inr (.inr (.inr ⟨withSchedule r er s, rfl, rfl, rfl, h⟩)))
  · replace h := (exec_decodeCmd_next h).2
    unfold onCommand at h
    cases h
    by_cases b : s.blk.busy = true
    · exact .inr (.inl ⟨b, by simp [b]⟩)
    · exact .inr (.inr (.inl ⟨by simpa using b, w, by simp [b]⟩))
  · exact .inl rfl
  · exact .inl rfl
  · exact .inl rfl
  · exact .inl rfl
  · exact .inr (.inr (.inr (.inl ⟨_, rfl⟩)))

theorem commandAct_cases (w : Word) (b : Block) :
    commandAct w b = ackReturn b ∨ commandAct w b = accept 1#2 Code.sECount b ∨
    commandAct w b = accept 2#2 Code.sDHdr b ∨ commandAct w b = illegalCommand b := by
  have h := op_lt w
  unfold commandAct
  generalize w.toNat % 16 = k at h
  interval_cases k <;> simp

/-! Micro-operations: whose arm runs. -/

/-- The micro-operation of the current state answers a next state in one of the fourteen defined states only. -/
theorem exec_decodeState_cases {s t : State} {c : BitVec 5} (e : exec (decodeState c) s = .next t) :
    (c = Code.sIdle ∧ t = s) ∨ (c = Code.sECount ∧ exec .sECount s = .next t) ∨
    (c = Code.sERewind ∧ exec .sERewind s = .next t) ∨ (c = Code.sTInit ∧ exec .sTInit s = .next t) ∨
    (c = Code.sTMerge ∧ exec .sTMerge s = .next t) ∨ (c = Code.sCGen ∧ exec .sCGen s = .next t) ∨
    (c = Code.sEHdr ∧ exec .sEHdr s = .next t) ∨ (c = Code.sERead ∧ exec .sERead s = .next t) ∨
    (c = Code.sEBit ∧ exec .sEBit s = .next t) ∨ (c = Code.sEWrite ∧ exec .sEWrite s = .next t) ∨
    (c = Code.sEFlush ∧ exec .sEFlush s = .next t) ∨ (c = Code.sDHdr ∧ exec .sDHdr s = .next t) ∨
    (c = Code.sDBit ∧ exec .sDBit s = .next t) ∨ (c = Code.sDEmit ∧ exec .sDEmit s = .next t) := by
  have eq {k : Nat} (q : c.toNat = k) : c = BitVec.ofNat 5 k := by rw [← q]; simp
  have h := c.isLt
  unfold decodeState at e
  rcases k : c.toNat with - | n
  · rw [k] at e
    exact .inl ⟨eq k, (Host.Outcome.next.inj e).symm⟩
  · rw [k] at e h
    have hn : n < 31 := by omega
    refine .inr ?_
    interval_cases n
    · exact .inl ⟨eq k, e⟩
    · exact .inr (.inl ⟨eq k, e⟩)
    · exact .inr (.inr (.inl ⟨eq k, e⟩))
    · exact .inr (.inr (.inr (.inl ⟨eq k, e⟩)))
    · exact .inr (.inr (.inr (.inr (.inl ⟨eq k, e⟩))))
    · exact .inr (.inr (.inr (.inr (.inr (.inl ⟨eq k, e⟩)))))
    · exact .inr (.inr (.inr (.inr (.inr (.inr (.inl ⟨eq k, e⟩))))))
    · exact .inr (.inr (.inr (.inr (.inr (.inr (.inr (.inl ⟨eq k, e⟩)))))))
    · exact .inr (.inr (.inr (.inr (.inr (.inr (.inr (.inr (.inl ⟨eq k, e⟩))))))))
    · exact .inr (.inr (.inr (.inr (.inr (.inr (.inr (.inr (.inr (.inl ⟨eq k, e⟩)))))))))
    · exact .inr (.inr (.inr (.inr (.inr (.inr (.inr (.inr (.inr (.inr (.inl ⟨eq k, e⟩))))))))))
    · exact .inr (.inr (.inr (.inr (.inr (.inr (.inr (.inr (.inr (.inr (.inr (.inl ⟨eq k, e⟩)))))))))))
    · exact .inr (.inr (.inr (.inr (.inr (.inr (.inr (.inr (.inr (.inr (.inr (.inr ⟨eq k, e⟩)))))))))))
    all_goals cases e

/-- No STATE value is refused. -/
theorem exec_decodeState_ne_refused (c : BitVec 5) (s : State) (r : Refusal) :
    exec (decodeState c) s ≠ .refused r := by
  have h := c.isLt
  unfold decodeState
  generalize c.toNat = k at h
  interval_cases k <;>
    simp only [exec, execSIdle, execSECount, execSERewind, execSTInit, execSTMerge, execSCGen, execSEHdr, execSERead,
      execSEBit, execSEWrite, execSEFlush, execSDHdr, execSDBit, execSDEmit] <;>
    first
    | exact finish_ne_refused _ _ _ _
    | (split <;> first | exact finish_ne_refused _ _ _ _ | exact nofun)
    | exact nofun

/-! While a command runs (R356). -/

theorem DuringCommand.busy {s t : State} (d : DuringCommand s t) : t.blk.busy = true := by
  cases d <;> assumption

/-- The events that leave a running command to its end have a transition or a fault, never a refusal. -/
theorem step_ne_refused {s : State} (busy : s.blk.busy = true)
    (ok : ∀ e rest, s.host.agenda = e :: rest → leavesRunning e = true) (r : Refusal) : step s ≠ .refused r := by
  unfold step takeTurn
  rcases a : s.host.agenda with - | ⟨ev, rest⟩
  · exact exec_decodeState_ne_refused _ _ r
  · have l := ok ev rest a
    cases ev with
    | seq err => exact exec_decodeState_ne_refused _ _ r
    | read off size => simp [eventTurn, hostRead, show accessOk off size = true from l]
    | write off size data =>
      simp only [eventTurn, hostWrite, show accessOk off size = true from l, if_true]
      by_cases z : off = 0
      · rw [if_pos z]
        dsimp only
        rw [exec_decodeCmd fun _ b => by simp [busy] at b]
        exact nofun
      · rw [if_neg z]
        exact nofun
    | bindIn data => cases l
    | bindOut data => cases l
    | reset => cases l

/-! Which primitives can raise, and what. -/

/-- A computation that raises nothing. -/
def NoRaise {α : Type} (m : Except Stop α) : Prop := ∀ c g, m ≠ .error (.raise c g)

/-- A computation that raises AllocationError(TREE_BUILD) or nothing. -/
def AllocRaise {α : Type} (m : Except Stop α) : Prop :=
  ∀ c g, m = .error (.raise c g) → c = .allocationError ∧ g = .treeBuild

theorem NoRaise.alloc {α : Type} {m : Except Stop α} (h : NoRaise m) : AllocRaise m := fun c g e => absurd e (h c g)

theorem NoRaise.ok {α : Type} (a : α) : NoRaise (.ok a : Except Stop α) := fun _ _ => nofun

theorem NoRaise.fault {α : Type} (f : Fault) : NoRaise (.error (.fault f) : Except Stop α) :=
  fun _ _ e => nomatch e

theorem AllocRaise.bind {α β : Type} {m : Except Stop α} {f : α → Except Stop β} (h : AllocRaise m)
    (k : ∀ a, m = .ok a → AllocRaise (f a)) : AllocRaise (m >>= f) := by
  match m, h, k with
  | .ok a, _, k => exact k a rfl
  | .error x, h, _ =>
    intro c g e
    have e' : (Except.error x : Except Stop β) = .error (.raise c g) := e
    exact h c g (by rw [Except.error.inj e'])

theorem NoRaise.bind {α β : Type} {m : Except Stop α} {f : α → Except Stop β} (h : NoRaise m)
    (k : ∀ a, m = .ok a → NoRaise (f a)) : NoRaise (m >>= f) := by
  match m, h, k with
  | .ok a, _, k => exact k a rfl
  | .error x, h, _ =>
    intro c g e
    have e' : (Except.error x : Except Stop β) = .error (.raise c g) := e
    exact h c g (by rw [Except.error.inj e'])

theorem AllocRaise.map {α β : Type} {m : Except Stop α} (f : α → β) (h : AllocRaise m) : AllocRaise (m.map f) := by
  match m, h with
  | .ok a, _ => exact (NoRaise.ok _).alloc
  | .error x, h => exact fun c g e => h c g (by simpa [Except.map] using e)

theorem NoRaise.map {α β : Type} {m : Except Stop α} (f : α → β) (h : NoRaise m) : NoRaise (m.map f) := by
  match m, h with
  | .ok a, _ => exact NoRaise.ok _
  | .error x, h => exact fun c g e => h c g (by simpa [Except.map] using e)

/-- A bind that commits: both halves do. -/
theorem bind_ok {α β : Type} {m : Except Stop α} {f : α → Except Stop β} {r : β} (e : (m >>= f) = .ok r) :
    ∃ a, m = .ok a ∧ f a = .ok r := by
  match m, e with
  | .ok a, e => exact ⟨a, rfl, e⟩

theorem map_ok {α β : Type} {m : Except Stop α} {f : α → β} {r : β} (e : m.map f = .ok r) :
    ∃ a, m = .ok a ∧ r = f a := by
  match m, e with
  | .ok a, e => exact ⟨a, rfl, by simpa [Except.map] using e.symm⟩

theorem nodeAt_noRaise (b : Block) (h : Handle) : NoRaise (nodeAt b h) := by
  unfold nodeAt; split
  · exact .ok _
  · exact .fault _

theorem insertStable_noRaise (h : Handle) (b : Block) : NoRaise (insertStable h b) := by
  unfold insertStable; split
  · exact .fault _
  · split
    · exact .ok _
    · exact .fault _

theorem removeHead_noRaise (b : Block) : NoRaise (removeHead b) := by
  unfold removeHead; split
  · exact .fault _
  · split
    · exact .fault _
    · exact .ok _

theorem allocNode_allocRaise (n : Node) (b : Block) : AllocRaise (allocNode n b) := by
  unfold allocNode; split
  · intro c g e
    cases e; exact ⟨rfl, rfl⟩
  · split
    · exact (NoRaise.ok _).alloc
    · exact (NoRaise.fault _).alloc

theorem buildLeaves_allocRaise (l : List Byte) (b : Block) : AllocRaise (buildLeaves l b) := by
  induction l generalizing b with
  | nil => exact (NoRaise.ok _).alloc
  | cons x xs ih =>
    unfold buildLeaves; split
    · exact ih b
    · exact .bind (allocNode_allocRaise _ _) fun a _ => .bind (insertStable_noRaise _ _).alloc fun c _ => ih c

theorem mergeOnce_allocRaise (b : Block) : AllocRaise (mergeOnce b) :=
  .bind (removeHead_noRaise _).alloc fun _ _ => .bind (removeHead_noRaise _).alloc fun _ _ =>
    .bind (nodeAt_noRaise _ _).alloc fun _ _ => .bind (nodeAt_noRaise _ _).alloc fun _ _ =>
    .bind (allocNode_allocRaise _ _) fun _ _ => (insertStable_noRaise _ _).alloc

theorem singleRoot_allocRaise (b : Block) : AllocRaise (singleRoot b) :=
  .bind (removeHead_noRaise _).alloc fun _ _ => .bind (nodeAt_noRaise _ _).alloc fun _ _ =>
    .bind (allocNode_allocRaise _ _) fun _ _ => (NoRaise.ok _).alloc

theorem tInitStep_allocRaise (b : Block) : AllocRaise (tInitStep b) := by
  refine .bind (buildLeaves_allocRaise _ _) fun c _ => ?_
  unfold initSuccessor
  split
  · split <;> exact (NoRaise.ok _).alloc
  · split
    · exact .map _ (singleRoot_allocRaise _)
    · exact (NoRaise.ok _).alloc

/-- R181, one visit: a leaf takes its code; an internal node visits its left, then its right child. -/
theorem visit_succ (k : Nat) (h : Handle) (p : List Bool) (b : Block) :
    visit (k + 1) h p b = nodeAt b h >>= fun n =>
      if isLeaf n then .ok (setCode n.sym p b)
      else (if n.lv then visit k n.l (p ++ [false]) b else .ok b) >>= fun b1 =>
        if n.rv then visit k n.r (p ++ [true]) b1 else .ok b1 := by
  rw [visit]
  refine congrArg _ (funext fun n => ?_)
  by_cases l : isLeaf n = true
  · simp only [l, if_true]
  · by_cases v : n.lv = true
    · simp only [l, v, if_true]
    · simp only [l, v]
      rfl

theorem visit_noRaise (k : Nat) (h : Handle) (p : List Bool) (b : Block) : NoRaise (visit k h p b) := by
  induction k generalizing h p b with
  | zero => exact .fault _
  | succ k ih =>
    rw [visit_succ]
    refine .bind (nodeAt_noRaise _ _) fun n _ => ?_
    split
    · exact .ok _
    · refine .bind ?_ fun c _ => ?_
      · split
        · exact ih _ _ _
        · exact .ok _
      · split
        · exact ih _ _ _
        · exact .ok _

theorem codeGen_noRaise (b : Block) : NoRaise (codeGen b) := visit_noRaise 256 b.root [] b

/-! One inversion lemma per micro-operation. `h` is the host's side after its port transaction, if it makes one. -/

theorem execSECount_cases {s t : State} (e : exec .sECount s = .next t) :
    t = { s with blk := t.blk, host := (inRead s.host).2 } ∧
    ((s.host.ansErr = true ∧ t.blk = errorEntry .ioError .analysis s.blk) ∨
     (s.host.ansErr = false ∧ s.host.inData.length ≤ s.host.icur ∧ t.blk = goto Code.sERewind s.blk) ∨
     (∃ x, s.host.ansErr = false ∧ s.host.inData[s.host.icur]? = some x ∧
      ((histAt s.blk x = 0xFFFFFFFF#32 ∧ t.blk = errorEntry .countOverflow .analysis s.blk) ∨
       (histAt s.blk x ≠ 0xFFFFFFFF#32 ∧
        t.blk = goto Code.sECount (countIn (setHist x (histAt s.blk x + 1) s.blk)))))) := by
  simp only [exec, execSECount] at e
  rcases inRead_cases s.host with ⟨r, q⟩ | ⟨r, l, q⟩ | ⟨x, r, i, q⟩ <;> rw [q] at e ⊢
  · simp only [countStep, finish_raise, Host.Outcome.next.injEq] at e
    subst e; exact ⟨rfl, .inl ⟨r, rfl⟩⟩
  · simp only [countStep, finish_ok, Host.Outcome.next.injEq] at e
    subst e; exact ⟨rfl, .inr (.inl ⟨r, l, rfl⟩)⟩
  · simp only [countStep, histInc] at e
    split at e
    · simp only [Except.map, finish_raise, Host.Outcome.next.injEq] at e
      subst e; exact ⟨rfl, .inr (.inr ⟨x, r, i, .inl ⟨by assumption, rfl⟩⟩)⟩
    · simp only [Except.map, finish_ok, Host.Outcome.next.injEq] at e
      subst e; exact ⟨rfl, .inr (.inr ⟨x, r, i, .inr ⟨by assumption, rfl⟩⟩)⟩

theorem execSERewind_cases {s t : State} (e : exec .sERewind s = .next t) :
    t = { s with blk := t.blk, host := (inRewind s.host).2 } ∧
    ((s.host.ansErr = true ∧ t.blk = errorEntry .ioError .analysis s.blk) ∨
     (s.host.ansErr = false ∧ t.blk = goto Code.sTInit s.blk)) := by
  simp only [exec, execSERewind] at e
  rcases Bool.eq_false_or_eq_true s.host.ansErr with r | r
  · rw [inRewind_err r] at e ⊢
    simp only [rewindStep, finish_raise, Host.Outcome.next.injEq] at e
    subst e; exact ⟨rfl, .inl ⟨r, rfl⟩⟩
  · rw [inRewind_ok r] at e ⊢
    simp only [rewindStep, finish_ok, Host.Outcome.next.injEq] at e
    subst e; exact ⟨rfl, .inr ⟨r, rfl⟩⟩

theorem execSTInit_cases {s t : State} (e : exec .sTInit s = .next t) :
    t = { s with blk := t.blk } ∧
    ((t.blk = errorEntry .allocationError .treeBuild s.blk) ∨ tInitStep s.blk = .ok t.blk) := by
  rcases finish_next_cases e with ⟨b, q, rfl⟩ | ⟨c, g, q, rfl⟩
  · exact ⟨rfl, .inr q⟩
  · obtain ⟨rfl, rfl⟩ := tInitStep_allocRaise _ c g q
    exact ⟨rfl, .inl rfl⟩

theorem execSTMerge_cases {s t : State} (e : exec .sTMerge s = .next t) :
    t = { s with blk := t.blk } ∧
    ((t.blk = errorEntry .allocationError .treeBuild s.blk) ∨
     (∃ b, mergeOnce s.blk = .ok b ∧ t.blk = mergeSuccessor b)) := by
  rcases finish_next_cases e with ⟨b, q, rfl⟩ | ⟨c, g, q, rfl⟩
  · exact ⟨rfl, .inr (map_ok q)⟩
  · obtain ⟨rfl, rfl⟩ := (mergeOnce_allocRaise s.blk).map mergeSuccessor c g q
    exact ⟨rfl, .inl rfl⟩

theorem execSCGen_cases {s t : State} (e : exec .sCGen s = .next t) :
    t = { s with blk := t.blk } ∧
    ∃ b, codeGen s.blk = .ok b ∧ t.blk = { b with hdrIdx := 0, state := Code.sEHdr } := by
  rcases finish_next_cases e with ⟨b, q, rfl⟩ | ⟨c, g, q, rfl⟩
  · exact ⟨rfl, map_ok q⟩
  · exact absurd q ((codeGen_noRaise s.blk).map _ c g)

/-- The header byte that S_E_HDR writes. -/
abbrev hdrOut (s : State) : Byte := hdrByte s.cfg.hdrByteOrder s.blk s.blk.hdrIdx

theorem execSEHdr_cases {s t : State} (e : exec .sEHdr s = .next t) :
    s.blk.hdrIdx.toNat < 1024 ∧ t = { s with blk := t.blk, host := (outWrite (hdrOut s) s.host).2 } ∧
    ((s.host.ansErr = true ∧ t.blk = errorEntry .ioError .header s.blk) ∨
     (s.host.ansErr = false ∧
      ((s.blk.hdrIdx + 1 = 1024#11 ∧ s.blk.distinct = 0 ∧
        t.blk = complete { countOut s.blk with hdrIdx := s.blk.hdrIdx + 1 }) ∨
       (s.blk.hdrIdx + 1 = 1024#11 ∧ s.blk.distinct ≠ 0 ∧
        t.blk = goto Code.sERead { countOut s.blk with hdrIdx := s.blk.hdrIdx + 1 }) ∨
       (s.blk.hdrIdx + 1 ≠ 1024#11 ∧
        t.blk = goto Code.sEHdr { countOut s.blk with hdrIdx := s.blk.hdrIdx + 1 })))) := by
  simp only [exec, execSEHdr] at e
  split at e
  · rename_i lt
    refine ⟨lt, ?_⟩
    rcases Bool.eq_false_or_eq_true s.host.ansErr with r | r
    · rw [outWrite_err _ r] at e ⊢
      simp only [eHdrStep, finish_raise, Host.Outcome.next.injEq] at e
      subst e; exact ⟨rfl, .inl ⟨r, rfl⟩⟩
    · rw [outWrite_ok _ r] at e ⊢
      simp only [eHdrStep] at e
      by_cases l : s.blk.hdrIdx + 1 = 1024#11
      · by_cases d : s.blk.distinct = 0
        · have d' : (countOut s.blk).distinct = 0 := d
          simp only [l, d', if_true, finish_ok, Host.Outcome.next.injEq] at e
          subst e; exact ⟨rfl, .inr ⟨r, .inl ⟨l, d, by rw [show s.blk.hdrIdx + 1 = 1024#11 from l]; simp [d, countOut]⟩⟩⟩
        · have d' : ¬ (countOut s.blk).distinct = 0 := d
          simp only [l, d', if_true, if_false, finish_ok, Host.Outcome.next.injEq] at e
          subst e; exact ⟨rfl, .inr ⟨r, .inr (.inl ⟨l, d, by rw [l]⟩)⟩⟩
      · simp only [l, if_false, finish_ok, Host.Outcome.next.injEq] at e
        subst e; exact ⟨rfl, .inr ⟨r, .inr (.inr ⟨l, rfl⟩)⟩⟩
  · cases e

theorem execSERead_cases {s t : State} (e : exec .sERead s = .next t) :
    t = { s with blk := t.blk, host := (inRead s.host).2 } ∧
    ((s.host.ansErr = true ∧ t.blk = errorEntry .ioError .bitEncode s.blk) ∨
     (s.host.ansErr = false ∧ t.blk = errorEntry .streamMismatch .bitEncode s.blk) ∨
     (s.host.ansErr = false ∧ s.host.inData.length ≤ s.host.icur ∧ s.blk.emitCnt = s.blk.inSize ∧
      t.blk = goto Code.sEFlush s.blk) ∨
     (∃ x, s.host.ansErr = false ∧ s.host.inData[s.host.icur]? = some x ∧ s.blk.emitCnt ≠ s.blk.inSize ∧
      codeLenAt s.blk x ≠ 0 ∧
      t.blk = { s.blk with emitCnt := s.blk.emitCnt + 1, sym := x, bitIdx := 0, state := Code.sEBit })) := by
  simp only [exec, execSERead] at e
  rcases inRead_cases s.host with ⟨r, q⟩ | ⟨r, l, q⟩ | ⟨x, r, i, q⟩ <;> rw [q] at e ⊢
  · simp only [eReadStep, finish_raise, Host.Outcome.next.injEq] at e
    subst e; exact ⟨rfl, .inl ⟨r, rfl⟩⟩
  · simp only [eReadStep] at e
    by_cases c : s.blk.emitCnt = s.blk.inSize
    · simp only [c, ne_eq, not_true, if_false, finish_ok, Host.Outcome.next.injEq] at e
      subst e; exact ⟨rfl, .inr (.inr (.inl ⟨r, l, c, rfl⟩))⟩
    · simp only [ne_eq, c, not_false_eq_true, if_true, finish_raise, Host.Outcome.next.injEq] at e
      subst e; exact ⟨rfl, .inr (.inl ⟨r, rfl⟩)⟩
  · simp only [eReadStep] at e
    by_cases c : s.blk.emitCnt = s.blk.inSize
    · simp only [c, if_true, finish_raise, Host.Outcome.next.injEq] at e
      subst e; exact ⟨rfl, .inr (.inl ⟨r, rfl⟩)⟩
    · by_cases z : codeLenAt s.blk x = 0
      · simp only [c, z, if_true, if_false, finish_raise, Host.Outcome.next.injEq] at e
        subst e; exact ⟨rfl, .inr (.inl ⟨r, rfl⟩)⟩
      · simp only [c, z, if_false, finish_ok, Host.Outcome.next.injEq] at e
        subst e; exact ⟨rfl, .inr (.inr (.inr ⟨x, r, i, c, z, rfl⟩))⟩

theorem execSEBit_cases {s t : State} (e : exec .sEBit s = .next t) :
    s.blk.bwCnt.toNat < 8 ∧ t = { s with blk := t.blk } ∧
    t.blk = { s.blk with
      bwBuf := s.blk.bwBuf |||
        ((flagBit (codewordBit s.blk s.blk.sym s.blk.bitIdx)).setWidth 8 <<< (7 - s.blk.bwCnt.toNat))
      bwCnt := s.blk.bwCnt + 1
      bitIdx := s.blk.bitIdx + 1
      state := if s.blk.bwCnt + 1 = 8 then Code.sEWrite
        else if s.blk.bitIdx + 1 = codeLenAt s.blk s.blk.sym then Code.sERead else Code.sEBit } := by
  simp only [exec, execSEBit, eBitStep] at e
  by_cases p : s.blk.bwCnt.toNat < 8
  · rw [bwPut_ok _ p] at e
    simp only [bind, Except.bind, finish_ok, Host.Outcome.next.injEq] at e
    subst e; exact ⟨p, rfl, rfl⟩
  · simp [bwPut, p, bind, Except.bind] at e

theorem execSEWrite_cases {s t : State} (e : exec .sEWrite s = .next t) :
    t = { s with blk := t.blk, host := (outWrite s.blk.bwBuf s.host).2 } ∧
    ((s.host.ansErr = true ∧ t.blk = errorEntry .ioError .bitEncode s.blk) ∨
     (s.host.ansErr = false ∧ t.blk = { s.blk with
       outSize := s.blk.outSize + 1
       bwBuf := 0
       bwCnt := 0
       state := if s.blk.bitIdx < codeLenAt s.blk s.blk.sym then Code.sEBit else Code.sERead })) := by
  simp only [exec, execSEWrite] at e
  rcases Bool.eq_false_or_eq_true s.host.ansErr with r | r
  · rw [outWrite_err _ r] at e ⊢
    simp only [eWriteStep, finish_raise, Host.Outcome.next.injEq] at e
    subst e; exact ⟨rfl, .inl ⟨r, rfl⟩⟩
  · rw [outWrite_ok _ r] at e ⊢
    simp only [eWriteStep, finish_ok, Host.Outcome.next.injEq] at e
    subst e; exact ⟨rfl, .inr ⟨r, rfl⟩⟩

theorem execSEFlush_cases {s t : State} (e : exec .sEFlush s = .next t) :
    (s.blk.bwCnt = 0 ∧ t = { s with blk := complete s.blk }) ∨
    (s.blk.bwCnt ≠ 0 ∧ t = { s with blk := t.blk, host := (outWrite s.blk.bwBuf s.host).2 } ∧
      ((s.host.ansErr = true ∧ t.blk = errorEntry .ioError .bitEncode s.blk) ∨
       (s.host.ansErr = false ∧ t.blk = complete (bwClear (countOut s.blk))))) := by
  simp only [exec, execSEFlush] at e
  split at e
  · rename_i p
    have nz : s.blk.bwCnt ≠ 0 := by intro z; rw [z] at p; simp at p
    refine .inr ⟨nz, ?_⟩
    rcases Bool.eq_false_or_eq_true s.host.ansErr with r | r
    · rw [outWrite_err _ r] at e ⊢
      simp only [eFlushStep, finish_raise, Host.Outcome.next.injEq] at e
      subst e; exact ⟨rfl, .inl ⟨r, rfl⟩⟩
    · rw [outWrite_ok _ r] at e ⊢
      simp only [eFlushStep, finish_ok, Host.Outcome.next.injEq] at e
      subst e; exact ⟨rfl, .inr ⟨r, rfl⟩⟩
  · rename_i p
    simp only [finish_ok, Host.Outcome.next.injEq] at e
    exact .inl ⟨BitVec.eq_of_toNat_eq (Nat.eq_zero_of_not_pos p), e.symm⟩

theorem execSDHdr_cases {s t : State} (e : exec .sDHdr s = .next t) :
    t = { s with blk := t.blk, host := (inRead s.host).2 } ∧
    ((s.host.ansErr = true ∧ t.blk = errorEntry .ioError .header s.blk) ∨
     (s.host.ansErr = false ∧ s.host.inData.length ≤ s.host.icur ∧ t.blk = errorEntry .formatError .header s.blk) ∨
     (∃ x, s.host.ansErr = false ∧ s.host.inData[s.host.icur]? = some x ∧ s.blk.hdrIdx.toNat < 1024 ∧
      t.blk = { countIn (putHdrByte s.cfg.hdrByteOrder x s.blk) with
        hdrIdx := s.blk.hdrIdx + 1
        state := if s.blk.hdrIdx + 1 = 1024#11 then Code.sTInit else Code.sDHdr })) := by
  simp only [exec, execSDHdr] at e
  rcases inRead_cases s.host with ⟨r, q⟩ | ⟨r, l, q⟩ | ⟨x, r, i, q⟩ <;> rw [q] at e ⊢
  · simp only [dHdrStep, finish_raise, Host.Outcome.next.injEq] at e
    subst e; exact ⟨rfl, .inl ⟨r, rfl⟩⟩
  · simp only [dHdrStep, finish_raise, Host.Outcome.next.injEq] at e
    subst e; exact ⟨rfl, .inr (.inl ⟨r, l, rfl⟩)⟩
  · simp only [dHdrStep] at e
    split at e
    · simp only [finish_ok, Host.Outcome.next.injEq] at e
      subst e; exact ⟨rfl, .inr (.inr ⟨x, r, i, by assumption, rfl⟩)⟩
    · cases e

/-- One bit taken in the walk: the child it leads to, or no child. -/
theorem walkStep_cases (b : Block) :
    (∃ n c m, nodeAt b b.cur = .ok n ∧
      ((b.brBuf.getLsbD 7 = false ∧ n.lv = true ∧ c = n.l) ∨ (b.brBuf.getLsbD 7 = true ∧ n.rv = true ∧ c = n.r)) ∧
      nodeAt b c = .ok m ∧
      walkStep b = .ok { b with
        brBuf := b.brBuf <<< 1
        brCnt := b.brCnt - 1
        cur := c
        state := if isLeaf m then Code.sDEmit else Code.sDBit }) ∨
    (∃ n, nodeAt b b.cur = .ok n ∧
      ((b.brBuf.getLsbD 7 = false ∧ n.lv = false) ∨ (b.brBuf.getLsbD 7 = true ∧ n.rv = false)) ∧
      walkStep b = .error (.raise .formatError .bitDecode)) ∨
    (∃ h : Handle, 511 ≤ h.toNat ∧ walkStep b = .error (.fault (.noSuchEntry .node h.toNat))) := by
  have at_ (h : Handle) : (∃ n, nodeAt b h = .ok n) ∨
      (511 ≤ h.toNat ∧ nodeAt b h = .error (.fault (.noSuchEntry .node h.toNat))) := by
    by_cases p : h.toNat < 511
    · exact .inl ⟨_, nodeAt_ok p⟩
    · exact .inr ⟨by omega, by simp [nodeAt, p]⟩
  have t (h : Handle) : nodeAt (brTake b).2 h = nodeAt b h := rfl
  rcases at_ b.cur with ⟨n, q⟩ | ⟨le, q⟩
  · have q' : nodeAt (brTake b).2 (brTake b).2.cur = .ok n := q
    rcases hx : (brTake b).1 with - | -
    · have g : b.brBuf.getLsbD 7 = false := hx
      rcases lv : n.lv with - | -
      · exact .inr (.inl ⟨n, q, .inl ⟨g, lv⟩, by simp only [walkStep, bind, Except.bind, q', hx, childOf, lv]; rfl⟩)
      · rcases at_ n.l with ⟨m, qm⟩ | ⟨le, qm⟩
        · have qm' : nodeAt (brTake b).2 n.l = .ok m := qm
          exact .inl ⟨n, n.l, m, q, .inl ⟨g, lv, rfl⟩, qm, by
            simp only [walkStep, bind, Except.bind, q', hx, childOf, lv, if_true, qm']; rfl⟩
        · have qm' : nodeAt (brTake b).2 n.l = _ := qm
          exact .inr (.inr ⟨n.l, le, by
            simp only [walkStep, bind, Except.bind, q', hx, childOf, lv, if_true, qm']⟩)
    · have g : b.brBuf.getLsbD 7 = true := hx
      rcases rv : n.rv with - | -
      · exact .inr (.inl ⟨n, q, .inr ⟨g, rv⟩, by simp only [walkStep, bind, Except.bind, q', hx, childOf, rv]; rfl⟩)
      · rcases at_ n.r with ⟨m, qm⟩ | ⟨le, qm⟩
        · have qm' : nodeAt (brTake b).2 n.r = .ok m := qm
          exact .inl ⟨n, n.r, m, q, .inr ⟨g, rv, rfl⟩, qm, by
            simp only [walkStep, bind, Except.bind, q', hx, childOf, rv, if_true, qm']; rfl⟩
        · have qm' : nodeAt (brTake b).2 n.r = _ := qm
          exact .inr (.inr ⟨n.r, le, by
            simp only [walkStep, bind, Except.bind, q', hx, childOf, rv, if_true, qm']⟩)
  · have q' : nodeAt (brTake b).2 (brTake b).2.cur = _ := q
    exact .inr (.inr ⟨b.cur, le, by simp only [walkStep, bind, Except.bind, q']⟩)

/-- The block that S_D_BIT walks in, and the host's side, when it has a bit: a bit held, or a byte read. -/
def WalkFrom (s : State) (b : Block) (h : HostSide) : Prop :=
  (s.blk.brCnt ≠ 0 ∧ b = s.blk ∧ h = s.host) ∨
  (∃ x, s.blk.brCnt = 0 ∧ s.host.ansErr = false ∧ s.host.inData[s.host.icur]? = some x ∧
    b = brLoad x (countIn s.blk) ∧ h = (inRead s.host).2)

theorem execSDBit_cases {s t : State} (e : exec .sDBit s = .next t) :
    (s.blk.brCnt = 0 ∧ t = { s with blk := t.blk, host := (inRead s.host).2 } ∧
      ((s.host.ansErr = true ∧ t.blk = errorEntry .ioError .bitDecode s.blk) ∨
       (s.host.ansErr = false ∧ s.host.inData.length ≤ s.host.icur ∧
        t.blk = errorEntry .formatError .bitDecode s.blk))) ∨
    (∃ b h, WalkFrom s b h ∧ t = { s with blk := t.blk, host := h } ∧
      (walkStep b = .ok t.blk ∨
       (walkStep b = .error (.raise .formatError .bitDecode) ∧
        t.blk = errorEntry .formatError .bitDecode s.blk))) := by
  have walk {b : Block} {h : HostSide} (e : finish s h (walkStep b) = .next t) :
      t = { s with blk := t.blk, host := h } ∧
      (walkStep b = .ok t.blk ∨
       (walkStep b = .error (.raise .formatError .bitDecode) ∧
        t.blk = errorEntry .formatError .bitDecode s.blk)) := by
    rcases finish_next_cases e with ⟨c, q, rfl⟩ | ⟨c, g, q, rfl⟩
    · exact ⟨rfl, .inl q⟩
    · rcases walkStep_cases b with ⟨_, _, _, _, _, _, w⟩ | ⟨_, _, _, w⟩ | ⟨_, _, w⟩ <;> rw [w] at q <;> cases q
      exact ⟨rfl, .inr ⟨w, rfl⟩⟩
  simp only [exec, execSDBit] at e
  by_cases z : s.blk.brCnt = 0
  · simp only [z, if_true] at e
    rcases inRead_cases s.host with ⟨r, q⟩ | ⟨r, l, q⟩ | ⟨x, r, i, q⟩
    · refine .inl ⟨z, ?_⟩
      rw [q] at e ⊢
      simp only [dBitRefill, finish_raise, Host.Outcome.next.injEq] at e
      subst e; exact ⟨rfl, .inl ⟨r, rfl⟩⟩
    · refine .inl ⟨z, ?_⟩
      rw [q] at e ⊢
      simp only [dBitRefill, finish_raise, Host.Outcome.next.injEq] at e
      subst e; exact ⟨rfl, .inr ⟨r, l, rfl⟩⟩
    · rw [show (inRead s.host).1 = .byte x by rw [q]] at e
      exact .inr ⟨_, _, .inr ⟨x, z, r, i, rfl, rfl⟩, walk e⟩
  · simp only [z, if_false] at e
    exact .inr ⟨_, _, .inl ⟨z, rfl, rfl⟩, walk e⟩

theorem execSDEmit_cases {s t : State} (e : exec .sDEmit s = .next t) :
    ∃ n, nodeAt s.blk s.blk.cur = .ok n ∧ t = { s with blk := t.blk, host := (outWrite n.sym s.host).2 } ∧
    ((s.host.ansErr = true ∧ t.blk = errorEntry .ioError .bitDecode s.blk) ∨
     (s.host.ansErr = false ∧ s.blk.decCnt + 1 = s.blk.total ∧
      t.blk = complete { countOut s.blk with decCnt := s.blk.decCnt + 1, cur := s.blk.root }) ∨
     (s.host.ansErr = false ∧ s.blk.decCnt + 1 ≠ s.blk.total ∧
      t.blk = goto Code.sDBit { countOut s.blk with decCnt := s.blk.decCnt + 1, cur := s.blk.root })) := by
  simp only [exec, execSDEmit] at e
  by_cases p : s.blk.cur.toNat < 511
  · rw [nodeAt_ok p] at e
    refine ⟨_, nodeAt_ok p, ?_⟩
    rcases Bool.eq_false_or_eq_true s.host.ansErr with r | r
    · simp only [outWrite_err _ r] at e ⊢
      simp only [dEmitStep, finish_raise, Host.Outcome.next.injEq] at e
      subst e; exact ⟨rfl, .inl ⟨r, rfl⟩⟩
    · simp only [outWrite_ok _ r] at e ⊢
      simp only [dEmitStep] at e
      by_cases c : s.blk.decCnt + 1 = s.blk.total
      · have c' : s.blk.decCnt + 1 = (countOut s.blk).total := c
        simp only [c', if_true, finish_ok, Host.Outcome.next.injEq] at e
        subst e; exact ⟨rfl, .inr (.inl ⟨r, c, by rw [c]; rfl⟩)⟩
      · have c' : ¬ s.blk.decCnt + 1 = (countOut s.blk).total := c
        simp only [c', if_false, finish_ok, Host.Outcome.next.injEq] at e
        subst e; exact ⟨rfl, .inr (.inr ⟨r, c, rfl⟩)⟩
  · simp [nodeAt, p, finish] at e

end Sys2Proof.Machine
end

