-- ==== Sys2Proof/Laws/Tree.lean ====
section
/-! SUPPORT. What the tree builder and the code generator can do, said once: the leaves of S_T_INIT, one merge, the
single-symbol root, and the traversal. -/

namespace Sys2Proof.Machine

/-! Handles and frequencies when the arena grows. -/

theorem setWidth_toNat_of_lt {n : BitVec 10} (p : n.toNat < 511) : (n.setWidth 9).toNat = n.toNat := by
  rw [BitVec.toNat_setWidth]; omega

theorem succ_toNat_of_lt {n : BitVec 10} (p : n.toNat < 511) : (n + 1).toNat = n.toNat + 1 := by
  rw [BitVec.toNat_add]; simp; omega

/-- The block after a creation. -/
def grown (b : Block) (n : Node) (p : b.ncnt.toNat < 511) : Block :=
  { b with node := b.node.set b.ncnt.toNat n p, ncnt := b.ncnt + 1 }

/-- A creation keeps every other entry. -/
theorem grown_node (b : Block) (n : Node) (p : b.ncnt.toNat < 511) (k : Nat) (h : k ≠ b.ncnt.toNat) :
    (grown b n p).node[k]? = b.node[k]? := by
  by_cases q : k < 511
  · simp [grown, q, Ne.symm h]
  · simp [grown, q]

theorem grown_new (b : Block) (n : Node) (p : b.ncnt.toNat < 511) :
    (grown b n p).node[b.ncnt.toNat]? = some n := by simp [grown, p]

theorem freqOf_congr {b c : Block} {h : Handle} (e : c.node[h.toNat]? = b.node[h.toNat]?) : freqOf c h = freqOf b h := by
  simp only [freqOf, e]

theorem freqOf_grown (b : Block) (n : Node) (p : b.ncnt.toNat < 511) (h : Handle) (q : h.toNat ≠ b.ncnt.toNat) :
    freqOf (grown b n p) h = freqOf b h := freqOf_congr (grown_node b n p _ q)

theorem freqOf_grown_new (b : Block) (n : Node) (p : b.ncnt.toNat < 511) :
    freqOf (grown b n p) (b.ncnt.setWidth 9) = n.freq := by
  rw [freqOf, setWidth_toNat_of_lt p, grown_new]

/-- Insertion reads the frequencies of the handles at hand only. -/
theorem insertByFreq_congr {f g : Handle → Size} (h : Handle) (l : List Handle) (e : ∀ x ∈ h :: l, f x = g x) :
    insertByFreq f h l = insertByFreq g h l := by
  induction l with
  | nil => rfl
  | cons x xs ih =>
    have eh : f h = g h := e h (by simp)
    have ex : f x = g x := e x (by simp)
    unfold insertByFreq
    rw [eh, ex, ih fun y hy => e y (by
      rcases List.mem_cons.mp hy with rfl | hy
      · simp
      · simp [hy])]

theorem putWorklist_wlLen_toNat {l : List Handle} (b : Block) (h : l.length ≤ 256) :
    (putWorklist l b).wlLen.toNat = l.length := by
  simp only [putWorklist, BitVec.toNat_ofNat]; omega

/-! One merge (R162). -/

/-- The node that a merge of a and c makes. -/
abbrev mergedNode (b : Block) (a c : Handle) : Node := ⟨freqOf b a + freqOf b c, 0, true, a, true, c⟩

/-- All that a merge can commit. -/
theorem mergeOnce_inv {b d : Block} (e : mergeOnce b = .ok d) :
    ∃ a c rest, ∃ p : b.ncnt.toNat < 511, worklist b = a :: c :: rest ∧ b.wlLen.toNat ≤ 256 ∧ a.toNat < 511 ∧
      c.toNat < 511 ∧
      d = { grown b (mergedNode b a c) p with wl := d.wl, wlLen := d.wlLen } ∧
      worklist d = insertByFreq (freqOf d) (b.ncnt.setWidth 9) rest ∧ d.wlLen.toNat = rest.length + 1 := by
  unfold mergeOnce at e
  obtain ⟨⟨a, b1⟩, e1, e⟩ := bind_ok e
  obtain ⟨⟨c, b2⟩, e2, e⟩ := bind_ok e
  obtain ⟨na, ea, e⟩ := bind_ok e
  obtain ⟨nc, ec, e⟩ := bind_ok e
  obtain ⟨⟨m, b3⟩, e3, e⟩ := bind_ok e
  obtain ⟨len, r1, w1, rfl⟩ := removeHead_inv e1
  have l1 := worklist_length_le b
  rw [w1] at l1
  have l1' : r1.length ≤ 256 := by simp at l1; omega
  obtain ⟨_, rest, w2, rfl⟩ := removeHead_inv e2
  rw [worklist_putWorklist _ l1'] at w2
  subst w2
  have l2 : rest.length ≤ 254 := by simp at l1; omega
  obtain ⟨p, rfl, rfl⟩ := allocNode_inv e3
  obtain ⟨_, _, rfl⟩ := insertStable_inv e
  have pa : a.toNat < 511 := by
    unfold nodeAt at ea; split at ea
    · assumption
    · cases ea
  have pc : c.toNat < 511 := by
    unfold nodeAt at ec; split at ec
    · assumption
    · cases ec
  have fa : na.freq = freqOf b a := (freqOf_of_nodeAt ea).symm
  have fc : nc.freq = freqOf b c := (freqOf_of_nodeAt ec).symm
  refine ⟨a, c, rest, p, w1, len, pa, pc, ?_, ?_, ?_⟩
  · simp only [putWorklist, grown, fa, fc]; rfl
  · rw [worklist_putWorklist]
    · congr 1
      exact worklist_putWorklist (putWorklist (c :: rest) b) (l := rest) (by omega)
    · rw [insertByFreq_length]
      have : worklist (putWorklist rest (putWorklist (c :: rest) b)) = rest := worklist_putWorklist _ (by omega)
      show (worklist (putWorklist rest (putWorklist (c :: rest) b))).length + 1 ≤ 256
      rw [this]; omega
  · have : worklist (putWorklist rest (putWorklist (c :: rest) b)) = rest := worklist_putWorklist _ (by omega)
    rw [putWorklist_wlLen_toNat]
    · rw [insertByFreq_length]
      show (worklist (putWorklist rest (putWorklist (c :: rest) b))).length + 1 = _
      rw [this]
    · rw [insertByFreq_length]
      show (worklist (putWorklist rest (putWorklist (c :: rest) b))).length + 1 ≤ _
      rw [this]; omega

/-- A merge commits when there are two candidates, room in the arena, and every candidate is a created node. -/
theorem mergeOnce_ok {a c : Handle} {rest : List Handle} {b : Block} (w : worklist b = a :: c :: rest)
    (len : b.wlLen.toNat ≤ 256) (p : b.ncnt.toNat < 511) (old : ∀ h ∈ worklist b, h.toNat < b.ncnt.toNat) :
    ∃ d, mergeOnce b = .ok d := by
  have l := worklist_length_le b
  rw [w] at l old
  have l1 : (c :: rest).length ≤ 256 := by simp at l ⊢; omega
  have l2 : rest.length ≤ 254 := by simp at l; omega
  have pa : a.toNat < 511 := by have := old a (by simp); omega
  have pc : c.toNat < 511 := by have := old c (by simp); omega
  have e1 := removeHead_ok len w
  have e2 : removeHead (putWorklist (c :: rest) b) = .ok (c, putWorklist rest (putWorklist (c :: rest) b)) :=
    removeHead_ok (by rw [putWorklist_wlLen_toNat _ l1]; omega) (worklist_putWorklist _ l1)
  have w2 : worklist (putWorklist rest (putWorklist (c :: rest) b)) = rest := worklist_putWorklist _ (by omega)
  unfold mergeOnce
  rw [e1]; simp only [bind, Except.bind]
  rw [e2]; simp only []
  rw [nodeAt_ok (b := putWorklist rest (putWorklist (c :: rest) b)) pa]; simp only []
  rw [nodeAt_ok (b := putWorklist rest (putWorklist (c :: rest) b)) pc]; simp only []
  unfold newInternal
  rw [allocNode_ok (b := putWorklist rest (putWorklist (c :: rest) b)) _ p]; simp only []
  refine ⟨_, insertStable_ok ?_ ?_⟩
  · show (putWorklist rest (putWorklist (c :: rest) b)).wlLen.toNat < 256
    rw [putWorklist_wlLen_toNat _ (by omega)]; omega
  · rw [List.all_eq_true]
    intro x hx
    rcases List.mem_cons.mp hx with rfl | hx
    · have : ((putWorklist rest (putWorklist (c :: rest) b)).ncnt.setWidth 9).toNat < 511 := by
        show (b.ncnt.setWidth 9).toNat < 511
        rw [setWidth_toNat_of_lt p]; exact p
      simpa [inArena] using this
    · have hx : x ∈ worklist (putWorklist rest (putWorklist (c :: rest) b)) := hx
      rw [w2] at hx
      have := old x (by simp [hx])
      simp only [inArena, decide_eq_true_eq]; omega

/-! The single-symbol root (R163). -/

/-- All that `singleRoot` can commit. -/
theorem singleRoot_inv {b d : Block} (e : singleRoot b = .ok d) :
    ∃ l rest, ∃ p : b.ncnt.toNat < 511, worklist b = l :: rest ∧ l.toNat < 511 ∧
      d = { grown b ⟨freqOf b l, 0, true, l, false, 0⟩ p with
        wl := d.wl, wlLen := d.wlLen, root := b.ncnt.setWidth 9, rootV := true } ∧
      worklist d = rest ∧ d.wlLen.toNat = rest.length := by
  unfold singleRoot at e
  obtain ⟨⟨l, b1⟩, e1, e⟩ := bind_ok e
  obtain ⟨n, en, e⟩ := bind_ok e
  obtain ⟨⟨r, b2⟩, e2, e⟩ := bind_ok e
  obtain ⟨len, rest, w, rfl⟩ := removeHead_inv e1
  have l1 := worklist_length_le b
  rw [w] at l1
  have l1' : rest.length ≤ 256 := by simp at l1; omega
  obtain ⟨p, rfl, rfl⟩ := allocNode_inv e2
  have pl : l.toNat < 511 := by
    unfold nodeAt at en; split at en
    · assumption
    · cases en
  have f : n.freq = freqOf b l := (freqOf_of_nodeAt en).symm
  cases e
  refine ⟨l, rest, p, w, pl, ?_, ?_, ?_⟩
  · simp only [putWorklist, grown, f]; rfl
  · exact worklist_putWorklist b l1'
  · exact putWorklist_wlLen_toNat b l1'

theorem singleRoot_ok {l : Handle} {rest : List Handle} {b : Block} (w : worklist b = l :: rest)
    (len : b.wlLen.toNat ≤ 256) (p : b.ncnt.toNat < 511) (pl : l.toNat < 511) : ∃ d, singleRoot b = .ok d := by
  unfold singleRoot
  rw [removeHead_ok len w]; simp only [bind, Except.bind]
  rw [nodeAt_ok (b := putWorklist rest b) pl]; simp only []
  unfold newInternal
  rw [allocNode_ok (b := putWorklist rest b) _ p]
  exact ⟨_, rfl⟩

/-! The leaves of S_T_INIT (R156, R170). -/

/-- The symbols of a list with a non-zero count. -/
abbrev presentIn (b : Block) (l : List Byte) : List Byte := l.filter fun x => decide (histAt b x ≠ 0)

/-- The node of a symbol's leaf (R158, R170). -/
abbrev leafNode (b : Block) (x : Byte) : Node := ⟨(histAt b x).setWidth 64, x, false, 0, false, 0⟩

/-- Every candidate is a created node. -/
def Candidates (b : Block) : Prop := ∀ h ∈ worklist b, h.toNat < b.ncnt.toNat

/-- One leaf: its creation and its insertion. -/
theorem leafInsert {b c : Block} {n : Node} (p : b.ncnt.toNat < 511)
    (e : insertStable (b.ncnt.setWidth 9) (grown b n p) = .ok c) :
    c = { grown b n p with wl := c.wl, wlLen := c.wlLen } ∧
    worklist c = insertByFreq (freqOf c) (b.ncnt.setWidth 9) (worklist b) ∧
    c.wlLen.toNat = (worklist b).length + 1 := by
  obtain ⟨len, _, rfl⟩ := insertStable_inv e
  have w : worklist (grown b n p) = worklist b := rfl
  have l : (worklist b).length ≤ 255 := by
    have : b.wlLen.toNat < 256 := len
    rw [worklist_length b (by omega)]; omega
  have l' : (insertByFreq (freqOf (grown b n p)) (b.ncnt.setWidth 9) (worklist (grown b n p))).length ≤ 256 := by
    rw [insertByFreq_length, w]; omega
  refine ⟨rfl, ?_, ?_⟩
  · rw [worklist_putWorklist _ l']; rfl
  · rw [putWorklist_wlLen_toNat _ l', insertByFreq_length, w]

/-- All that the leaves can commit: the arena grows, the worklist changes, nothing else. -/
theorem buildLeaves_inv {l : List Byte} {b c : Block} (e : buildLeaves l b = .ok c) :
    c = { b with node := c.node, ncnt := c.ncnt, wl := c.wl, wlLen := c.wlLen } ∧ b.ncnt.toNat ≤ c.ncnt.toNat ∧
    ∀ k, k < b.ncnt.toNat → c.node[k]? = b.node[k]? := by
  induction l generalizing b with
  | nil => cases e; exact ⟨rfl, Nat.le_refl _, fun _ _ => rfl⟩
  | cons x xs ih =>
    unfold buildLeaves at e
    split at e
    · exact ih e
    · obtain ⟨⟨h, b1⟩, e1, e⟩ := bind_ok e
      obtain ⟨b2, e2, e3⟩ := bind_ok (show (insertStable h b1 >>= fun b2 => buildLeaves xs b2) = .ok c from e)
      obtain ⟨p, rfl, rfl⟩ := allocNode_inv e1
      obtain ⟨q, -, -⟩ := leafInsert p e2
      obtain ⟨r, n, k⟩ := ih e3
      have nb : b2.ncnt = b.ncnt + 1 := by rw [q]; rfl
      rw [nb, succ_toNat_of_lt p] at n k
      refine ⟨by rw [r, q]; rfl, by omega, fun j hj => ?_⟩
      rw [k j (by omega), q]
      exact grown_node b _ p j (by omega)

/-- The leaves are built when there is room: one for each present symbol, in the list's order. -/
theorem buildLeaves_ok (l : List Byte) (b : Block) (room : b.wlLen.toNat + (presentIn b l).length ≤ 256)
    (cap : b.ncnt.toNat + (presentIn b l).length ≤ 511) (old : Candidates b) :
    ∃ c, buildLeaves l b = .ok c ∧ c.ncnt.toNat = b.ncnt.toNat + (presentIn b l).length ∧
      c.wlLen.toNat = b.wlLen.toNat + (presentIn b l).length ∧ Candidates c ∧
      (∀ k (hk : k < (presentIn b l).length), c.node[b.ncnt.toNat + k]? = some (leafNode b (presentIn b l)[k])) ∧
      (worklist c).Perm (worklist b ++ (List.range' b.ncnt.toNat (presentIn b l).length).map (BitVec.ofNat 9)) ∧
      ((worklist b).Pairwise (sortsBefore b) → (worklist c).Pairwise (sortsBefore c)) := by
  induction l generalizing b with
  | nil => exact ⟨b, rfl, by simp, by simp, old, by simp, by simp, id⟩
  | cons x xs ih =>
    unfold buildLeaves
    by_cases z : histAt b x = 0
    · have f : presentIn b (x :: xs) = presentIn b xs := by
        rw [presentIn, List.filter_cons, if_neg (by simpa using z)]
      simp only [z, if_true]
      rw [f] at room cap ⊢
      exact ih b room cap old
    · have f : presentIn b (x :: xs) = x :: presentIn b xs := by
        rw [presentIn, List.filter_cons, if_pos (by simpa using z)]
      rw [f, List.length_cons] at room cap
      have p : b.ncnt.toNat < 511 := by omega
      have wl : (worklist b).length = b.wlLen.toNat := worklist_length b (by omega)
      simp only [z, if_false]
      unfold newLeaf
      rw [allocNode_ok _ p]
      simp only [bind, Except.bind]
      obtain ⟨c1, e1⟩ : ∃ c, insertStable (b.ncnt.setWidth 9) (grown b (leafNode b x) p) = .ok c := by
        refine ⟨_, insertStable_ok (show b.wlLen.toNat < 256 by omega) ?_⟩
        rw [List.all_eq_true]
        intro y hy
        rcases List.mem_cons.mp hy with rfl | hy
        · simp only [inArena, setWidth_toNat_of_lt p, p, decide_true]
        · have := old y hy
          simp only [inArena, decide_eq_true_eq]; omega
      obtain ⟨q, w, len⟩ := leafInsert p e1
      have e1' : insertStable (b.ncnt.setWidth 9) { b with
          node := b.node.set b.ncnt.toNat
            { freq := (histAt b x).setWidth 64, sym := x, lv := false, l := 0, rv := false, r := 0 } p
          ncnt := b.ncnt + 1 } = .ok c1 := e1
      rw [e1']
      simp only []
      have hist : c1.hist = b.hist := by rw [q]; rfl
      have pr (m : List Byte) : presentIn c1 m = presentIn b m := by
        have h : histAt c1 = histAt b := by funext y; simp only [histAt, hist]
        simp only [presentIn, h]
      have nc : c1.ncnt.toNat = b.ncnt.toNat + 1 := by
        rw [show c1.ncnt = b.ncnt + 1 by rw [q]; rfl]; exact succ_toNat_of_lt p
      have node (k : Nat) (hk : k ≠ b.ncnt.toNat) : c1.node[k]? = b.node[k]? := by
        rw [q]; exact grown_node b _ p k hk
      have new : c1.node[b.ncnt.toNat]? = some (leafNode b x) := by rw [q]; exact grown_new b _ p
      have old1 : Candidates c1 := by
        intro y hy
        rw [w, mem_insertByFreq] at hy
        rcases hy with rfl | hy
        · rw [setWidth_toNat_of_lt p]; omega
        · have := old y hy; omega
      obtain ⟨c, e, cn, cw, cc, cl, cp, cs⟩ := ih c1 (by rw [pr, len, wl]; omega) (by rw [pr, nc]; omega) old1
      have keep : ∀ k, k < c1.ncnt.toNat → c.node[k]? = c1.node[k]? := (buildLeaves_inv e).2.2
      rw [pr] at cn cw cl cp
      refine ⟨c, e, ?_, ?_, cc, ?_, ?_, fun s => cs ?_⟩
      · rw [f, cn, nc]; simp; omega
      · rw [f, cw, len, wl]; simp; omega
      · intro k hk
        rcases k with - | k
        · simp only [Nat.add_zero, f, List.getElem_cons_zero]
          rw [keep _ (by omega), new]
        · have hk' : k < (presentIn b xs).length := by rw [f] at hk; simpa using hk
          have := cl k hk'
          rw [nc] at this
          rw [show b.ncnt.toNat + (k + 1) = b.ncnt.toNat + 1 + k by omega, this]
          simp [f, leafNode, histAt, hist]
      · refine cp.trans ?_
        rw [f, List.length_cons, List.range'_succ, nc, List.map_cons]
        have h : (b.ncnt.setWidth 9 : Handle) = BitVec.ofNat 9 b.ncnt.toNat := by
          apply BitVec.eq_of_toNat_eq; rw [setWidth_toNat_of_lt p]; simp; omega
        rw [← h, w]
        exact (List.Perm.append_right _ (insertByFreq_perm _ _ _)).trans (List.perm_middle.symm)
      · rw [w]
        have fr : ∀ y ∈ worklist b, freqOf c1 y = freqOf b y := fun y hy =>
          freqOf_congr (node _ (by have := old y hy; omega))
        refine insertByFreq_sorted c1 _ _ (s.imp_of_mem fun {y z} hy hz r => ?_) fun y hy => ?_
        · simpa only [sortsBefore, fr y hy, fr z hz] using r
        · rw [BitVec.lt_def, setWidth_toNat_of_lt p]
          exact old y hy

/-! The traversal (R181). -/

theorem nodeAt_congr {b c : Block} (e : c.node = b.node) (h : Handle) : nodeAt c h = nodeAt b h := by
  simp only [nodeAt, e]

theorem follow_congr {b c : Block} (e : c.node = b.node) (h : Handle) (q : List Bool) :
    follow c h q = follow b h q := by
  induction q generalizing h with
  | nil => rfl
  | cons x xs ih => simp only [follow, nodeAt_congr e, ih]

/-- The path q leads from h to a leaf of symbol x. -/
def LeafPath (b : Block) (h : Handle) (q : List Bool) (x : Byte) : Prop :=
  ∃ g n, follow b h q = some g ∧ nodeAt b g = .ok n ∧ isLeaf n = true ∧ n.sym = x

theorem leafPath_congr {b c : Block} (e : c.node = b.node) (h : Handle) (q : List Bool) (x : Byte) :
    LeafPath c h q x ↔ LeafPath b h q x := by
  simp only [LeafPath, follow_congr e, nodeAt_congr e]

/-- Two visits in a row, left then right. -/
theorem visit_node_inv {k : Nat} {h : Handle} {p : List Bool} {b c : Block} (e : visit (k + 1) h p b = .ok c) :
    ∃ n, nodeAt b h = .ok n ∧
      ((isLeaf n = true ∧ c = setCode n.sym p b) ∨
       (isLeaf n = false ∧ ∃ b1,
        ((n.lv = true ∧ visit k n.l (p ++ [false]) b = .ok b1) ∨ (n.lv = false ∧ b1 = b)) ∧
        ((n.rv = true ∧ visit k n.r (p ++ [true]) b1 = .ok c) ∨ (n.rv = false ∧ c = b1)))) := by
  rw [visit_succ] at e
  obtain ⟨n, en, e⟩ := bind_ok e
  refine ⟨n, en, ?_⟩
  rcases Bool.eq_false_or_eq_true (isLeaf n) with l | l
  · rw [if_pos l] at e
    exact .inl ⟨l, (Except.ok.inj e).symm⟩
  · rw [if_neg (by simp [l])] at e
    obtain ⟨b1, e1, e2⟩ := bind_ok e
    refine .inr ⟨l, b1, ?_, ?_⟩
    · rcases Bool.eq_false_or_eq_true n.lv with v | v
      · exact .inl ⟨v, by simpa [v] using e1⟩
      · exact .inr ⟨v, by simpa [v] using e1.symm⟩
    · rcases Bool.eq_false_or_eq_true n.rv with v | v
      · exact .inl ⟨v, by simpa [v] using e2⟩
      · exact .inr ⟨v, by simpa [v] using e2.symm⟩

/-- A traversal writes the code table only. -/
theorem visit_inv {k : Nat} {h : Handle} {p : List Bool} {b c : Block} (e : visit k h p b = .ok c) :
    c = { b with codeLen := c.codeLen, codeBits := c.codeBits } := by
  induction k generalizing h p b c with
  | zero => cases e
  | succ k ih =>
    obtain ⟨n, -, ⟨-, rfl⟩ | ⟨-, b1, e1, e2⟩⟩ := visit_node_inv e
    · rfl
    · have q1 : b1 = { b with codeLen := b1.codeLen, codeBits := b1.codeBits } := by
        rcases e1 with ⟨-, e1⟩ | ⟨-, rfl⟩
        · exact ih e1
        · rfl
      have q2 : c = { b1 with codeLen := c.codeLen, codeBits := c.codeBits } := by
        rcases e2 with ⟨-, e2⟩ | ⟨-, rfl⟩
        · exact ih e2
        · rfl
      rw [q2, q1]

theorem visit_node {k : Nat} {h : Handle} {p : List Bool} {b c : Block} (e : visit k h p b = .ok c) :
    c.node = b.node := by rw [visit_inv e]

/-- The first bit of a path that leads to a leaf below a node. -/
theorem leafPath_cons {b : Block} {h : Handle} {n : Node} (en : nodeAt b h = .ok n) (y : Bool) (q : List Bool)
    (x : Byte) : LeafPath b h (y :: q) x ↔
      (y = false ∧ n.lv = true ∧ LeafPath b n.l q x) ∨ (y = true ∧ n.rv = true ∧ LeafPath b n.r q x) := by
  cases y
  · cases v : n.lv <;> simp [LeafPath, follow, en, v]
  · cases v : n.rv <;> simp [LeafPath, follow, en, v]

/-- The code table's entry for x holds the path q. -/
def Holds (b : Block) (x : Byte) (q : List Bool) : Prop :=
  codeLenAt b x = BitVec.ofNat 9 q.length ∧ codeBitsAt b x = packPath q

/-- Each entry that a traversal leaves is the old one or a path to a leaf of the symbol, at most 255 bits long. -/
theorem visit_entry {k : Nat} {h : Handle} {p : List Bool} {b c : Block} (fuel : k + p.length = 256)
    (e : visit k h p b = .ok c) (x : Byte) :
    (codeLenAt c x = codeLenAt b x ∧ codeBitsAt c x = codeBitsAt b x) ∨
    ∃ q, LeafPath b h q x ∧ Holds c x (p ++ q) ∧ (p ++ q).length ≤ 255 := by
  induction k generalizing h p b c with
  | zero => cases e
  | succ k ih =>
    obtain ⟨n, en, ⟨l, rfl⟩ | ⟨l, b1, e1, e2⟩⟩ := visit_node_inv e
    · by_cases s : n.sym = x
      · subst s
        exact .inr ⟨[], ⟨h, n, rfl, en, l, rfl⟩, by simp [Holds], by simp; omega⟩
      · exact .inl ⟨codeLenAt_setCode_ne b p s, codeBitsAt_setCode_ne b p s⟩
    · have n1 : b1.node = b.node := by
        rcases e1 with ⟨-, e1⟩ | ⟨-, rfl⟩
        · exact visit_node e1
        · rfl
      have left : (codeLenAt b1 x = codeLenAt b x ∧ codeBitsAt b1 x = codeBitsAt b x) ∨
          ∃ q, LeafPath b h q x ∧ Holds b1 x (p ++ q) ∧ (p ++ q).length ≤ 255 := by
        rcases e1 with ⟨v, e1⟩ | ⟨-, rfl⟩
        · rcases ih (by simp; omega) e1 with r | ⟨q, lp, hd, le⟩
          · exact .inl r
          · exact .inr ⟨false :: q, (leafPath_cons en ..).mpr (.inl ⟨rfl, v, lp⟩), by simpa using hd, by simpa using le⟩
        · exact .inl ⟨rfl, rfl⟩
      rcases e2 with ⟨v, e2⟩ | ⟨-, rfl⟩
      · rcases ih (by simp; omega) e2 with r | ⟨q, lp, hd, le⟩
        · simpa only [Holds, r.1, r.2] using left
        · exact .inr ⟨true :: q, (leafPath_cons en ..).mpr (.inr ⟨rfl, v, (leafPath_congr n1 ..).mp lp⟩),
            by simpa using hd, by simpa using le⟩
      · exact left

/-- Every leaf below h gives its symbol an entry: a path to a leaf of that symbol. -/
theorem visit_reaches {k : Nat} {h : Handle} {p : List Bool} {b c : Block} (fuel : k + p.length = 256)
    (e : visit k h p b = .ok c) {q : List Bool} {x : Byte} (lp : LeafPath b h q x) :
    ∃ q', LeafPath b h q' x ∧ Holds c x (p ++ q') ∧ (p ++ q').length ≤ 255 := by
  induction k generalizing h p b c q with
  | zero => cases e
  | succ k ih =>
    obtain ⟨n, en, ⟨l, rfl⟩ | ⟨l, b1, e1, e2⟩⟩ := visit_node_inv e
    · have lvrv : n.lv = false ∧ n.rv = false := by simpa [isLeaf] using l
      rcases q with - | ⟨y, q⟩
      · obtain ⟨g, m, f, em, -, rfl⟩ := lp
        simp only [follow, Option.some.injEq] at f
        subst f
        obtain rfl : n = m := by rw [en] at em; exact Except.ok.inj em
        exact ⟨[], ⟨h, n, rfl, en, l, rfl⟩, by simp [Holds], by simp; omega⟩
      · rw [leafPath_cons en, lvrv.1, lvrv.2] at lp; simp at lp
    · rcases q with - | ⟨y, q⟩
      · obtain ⟨g, m, f, em, lm, -⟩ := lp
        simp only [follow, Option.some.injEq] at f
        subst f
        obtain rfl : n = m := by rw [en] at em; exact Except.ok.inj em
        rw [l] at lm; cases lm
      · have n1 : b1.node = b.node := by
          rcases e1 with ⟨-, e1⟩ | ⟨-, rfl⟩
          · exact visit_node e1
          · rfl
        rcases (leafPath_cons en ..).mp lp with ⟨-, v, lp⟩ | ⟨-, v, lp⟩
        · obtain ⟨q', lp', hd, le⟩ : ∃ q', LeafPath b n.l q' x ∧ Holds b1 x (p ++ [false] ++ q') ∧
              (p ++ [false] ++ q').length ≤ 255 := by
            rcases e1 with ⟨-, e1⟩ | ⟨v', -⟩
            · exact ih (by simp; omega) e1 lp
            · rw [v] at v'; cases v'
          have here : LeafPath b h (false :: q') x := (leafPath_cons en ..).mpr (.inl ⟨rfl, v, lp'⟩)
          rcases e2 with ⟨v2, e2⟩ | ⟨-, rfl⟩
          · rcases visit_entry (by simp; omega) e2 x with r | ⟨q2, lp2, hd2, le2⟩
            · exact ⟨_, here, by simpa [Holds, r.1, r.2] using hd, by simpa using le⟩
            · exact ⟨true :: q2, (leafPath_cons en ..).mpr (.inr ⟨rfl, v2, (leafPath_congr n1 ..).mp lp2⟩),
                by simpa using hd2, by simpa using le2⟩
          · exact ⟨_, here, by simpa using hd, by simpa using le⟩
        · rcases e2 with ⟨-, e2⟩ | ⟨v', -⟩
          · obtain ⟨q', lp', hd, le⟩ := ih (by simp; omega) e2 ((leafPath_congr n1 ..).mpr lp)
            exact ⟨true :: q', (leafPath_cons en ..).mpr (.inr ⟨rfl, v, (leafPath_congr n1 ..).mp lp'⟩),
              by simpa using hd, by simpa using le⟩
          · rw [v] at v'; cases v'

theorem fullTree_congr {b c : Block} (n : c.node = b.node) (m : c.ncnt = b.ncnt) {h : Handle} {k d : Nat}
    (t : FullTree b h k d) : FullTree c h k d := by
  have cn (g : Handle) : createdNode c g = createdNode b g := by simp only [createdNode, n, m]
  have fq (g : Handle) : freqOf c g = freqOf b g := by simp only [freqOf, n]
  induction t with
  | leaf h n hn hl => exact .leaf h n (by rw [cn]; exact hn) hl
  | node h n k₁ d₁ k₂ d₂ hn hlv hrv hl hr hf _ _ ih₁ ih₂ =>
    exact .node h n k₁ d₁ k₂ d₂ (by rw [cn]; exact hn) hlv hrv hl hr (by rw [fq, fq]; exact hf) ih₁ ih₂

/-- A full tree's depth is below its number of leaves (R186). -/
theorem fullTree_depth {b : Block} {h : Handle} {k d : Nat} (t : FullTree b h k d) : d + 1 ≤ k := by
  induction t with
  | leaf => omega
  | node h n k₁ d₁ k₂ d₂ _ _ _ _ _ _ _ _ ih₁ ih₂ => omega

/-- The traversal of a full tree completes when the longest path fits. -/
theorem visit_full {b : Block} {h : Handle} {k d : Nat} (t : FullTree b h k d) (fuel : Nat) (f : d < fuel)
    (p : List Bool) (c : Block) (n : c.node = b.node) : ∃ r, visit fuel h p c = .ok r := by
  induction t generalizing fuel p c with
  | leaf h m hn hl =>
    obtain ⟨fuel, rfl⟩ : ∃ j, fuel = j + 1 := ⟨fuel - 1, by omega⟩
    rw [visit_succ, nodeAt_congr n, createdNode_nodeAt hn]
    exact ⟨setCode m.sym p c, if_pos hl⟩
  | node h m k₁ d₁ k₂ d₂ hn hlv hrv hl hr hf _ _ ih₁ ih₂ =>
    obtain ⟨fuel, rfl⟩ : ∃ j, fuel = j + 1 := ⟨fuel - 1, by omega⟩
    obtain ⟨r1, e1⟩ := ih₁ fuel (by omega) (p ++ [false]) c n
    obtain ⟨r2, e2⟩ := ih₂ fuel (by omega) (p ++ [true]) r1 (by rw [visit_node e1, n])
    rw [visit_succ, nodeAt_congr n, createdNode_nodeAt hn]
    refine ⟨r2, ?_⟩
    have l : isLeaf m = false := by simp [isLeaf, hlv]
    simp only [bind, Except.bind, l, hlv, hrv, if_true, e1, e2]
    rfl

/-! The counts (R155, R170). -/

theorem allSymbols_length : allSymbols.length = 256 := by simp [allSymbols]

/-- HIST as a list, by symbol. -/
theorem hist_toList (b : Block) : b.hist.toList = allSymbols.map (histAt b) := by
  apply List.ext_getElem
  · simp [allSymbols]
  · intro i h1 h2
    have hi : i < 256 := by simpa using h1
    simp [allSymbols, histAt, show i % 256 = i by omega]

/-- A sum of counts that cannot wrap. -/
theorem sum_toNat (l : List Word) (a : Size) (room : a.toNat + l.length * 2 ^ 32 < 2 ^ 64) :
    (l.foldl (fun s v => s + v.setWidth 64) a).toNat = a.toNat + (l.map BitVec.toNat).sum ∧
    (l.map BitVec.toNat).sum ≤ l.length * (2 ^ 32 - 1) := by
  induction l generalizing a with
  | nil => simp
  | cons v vs ih =>
    have hv := v.isLt
    simp only [List.length_cons] at room
    have ha : (a + v.setWidth 64).toNat = a.toNat + v.toNat := by
      rw [BitVec.toNat_add, BitVec.toNat_setWidth]; omega
    obtain ⟨h1, h2⟩ := ih (a + v.setWidth 64) (by rw [ha]; omega)
    simp only [List.foldl_cons, List.map_cons, List.sum_cons, List.length_cons, h1, ha]
    omega

/-- R28, R170: TOTAL is the sum of the counts, below 2^40. -/
theorem histTotal_toNat (b : Block) :
    (histTotal b).toNat = (allSymbols.map fun x => (histAt b x).toNat).sum ∧ (histTotal b).toNat < 2 ^ 40 := by
  obtain ⟨h1, h2⟩ := sum_toNat b.hist.toList 0 (by simp)
  have e : (histTotal b).toNat = (b.hist.toList.map BitVec.toNat).sum := by simpa [histTotal] using h1
  refine ⟨?_, ?_⟩
  · rw [e, hist_toList, List.map_map]; rfl
  · rw [e]; simp at h2; omega

/-- R29, R155: DISTINCT is the number of present symbols, at most 256. -/
theorem histDistinct_toNat (b : Block) :
    (histDistinct b).toNat = (presentSymbols b).length ∧ (presentSymbols b).length ≤ 256 := by
  have l : (presentSymbols b).length ≤ 256 := by
    have := List.length_filter_le (fun s => decide (histAt b s ≠ 0)) allSymbols
    rw [allSymbols_length] at this; exact this
  refine ⟨?_, l⟩
  have e : b.hist.toList.countP (· ≠ 0) = (presentSymbols b).length := by
    rw [hist_toList, List.countP_map, presentSymbols, List.countP_eq_length_filter]; rfl
  rw [histDistinct, e, BitVec.toNat_ofNat]; omega

/-! Trees and forests as the arena grows. -/

/-- A tree stays when the arena grows above it. -/
theorem fullTree_grow {b c : Block} (n : ∀ k, k < b.ncnt.toNat → c.node[k]? = b.node[k]?)
    (m : b.ncnt.toNat ≤ c.ncnt.toNat) {h : Handle} {k d : Nat} (t : FullTree b h k d) : FullTree c h k d := by
  have cn {g : Handle} {x : Node} (e : createdNode b g = some x) : createdNode c g = some x ∧ freqOf c g = freqOf b g := by
    unfold createdNode at e ⊢
    split at e
    · rename_i lt
      exact ⟨by rw [if_pos (by omega), n _ lt, e], freqOf_congr (n _ lt)⟩
    · cases e
  have cf {g : Handle} {k d : Nat} (t : FullTree b g k d) : freqOf c g = freqOf b g := by
    cases t with
    | leaf _ _ hn _ => exact (cn hn).2
    | node _ _ _ _ _ _ hn _ _ _ _ _ _ _ => exact (cn hn).2
  induction t with
  | leaf h n hn hl => exact .leaf h n (cn hn).1 hl
  | node h n k₁ d₁ k₂ d₂ hn hlv hrv hl hr hf tl tr ih₁ ih₂ =>
    exact .node h n k₁ d₁ k₂ d₂ (cn hn).1 hlv hrv hl hr (by rw [cf tl, cf tr]; exact hf) ih₁ ih₂

theorem fullTree_lt {b : Block} {h : Handle} {k d : Nat} (t : FullTree b h k d) : h.toNat < b.ncnt.toNat := by
  have cn {g : Handle} {x : Node} (e : createdNode b g = some x) : g.toNat < b.ncnt.toNat := by
    unfold createdNode at e
    split at e
    · assumption
    · cases e
  cases t with
  | leaf _ _ hn _ => exact cn hn
  | node _ _ _ _ _ _ hn _ _ _ _ _ _ _ => exact cn hn

theorem fullTree_leaves {b : Block} {h : Handle} {k d : Nat} (t : FullTree b h k d) : 1 ≤ k := by
  have := fullTree_depth t; omega

theorem forest_grow {b c : Block} (n : ∀ k, k < b.ncnt.toNat → c.node[k]? = b.node[k]?)
    (m : b.ncnt.toNat ≤ c.ncnt.toNat) {l : List Handle} {k : Nat} (t : Forest b l k) : Forest c l k := by
  induction t with
  | nil => exact .nil
  | cons h hs k d m' t _ ih => exact .cons h hs k d m' (fullTree_grow n m t) ih

theorem forest_insert {b : Block} {f : Handle → Size} {h : Handle} {k d : Nat} (t : FullTree b h k d)
    {l : List Handle} {m : Nat} (fo : Forest b l m) : Forest b (insertByFreq f h l) (m + k) := by
  induction fo with
  | nil => rw [Nat.zero_add]; exact .cons h [] k d 0 t .nil
  | cons x xs k' d' m' tx fx ih =>
    unfold insertByFreq
    split
    · rw [Nat.add_comm]; exact .cons h (x :: xs) k d _ t (.cons x xs k' d' m' tx fx)
    · rw [Nat.add_assoc]; exact .cons x _ k' d' _ tx ih

theorem forest_lt {b : Block} {l : List Handle} {m : Nat} (fo : Forest b l m) : ∀ h ∈ l, h.toNat < b.ncnt.toNat := by
  induction fo with
  | nil => simp
  | cons x xs k d m' t _ ih =>
    intro h hh
    rcases List.mem_cons.mp hh with rfl | hh
    · exact fullTree_lt t
    · exact ih h hh

theorem forest_leaves {b : Block} {l : List Handle} {m : Nat} (fo : Forest b l m) : l.length ≤ m := by
  induction fo with
  | nil => simp
  | cons x xs k d m' t _ ih => have := fullTree_leaves t; simp; omega

theorem codeTree_congr {b c : Block} (n : c.node = b.node) (m : c.ncnt = b.ncnt) {h : Handle} (t : CodeTree b h) :
    CodeTree c h := by
  have cn (g : Handle) : createdNode c g = createdNode b g := by simp only [createdNode, n, m]
  cases t with
  | full k d t two many => exact .full k d (fullTree_congr n m t) two many
  | single n m hn hlv hrv hm hl => exact .single n m ((cn _).trans hn) hlv hrv ((cn _).trans hm) hl

theorem walkAt_congr {b c : Block} (n : c.node = b.node) (m : c.ncnt = b.ncnt) {h : Handle} {d : Nat}
    (t : WalkAt b h d) : WalkAt c h d := by
  have cn (g : Handle) : createdNode c g = createdNode b g := by simp only [createdNode, n, m]
  cases t with
  | full k d t many => exact .full k d (fullTree_congr n m t) many
  | single t one => exact .single (codeTree_congr n m t) (by obtain ⟨x, a, b⟩ := one; exact ⟨x, (cn _).trans a, b⟩)

theorem atInternal_congr {b c : Block} (n : c.node = b.node) (m : c.ncnt = b.ncnt) {h : Handle}
    (t : atInternal b h) : atInternal c h := by
  have cn (g : Handle) : createdNode c g = createdNode b g := by simp only [createdNode, n, m]
  obtain ⟨x, a, b⟩ := t; exact ⟨x, (cn _).trans a, b⟩

theorem atLeaf_congr {b c : Block} (n : c.node = b.node) (m : c.ncnt = b.ncnt) {h : Handle}
    (t : atLeaf b h) : atLeaf c h := by
  have cn (g : Handle) : createdNode c g = createdNode b g := by simp only [createdNode, n, m]
  obtain ⟨x, a, b⟩ := t; exact ⟨x, (cn _).trans a, b⟩

end Sys2Proof.Machine
end

