-- ==== Sys2Proof/Tests/Slice0.lean ====
section
/-! SUPPORT. The model's own tests: each check of WellFormed on an ill-formed term; the word of each row of the opcode
table, written out, decodes to its instruction, and step runs it; the vectors of spec/95_test_vectors.md, one step or one
primitive each; and, for every statement with hypotheses, a concrete input that meets them. -/

namespace Sys2Proof.Tests

open Sys2Proof Sys2Proof.Machine

set_option Elab.async false

/-! ## Helpers -/

/-- The answer is a next state that p holds of. -/
def after (o : Host.Outcome State Fault Refusal) (p : State → Bool) : Bool :=
  match o with
  | .next t => p t
  | .fault _ => false
  | .refused _ => false

theorem next_of_after {o : Host.Outcome State Fault Refusal} {p : State → Bool} (h : after o p = true) :
    ∃ t, o = .next t ∧ p t = true := by
  match o, h with
  | .next t, h => exact ⟨t, rfl, h⟩

/-- The computation of a step commits a block that p holds of. -/
def commits (m : Micro) (p : Block → Bool) : Bool :=
  match m with
  | .ok b => p b
  | .error _ => false

/-- A state with a block, the bytes the host has bound, the cursor, and the host's answer for the next transaction. -/
def st (b : Block) (inp : List Byte) (cur : Nat) (ansErr : Bool) : State :=
  ⟨⟨.le⟩, b, { HostSide.initial with inData := inp, icur := cur, ansErr := ansErr }⟩

/-- A state with a block and the host's schedule. -/
def sched (b : Block) (agenda : List HostEvent) : State :=
  ⟨⟨.le⟩, b, { HostSide.initial with agenda := agenda }⟩

/-- A running block in a sequencer state. -/
def running (mode : BitVec 2) (code : BitVec 5) : Block :=
  { Block.reset with busy := true, mode := mode, state := code }

def leaf (f : Size) (s : Byte) : Node := ⟨f, s, false, 0, false, 0⟩

def inner (f : Size) (l r : Handle) : Node := ⟨f, 0, true, l, true, r⟩

/-- The tree of R172, for "abracadabra": the root is 8. -/
def tree172 (b : Block) : Block :=
  { b with
    node := ((((((((b.node.set 0 (leaf 5 0x61)).set 1 (leaf 2 0x62)).set 2 (leaf 1 0x63)).set 3 (leaf 1 0x64)).set 4
      (leaf 2 0x72)).set 5 (inner 2 2 3)).set 6 (inner 4 1 4)).set 7 (inner 6 5 6)).set 8 (inner 11 0 7)
    ncnt := 9, root := 8, rootV := true, total := 11, distinct := 5, cur := 8 }

/-- A tree over 'a' and 'b', one occurrence each: the root is 2. -/
def treeAB (b : Block) : Block :=
  { b with
    node := ((b.node.set 0 (leaf 1 0x61)).set 1 (leaf 1 0x62)).set 2 (inner 2 0 1)
    ncnt := 3, root := 2, rootV := true, total := 2, distinct := 2, cur := 2 }

/-- The tree of vector T9, for "AAA": the root is 1. -/
def treeA (b : Block) : Block :=
  { b with
    node := (b.node.set 0 (leaf 3 0x41)).set 1 ⟨3, 0, true, 0, false, 0⟩
    ncnt := 2, root := 1, rootV := true, total := 3, distinct := 1, cur := 1 }

/-- The worklist and the arena right before the only merge of "ab". -/
def mergeAB (b : Block) : Block :=
  { b with
    node := (b.node.set 0 (leaf 1 0x61)).set 1 (leaf 1 0x62)
    ncnt := 2, wl := (b.wl.set 0 0).set 1 1, wlLen := 2, total := 2, distinct := 2 }

/-! ## WellFormed refuses -/

theorem test_wellFormed_refuses_ack : (Instr.ack (2 ^ 28)).wellFormed = false := by decide
theorem test_wellFormed_refuses_encode : (Instr.encode (2 ^ 28)).wellFormed = false := by decide
theorem test_wellFormed_refuses_decode : (Instr.decode (2 ^ 28)).wellFormed = false := by decide
theorem test_wellFormed_refuses_cmdReserved3 : (Instr.cmdReserved3 (2 ^ 28)).wellFormed = false := by decide
theorem test_wellFormed_refuses_cmdReserved4 : (Instr.cmdReserved4 (2 ^ 28)).wellFormed = false := by decide
theorem test_wellFormed_refuses_cmdReserved5 : (Instr.cmdReserved5 (2 ^ 28)).wellFormed = false := by decide
theorem test_wellFormed_refuses_cmdReserved6 : (Instr.cmdReserved6 (2 ^ 28)).wellFormed = false := by decide
theorem test_wellFormed_refuses_cmdReserved7 : (Instr.cmdReserved7 (2 ^ 28)).wellFormed = false := by decide
theorem test_wellFormed_refuses_cmdReserved8 : (Instr.cmdReserved8 (2 ^ 28)).wellFormed = false := by decide
theorem test_wellFormed_refuses_cmdReserved9 : (Instr.cmdReserved9 (2 ^ 28)).wellFormed = false := by decide
theorem test_wellFormed_refuses_cmdReservedA : (Instr.cmdReservedA (2 ^ 28)).wellFormed = false := by decide
theorem test_wellFormed_refuses_cmdReservedB : (Instr.cmdReservedB (2 ^ 28)).wellFormed = false := by decide
theorem test_wellFormed_refuses_cmdReservedC : (Instr.cmdReservedC (2 ^ 28)).wellFormed = false := by decide
theorem test_wellFormed_refuses_cmdReservedD : (Instr.cmdReservedD (2 ^ 28)).wellFormed = false := by decide
theorem test_wellFormed_refuses_cmdReservedE : (Instr.cmdReservedE (2 ^ 28)).wellFormed = false := by decide
theorem test_wellFormed_refuses_cmdReservedF : (Instr.cmdReservedF (2 ^ 28)).wellFormed = false := by decide

/-! ## Decoding: words written out from R91 and R95. Each command has its bits [31:4] 0 or a mix; R92. -/

theorem test_decode_ack : decode [0xA0#8, 0x00#8, 0x00#8, 0x80#8] = .ok (.ack 0x800000A) := by decide
theorem test_decode_encode : decode [0xA1#8, 0x00#8, 0x00#8, 0x80#8] = .ok (.encode 0x800000A) := by decide
theorem test_decode_decode : decode [0xA2#8, 0x00#8, 0x00#8, 0x80#8] = .ok (.decode 0x800000A) := by decide
theorem test_decode_cmdReserved3 : decode [0xA3#8, 0x00#8, 0x00#8, 0x80#8] = .ok (.cmdReserved3 0x800000A) := by decide
theorem test_decode_cmdReserved4 : decode [0xA4#8, 0x00#8, 0x00#8, 0x80#8] = .ok (.cmdReserved4 0x800000A) := by decide
theorem test_decode_cmdReserved5 : decode [0xA5#8, 0x00#8, 0x00#8, 0x80#8] = .ok (.cmdReserved5 0x800000A) := by decide
theorem test_decode_cmdReserved6 : decode [0xA6#8, 0x00#8, 0x00#8, 0x80#8] = .ok (.cmdReserved6 0x800000A) := by decide
theorem test_decode_cmdReserved7 : decode [0xA7#8, 0x00#8, 0x00#8, 0x80#8] = .ok (.cmdReserved7 0x800000A) := by decide
theorem test_decode_cmdReserved8 : decode [0xA8#8, 0x00#8, 0x00#8, 0x80#8] = .ok (.cmdReserved8 0x800000A) := by decide
theorem test_decode_cmdReserved9 : decode [0xA9#8, 0x00#8, 0x00#8, 0x80#8] = .ok (.cmdReserved9 0x800000A) := by decide
theorem test_decode_cmdReservedA : decode [0xAA#8, 0x00#8, 0x00#8, 0x80#8] = .ok (.cmdReservedA 0x800000A) := by decide
theorem test_decode_cmdReservedB : decode [0xAB#8, 0x00#8, 0x00#8, 0x80#8] = .ok (.cmdReservedB 0x800000A) := by decide
theorem test_decode_cmdReservedC : decode [0xAC#8, 0x00#8, 0x00#8, 0x80#8] = .ok (.cmdReservedC 0x800000A) := by decide
theorem test_decode_cmdReservedD : decode [0xAD#8, 0x00#8, 0x00#8, 0x80#8] = .ok (.cmdReservedD 0x800000A) := by decide
theorem test_decode_cmdReservedE : decode [0xAE#8, 0x00#8, 0x00#8, 0x80#8] = .ok (.cmdReservedE 0x800000A) := by decide
theorem test_decode_cmdReservedF : decode [0xAF#8, 0x00#8, 0x00#8, 0x80#8] = .ok (.cmdReservedF 0x800000A) := by decide
theorem test_decode_sIdle : decode [0x00#8] = .ok .sIdle := by decide
theorem test_decode_sECount : decode [0x01#8] = .ok .sECount := by decide
theorem test_decode_sERewind : decode [0x02#8] = .ok .sERewind := by decide
theorem test_decode_sTInit : decode [0x03#8] = .ok .sTInit := by decide
theorem test_decode_sTMerge : decode [0x04#8] = .ok .sTMerge := by decide
theorem test_decode_sCGen : decode [0x05#8] = .ok .sCGen := by decide
theorem test_decode_sEHdr : decode [0x06#8] = .ok .sEHdr := by decide
theorem test_decode_sERead : decode [0x07#8] = .ok .sERead := by decide
theorem test_decode_sEBit : decode [0x08#8] = .ok .sEBit := by decide
theorem test_decode_sEWrite : decode [0x09#8] = .ok .sEWrite := by decide
theorem test_decode_sEFlush : decode [0x0A#8] = .ok .sEFlush := by decide
theorem test_decode_sDHdr : decode [0x0B#8] = .ok .sDHdr := by decide
theorem test_decode_sDBit : decode [0x0C#8] = .ok .sDBit := by decide
theorem test_decode_sDEmit : decode [0x0D#8] = .ok .sDEmit := by decide
theorem test_decode_sReserved0E : decode [0x0E#8] = .ok .sReserved0E := by decide
theorem test_decode_sReserved0F : decode [0x0F#8] = .ok .sReserved0F := by decide
theorem test_decode_sReserved10 : decode [0x10#8] = .ok .sReserved10 := by decide
theorem test_decode_sReserved11 : decode [0x11#8] = .ok .sReserved11 := by decide
theorem test_decode_sReserved12 : decode [0x12#8] = .ok .sReserved12 := by decide
theorem test_decode_sReserved13 : decode [0x13#8] = .ok .sReserved13 := by decide
theorem test_decode_sReserved14 : decode [0x14#8] = .ok .sReserved14 := by decide
theorem test_decode_sReserved15 : decode [0x15#8] = .ok .sReserved15 := by decide
theorem test_decode_sReserved16 : decode [0x16#8] = .ok .sReserved16 := by decide
theorem test_decode_sReserved17 : decode [0x17#8] = .ok .sReserved17 := by decide
theorem test_decode_sReserved18 : decode [0x18#8] = .ok .sReserved18 := by decide
theorem test_decode_sReserved19 : decode [0x19#8] = .ok .sReserved19 := by decide
theorem test_decode_sReserved1A : decode [0x1A#8] = .ok .sReserved1A := by decide
theorem test_decode_sReserved1B : decode [0x1B#8] = .ok .sReserved1B := by decide
theorem test_decode_sReserved1C : decode [0x1C#8] = .ok .sReserved1C := by decide
theorem test_decode_sReserved1D : decode [0x1D#8] = .ok .sReserved1D := by decide
theorem test_decode_sReserved1E : decode [0x1E#8] = .ok .sReserved1E := by decide
theorem test_decode_sReserved1F : decode [0x1F#8] = .ok .sReserved1F := by decide

theorem test_decode_rejects_no_bytes : decode [] = .error .noBytes := by decide
theorem test_decode_rejects_two_bytes : decode [1#8, 0#8] = .error (.badLength 2) := by decide

/-- R96: bits above STATE are outside the mask. -/
theorem test_decode_state_mask : decode [0xE1#8] = .ok .sECount := by decide

/-! The rows as the opcode table numbers them. -/

theorem test_table_ack : decodeTableWord 32 0x0 = some (.ack 0) := by decide
theorem test_table_cmdReservedF : decodeTableWord 32 0xF = some (.cmdReservedF 0) := by decide
theorem test_table_sDEmit : decodeTableWord 8 0x0D = some .sDEmit := by decide
theorem test_table_none : decodeTableWord 40 0 = none := by decide

/-- A placed STATE code is the next step's instruction. -/
theorem test_fetch_sERewind :
    after (step (State.reset.withFetchWord 8 0x02)) (fun t => t.blk.state = Code.sTInit) = true := by decide +kernel

/-- A placed command word is the host's next CMD write. -/
theorem test_fetch_encode :
    after (step (State.reset.withFetchWord 32 0x1)) (fun t => statusWord t.blk = 0x00000111#32) = true := by
  decide +kernel

/-! ## The vectors of spec/95_test_vectors.md -/

/-- K1. -/
theorem test_encode_K1 : after (step (sched Block.reset [.write 0 .word 0x00000001#32]))
    (fun t => statusWord t.blk = 0x00000111#32 && errorWord t.blk = 0x00#32) = true := by decide +kernel

/-- K7. -/
theorem test_encode_K7 : after (step (sched Block.reset [.write 0 .word 0xFFFFFFF1#32]))
    (fun t => statusWord t.blk = 0x00000111#32 && errorWord t.blk = 0x00#32) = true := by decide +kernel

/-- K2. -/
theorem test_decode_K2 : after (step (sched Block.reset [.write 0 .word 0x00000002#32]))
    (fun t => statusWord t.blk = 0x00000B21#32 && errorWord t.blk = 0x00#32) = true := by decide +kernel

/-- K8. -/
theorem test_decode_busy_K8 : after (step (sched (running 1 Code.sERead) [.write 0 .word 0x00000002#32]))
    (fun t => statusWord t.blk = 0x00000719#32 && errorWord t.blk = 0x00#32) = true := by decide +kernel

/-- K4. -/
theorem test_ack_K4 : after (step (sched { Block.reset with err := true, mode := 1, errCode := .ioError, errStage := .header } [.write 0 .word 0x00000000#32]))
    (fun t => statusWord t.blk = 0x00000010#32 && errorWord t.blk = 0x00#32) = true := by decide +kernel

/-- K9. -/
theorem test_ack_busy_K9 : after (step (sched { running 1 Code.sERead with rej := true } [.write 0 .word 0x00000000#32]))
    (fun t => statusWord t.blk = 0x00000719#32 && errorWord t.blk = 0x00#32) = true := by decide +kernel

/-- K5. -/
theorem test_cmdReservedF_K5 : after (step (sched Block.reset [.write 0 .word 0x0000000F#32]))
    (fun t => statusWord t.blk = 0x00000004#32 && errorWord t.blk = 0x76#32) = true := by decide +kernel

/-- K6. -/
theorem test_cmdReserved3_K6 : after (step (sched Block.reset [.write 0 .word 0x00000003#32]))
    (fun t => statusWord t.blk = 0x00000004#32 && errorWord t.blk = 0x76#32) = true := by decide +kernel

/-- K11. -/
theorem test_cmdReserved5_K11 : after (step (sched { Block.reset with err := true, mode := 1, errCode := .ioError, errStage := .bitEncode } [.write 0 .word 0x00000005#32]))
    (fun t => statusWord t.blk = 0x00000014#32 && errorWord t.blk = 0x76#32) = true := by decide +kernel

/-- K12. -/
theorem test_cmdReserved4_K12 : after (step (sched { Block.reset with done := true, mode := 1 } [.write 0 .word 0x00000004#32]))
    (fun t => statusWord t.blk = 0x00000014#32 && errorWord t.blk = 0x76#32) = true := by decide +kernel

/-- F3. -/
theorem test_sECount_F3 : after (exec .sECount (st { running 1 Code.sECount with
      hist := Block.reset.hist.set 0x41 0xFFFFFFFE, inSize := 5 } [0x41] 0 false))
    (fun t => histAt t.blk 0x41 = 0xFFFFFFFF#32 && t.blk.inSize = 6 && t.host.icur = 1) = true := by decide +kernel

/-- F4. -/
theorem test_sECount_F4 : after (exec .sECount (st { running 1 Code.sECount with
      hist := Block.reset.hist.set 0x41 0xFFFFFFFF, inSize := 5 } [0x41] 0 false))
    (fun t => errorWord t.blk = 0x14#32 && statusWord t.blk = 0x14#32 && histAt t.blk 0x41 = 0xFFFFFFFF#32 &&
      t.blk.inSize = 5 && t.host.icur = 1) = true := by decide +kernel

/-- F7. -/
theorem test_sERewind_F7 : after (exec .sERewind (st (running 1 Code.sERewind) [1, 2] 2 false))
    (fun t => t.host.icur = 0 && t.blk.state = 0x03#5) = true := by decide +kernel

/-- F8. -/
theorem test_sERewind_F8 : after (exec .sERewind (st (running 1 Code.sERewind) [1, 2] 2 true))
    (fun t => errorWord t.blk = 0x11#32 && statusWord t.blk = 0x14#32) = true := by decide +kernel

/-- T2: an equal frequency goes after the existing ones. -/
theorem test_insertStable_T2 : commits (insertStable 4 { Block.reset with
      node := (((Block.reset.node.set 2 (leaf 1 0)).set 3 (leaf 1 0)).set 1 (leaf 2 0)).set 4 (leaf 2 0)
      wl := ((Block.reset.wl.set 0 2).set 1 3).set 2 1, wlLen := 3, ncnt := 5 })
    (fun b => worklist b = [2, 3, 1, 4]) = true := by decide +kernel

/-- R161: from [2, 3, 1, 4, 0] it returns 2 and leaves [3, 1, 4, 0]. -/
theorem test_removeHead_R161 : (match removeHead { Block.reset with
      wl := (((Block.reset.wl.set 0 2).set 1 3).set 2 1).set 3 4, wlLen := 5 } with
    | .ok (h, b) => h = 2 && worklist b = [3, 1, 4, 0]
    | .error _ => false) = true := by decide +kernel

/-- T9. -/
theorem test_sTInit_T9 : after (exec .sTInit (st { running 2 Code.sTInit with hist := Block.reset.hist.set 0x41 3 } [] 0 false))
    (fun t => nodeAt t.blk 0 = .ok (leaf 3 0x41) && nodeAt t.blk 1 = .ok ⟨3, 0, true, 0, false, 0⟩ &&
      t.blk.root = 1 && t.blk.rootV && t.blk.ncnt = 2 && t.blk.cur = 1 && t.blk.brCnt = 0 && t.blk.state = Code.sDBit) = true := by decide +kernel

/-- T10. -/
theorem test_sTInit_T10 : after (exec .sTInit (st { running 1 Code.sTInit with
      hist := ((((Block.reset.hist.set 0x61 5).set 0x62 2).set 0x63 1).set 0x64 1).set 0x72 2 } [] 0 false))
    (fun t => worklist t.blk = [2, 3, 1, 4, 0] && t.blk.total = 11 && t.blk.distinct = 5 &&
      t.blk.state = Code.sTMerge) = true := by decide +kernel

/-- T12, step 1: the creation order breaks the tie. -/
theorem test_sTMerge_T12 : after (exec .sTMerge (st { running 1 Code.sTMerge with
      node := ((Block.reset.node.set 0 (leaf 4 0x61)).set 1 (leaf 4 0x62)).set 2 (leaf 1 0x63)
      ncnt := 3, wl := ((Block.reset.wl.set 0 2).set 1 0).set 2 1, wlLen := 3 } [] 0 false))
    (fun t => worklist t.blk = [1, 3] && nodeAt t.blk 3 = .ok (inner 5 2 0) && t.blk.state = Code.sTMerge) = true := by decide +kernel

/-- T12, step 2. -/
theorem test_sTMerge_T12_last : after (exec .sTMerge (st { running 1 Code.sTMerge with
      node := (((Block.reset.node.set 0 (leaf 4 0x61)).set 1 (leaf 4 0x62)).set 2 (leaf 1 0x63)).set 3 (inner 5 2 0)
      ncnt := 4, wl := (Block.reset.wl.set 0 1).set 1 3, wlLen := 2 } [] 0 false))
    (fun t => worklist t.blk = [4] && nodeAt t.blk 4 = .ok (inner 9 1 3) && t.blk.root = 4 && t.blk.state = Code.sCGen) = true := by decide +kernel

/-- G2, E1. -/
theorem test_sCGen_G2 : after (exec .sCGen (st (tree172 (running 1 Code.sCGen)) [] 0 false))
    (fun t => codeword t.blk 0x61 = [false] && codeword t.blk 0x63 = [true, false, false] &&
      codeword t.blk 0x64 = [true, false, true] && codeword t.blk 0x62 = [true, true, false] &&
      codeword t.blk 0x72 = [true, true, true] && t.blk.hdrIdx = 0 && t.blk.state = 0x06#5) = true := by decide +kernel

/-- G1. -/
theorem test_sCGen_G1 : after (exec .sCGen (st (treeA (running 1 Code.sCGen)) [] 0 false))
    (fun t => codeword t.blk 0x41 = [false] && codeLenAt t.blk 0x42 = 0) = true := by decide +kernel

/-- E2, under LE. -/
theorem test_sEHdr_E2 : after (exec .sEHdr (st { running 1 Code.sEHdr with
      hist := Block.reset.hist.set 0x61 9, hdrIdx := 388, distinct := 1 } [] 0 false))
    (fun t => t.host.outData = [0x09] && t.blk.hdrIdx = 389 && t.blk.outSize = 1) = true := by decide +kernel

/-- E3. -/
theorem test_sEHdr_E3 : after (exec .sEHdr (st { running 1 Code.sEHdr with hdrIdx := 1023 } [] 0 false))
    (fun t => t.host.outData = [0x00] && statusWord t.blk = 0x12#32) = true := by decide +kernel

/-- E2, under BE. -/
theorem test_hdrByte_E2_be : (hdrByte .be { Block.reset with hist := Block.reset.hist.set 0x61 9 } 388 = 0x00 &&
    hdrByte .be { Block.reset with hist := Block.reset.hist.set 0x61 9 } 391 = 0x09) = true := by decide +kernel

/-- E6. -/
theorem test_sERead_E6 : after (exec .sERead (st { running 1 Code.sERead with
      inSize := 2, codeLen := Block.reset.codeLen.set 0x61 1 } [0x61, 0x62] 0 false))
    (fun t => t.blk.emitCnt = 1 && t.blk.sym = 0x61 && t.blk.bitIdx = 0 && t.blk.state = Code.sEBit) = true := by decide +kernel

/-- E10. -/
theorem test_sERead_E10 : after (exec .sERead (st { running 1 Code.sERead with inSize := 2 } [0x7A] 0 false))
    (fun t => errorWord t.blk = 0x65#32 && t.host.icur = 1) = true := by decide +kernel

/-- E12: the codeword 110 has bits 0 and 1 set. -/
theorem test_sEBit_E12 : after (exec .sEBit (st { running 1 Code.sEBit with
      codeLen := Block.reset.codeLen.set 0x62 3, codeBits := Block.reset.codeBits.set 0x62 3, sym := 0x62
      bitIdx := 0, bwBuf := 0x6C, bwCnt := 6 } [] 0 false))
    (fun t => t.blk.bwBuf = 0x6E && t.blk.bwCnt = 7 && t.blk.bitIdx = 1 && t.blk.state = Code.sEBit) = true := by decide +kernel

/-- E13. -/
theorem test_sEBit_E13 : after (exec .sEBit (st { running 1 Code.sEBit with
      codeLen := Block.reset.codeLen.set 0x62 3, codeBits := Block.reset.codeBits.set 0x62 3, sym := 0x62
      bitIdx := 1, bwBuf := 0x6E, bwCnt := 7 } [] 0 false))
    (fun t => t.blk.bwBuf = 0x6F && t.blk.bwCnt = 8 && t.blk.bitIdx = 2 && t.blk.state = Code.sEWrite) = true := by decide +kernel

/-- E14. -/
theorem test_sEWrite_E14 : after (exec .sEWrite (st { running 1 Code.sEWrite with
      codeLen := Block.reset.codeLen.set 0x62 3, codeBits := Block.reset.codeBits.set 0x62 3, sym := 0x62
      bitIdx := 2, bwBuf := 0x6F, bwCnt := 8 } [] 0 false))
    (fun t => t.host.outData = [0x6F] && t.blk.bwBuf = 0 && t.blk.bwCnt = 0 && t.blk.state = Code.sEBit) = true := by decide +kernel

/-- E16. -/
theorem test_sEWrite_E16 : after (exec .sEWrite (st { running 1 Code.sEWrite with bwBuf := 0x6F, bwCnt := 8 } [] 0 true))
    (fun t => errorWord t.blk = 0x61#32 && t.blk.outSize = 0) = true := by decide +kernel

/-- W5. -/
theorem test_sEFlush_W5 : after (exec .sEFlush (st { running 1 Code.sEFlush with bwBuf := 0x80, bwCnt := 2 } [] 0 false))
    (fun t => t.host.outData = [0x80] && statusWord t.blk = 0x12#32) = true := by decide +kernel

/-- W6. -/
theorem test_sEFlush_W6 : after (exec .sEFlush (st (running 1 Code.sEFlush) [] 0 false))
    (fun t => t.host.outData = [] && statusWord t.blk = 0x12#32) = true := by decide +kernel

/-- D1. -/
theorem test_sDHdr_D1 : after (exec .sDHdr (st { running 2 Code.sDHdr with hdrIdx := 388 } [0x05] 0 false))
    (fun t => histAt t.blk 0x61 = 5 && t.blk.inSize = 1 && t.blk.hdrIdx = 389 && t.blk.state = Code.sDHdr) = true := by decide +kernel

/-- D3, k = 100. -/
theorem test_sDHdr_D3 : after (exec .sDHdr (st { running 2 Code.sDHdr with hdrIdx := 100, inSize := 100 } [] 0 false))
    (fun t => errorWord t.blk = 0x22#32 && statusWord t.blk = 0x24#32 && t.blk.inSize = 100) = true := by decide +kernel

/-- D5. -/
theorem test_sDBit_D5 : after (exec .sDBit (st (tree172 (running 2 Code.sDBit)) [0x6E] 0 false))
    (fun t => t.blk.cur = 0 && t.blk.brBuf = 0xDC && t.blk.brCnt = 7 && t.blk.inSize = 1 && t.blk.state = Code.sDEmit) = true := by decide +kernel

/-- D8. -/
theorem test_sDBit_D8 : after (exec .sDBit (st { treeA (running 2 Code.sDBit) with brBuf := 0x80, brCnt := 8 } [] 0 false))
    (fun t => errorWord t.blk = 0x42#32) = true := by decide +kernel

/-- D10. -/
theorem test_sDEmit_D10 : after (exec .sDEmit (st { tree172 (running 2 Code.sDEmit) with cur := 0, decCnt := 10 } [] 0 false))
    (fun t => t.host.outData = [0x61] && t.blk.decCnt = 11 && t.blk.cur = 8 && statusWord t.blk = 0x22#32) = true := by decide +kernel

/-- D12. -/
theorem test_sDEmit_D12 : after (exec .sDEmit (st { tree172 (running 2 Code.sDEmit) with cur := 0 } [] 0 true))
    (fun t => errorWord t.blk = 0x41#32) = true := by decide +kernel

/-- R236. -/
theorem test_sIdle_R236 : after (exec .sIdle State.reset) (fun t => statusWord t.blk = 0#32) = true := by decide +kernel

/-- R97. -/
theorem test_sReserved1F_R97 : exec .sReserved1F State.reset = .fault (.stuckState 0x1F#5) := rfl

/-- R23: a narrow read is refused. -/
theorem test_badAccess : step (sched Block.reset [.read 0x04 .half]) = .refused (.badAccess 0x04 .half) := rfl

/-- U18: a bind during a command is refused. -/
theorem test_bindWhileBusy : step (sched (running 1 Code.sECount) [.bindIn [1]]) = .refused .bindWhileBusy := rfl

/-- U20: a launch away from the start of the input is refused. -/
theorem test_launchNotAtStart : exec (.encode 0) (st Block.reset [1] 1 false) = .refused .launchNotAtStart := rfl

/-- R235: a busy write is noted wherever the cursor stands. -/
theorem test_busy_launch_cursor : after (exec (.decode 0) (st (running 1 Code.sERead) [1] 1 false))
    (fun t => statusWord t.blk = 0x00000719#32) = true := by decide +kernel

/-- R355: binding puts the cursor at the start. -/
theorem test_bind_cursor : after (step ⟨⟨.le⟩, Block.reset, { HostSide.initial with
      inData := [1], icur := 1, agenda := [.bindIn [2, 3]] }⟩)
    (fun t => t.host.icur = 0 && t.host.inData = [2, 3] && t.host.inBound && !t.host.outBound) = true := by decide +kernel

/-- W1: bwPut(1), bwPut(0), bwPut(1). -/
theorem test_bwPut_W1 :
    commits (do bwPut true (← bwPut false (← bwPut true Block.reset))) (fun b => b.bwBuf = 0xA0 && b.bwCnt = 3) = true := by
  decide +kernel

/-- B1, the first of its takes. -/
theorem test_brTake_B1 :
    (match brTake { Block.reset with brBuf := 0xA0, brCnt := 8 } with
    | (x, b) => x && b.brBuf = 0x40 && b.brCnt = 7) = true := by decide +kernel

/-! ## Witnesses: concrete inputs that meet the hypotheses of each statement, each clause at its boundary -/

theorem witness_DecodeOfEncodeIsTheInstruction : (Instr.ack (2 ^ 28 - 1)).wellFormed = true := by decide

theorem witness_CommandIsDecidedByOpAlone : 0xFFFFFFF1#32 &&& 0x0000000F#32 = 0x00000001#32 &&& 0x0000000F#32 := by
  decide

theorem witness_StepRunsTheCommandWritten :
    (Instr.encode (2 ^ 28 - 1)).wellFormed = true ∧ encodeWord (.encode (2 ^ 28 - 1)) = .cmd 0xFFFFFFF1#32 ∧
      (sched Block.reset [.write 0 .word 0xFFFFFFF1#32]).host.agenda = [.write 0x00#8 .word 0xFFFFFFF1#32] := by
  decide

theorem witness_StepRunsTheStateSelected_empty_schedule :
    encodeWord .sERewind = .state (sched (running 1 Code.sERewind) []).blk.state ∧
      (sched (running 1 Code.sERewind) []).host.agenda = [] := ⟨rfl, rfl⟩

theorem witness_StepRunsTheStateSelected_draw :
    encodeWord .sReserved1F = .state (sched (running 1 0x1F#5) [.seq true]).blk.state ∧
      (sched (running 1 0x1F#5) [.seq true]).host.agenda = [.seq true] := ⟨rfl, rfl⟩

/-- Every clause of the register map has its offset, and the reserved ones have the first and the last. -/
theorem witness_RegisterReadsReturnCurrentValues :
    ∀ off ∈ [0x00#8, 0x04#8, 0x08#8, 0x0C#8, 0x10#8, 0x14#8, 0x18#8, 0x1C#8, 0x20#8, 0x24#8, 0x28#8, 0xFC#8],
      off.toNat % 4 = 0 ∧ (sched Block.reset [.read off .word]).host.agenda = [.read off .word] :=
  fun off h => ⟨by revert off; decide, rfl⟩

theorem witness_OtherWritesIgnoredBadAccessesRefused_ignored :
    ∀ off ∈ [0x04#8, 0x28#8, 0xFC#8], off.toNat % 4 = 0 ∧ off ≠ 0 ∧
      (sched Block.reset [.write off .word 7]).host.agenda = [.write off .word 7] :=
  fun off h => ⟨by revert off; decide, by revert off; decide, rfl⟩

theorem witness_OtherWritesIgnoredBadAccessesRefused_refused :
    (sched Block.reset [.write 0x01 .word 7]).host.agenda = [.write 0x01 .word 7] ∧ (0x01#8).toNat % 4 ≠ 0 ∧
      (sched Block.reset [.read 0x00 .byte]).host.agenda = [.read 0x00 .byte] ∧ AccessSize.byte ≠ .word ∧
      (sched Block.reset [.read 0xFE .half]).host.agenda = [.read 0xFE .half] ∧ (0xFE#8).toNat % 4 ≠ 0 :=
  ⟨rfl, by decide, rfl, by decide, rfl, by decide⟩

theorem witness_DoneIrqClearedOnlyByAckAcceptanceOrReset_ack :
    ∃ s t : State, step s = .next t ∧ (s.blk.done = true ∨ s.blk.err = true) ∧ doneIrq t.blk = false :=
  ⟨sched { Block.reset with done := true } [.write 0 .word 0], _, rfl, .inl rfl, rfl⟩

theorem witness_DoneIrqClearedOnlyByAckAcceptanceOrReset_reset :
    ∃ s t : State, step s = .next t ∧ (s.blk.done = true ∨ s.blk.err = true) ∧ doneIrq t.blk = false :=
  ⟨sched { Block.reset with err := true, errCode := .ioError, errStage := .header } [.reset], _, rfl, .inr rfl, rfl⟩

theorem witness_ResetEventValues : (sched (running 1 Code.sEHdr) [.reset]).host.agenda = [.reset] := rfl

theorem witness_AckClearsFlagsAndError : (sched { Block.reset with done := true } []).blk.busy = false := rfl

theorem witness_AcceptedCommandsStart :
    State.reset.blk.busy = false ∧ State.reset.host.icur = 0 ∧ (∃ ign, Instr.encode 0 = .encode ign) ∧
      (∃ ign, Instr.decode 5 = .decode ign) := ⟨rfl, rfl, ⟨0, rfl⟩, ⟨5, rfl⟩⟩

theorem witness_AcceptedCommandsStart_refused :
    (st Block.reset [1] 1 false).blk.busy = false ∧ (st Block.reset [1] 1 false).host.icur ≠ 0 := ⟨rfl, Nat.one_ne_zero⟩

theorem witness_ReservedCommandsAreIllegal :
    isReservedCommand (.cmdReserved3 0) = true ∧ isReservedCommand (.cmdReservedF 7) = true ∧
      State.reset.blk.busy = false := ⟨by decide, by decide, rfl⟩

theorem witness_CommandsWhileBusyOnlySetRej :
    isCommand (.ack 0) = true ∧ isCommand (.cmdReservedF 0) = true ∧
      (sched (running 1 Code.sECount) []).blk.busy = true := ⟨rfl, rfl, rfl⟩

theorem witness_AcceptanceForgetsTheLastCommand :
    (∃ ign, Instr.decode 0 = .decode ign) ∧ State.reset.blk.busy = false ∧ State.reset.host.icur = 0 ∧
      (st (tree172 { Block.reset with done := true }) [1] 0 false).blk.busy = false ∧
      (st (tree172 { Block.reset with done := true }) [1] 0 false).host.icur = 0 := ⟨⟨0, rfl⟩, rfl, rfl, rfl, rfl⟩

theorem witness_ModeChangesOnlyAtAcceptance_encode :
    ∃ s t : State, step s = .next t ∧ t.blk.mode ≠ s.blk.mode :=
  ⟨sched Block.reset [.write 0 .word 1], _, rfl, show (1#2 : BitVec 2) ≠ 0#2 by decide⟩

theorem witness_ModeChangesOnlyAtAcceptance_reset :
    ∃ s t : State, step s = .next t ∧ t.blk.mode ≠ s.blk.mode :=
  ⟨sched (running 2 Code.sDHdr) [.reset], _, rfl, show (0#2 : BitVec 2) ≠ 2#2 by decide⟩

theorem witness_PortTransactionRules :
    (st Block.reset [1] 1 false).host.ansErr = false ∧
      (st Block.reset [1] 1 false).host.icur = (st Block.reset [1] 1 false).host.inData.length ∧
      (st Block.reset [1] 0 false).host.inData[(st Block.reset [1] 0 false).host.icur]? = some 1 ∧
      (st Block.reset [] 0 true).host.ansErr = true := ⟨rfl, rfl, rfl, rfl⟩

theorem witness_HeaderByteOrder : (0#11).toNat < 1024 ∧ (1023#11).toNat < 1024 := by decide

theorem witness_ReaderReturnsWhatTheWriterPacked : Block.reset.bwBuf = 0 ∧ Block.reset.bwCnt = 0 := ⟨rfl, rfl⟩

/-- An empty worklist, and one of 255 entries, the longest that can grow. -/
theorem witness_InsertStablePosition :
    Block.reset.wlLen.toNat < 256 ∧ ((510#9 : Handle) :: worklist Block.reset).all inArena = true ∧
      ({ Block.reset with wlLen := 255 } : Block).wlLen.toNat < 256 ∧
      ((0#9 : Handle) :: worklist { Block.reset with wlLen := 255 }).all inArena = true := by decide +kernel

theorem witness_RemoveHeadShiftsTheWorklist :
    1 ≤ ({ Block.reset with wlLen := 1 } : Block).wlLen.toNat ∧
      ({ Block.reset with wlLen := 256 } : Block).wlLen.toNat ≤ 256 := by decide

theorem witness_NodeCreation :
    Block.reset.ncnt.toNat < 511 ∧ ({ Block.reset with ncnt := 510 } : Block).ncnt.toNat < 511 ∧
      ({ Block.reset with ncnt := 511 } : Block).ncnt = 511#10 := by decide

theorem witness_ReservedStatesAreStuck :
    isReservedState .sReserved0E = true ∧ isReservedState .sReserved1F = true := by decide

theorem witness_CountStepResult_counts :
    (st (running 1 Code.sECount) [0x41] 0 false).host.ansErr = false ∧
      (st (running 1 Code.sECount) [0x41] 0 false).host.inData[(st (running 1 Code.sECount) [0x41] 0 false).host.icur]?
        = some 0x41 ∧ histAt (running 1 Code.sECount) 0x41 ≠ 0xFFFFFFFF#32 := ⟨rfl, rfl, by decide +kernel⟩

theorem witness_CountStepResult_overflow :
    histAt { running 1 Code.sECount with hist := Block.reset.hist.set 0x41 0xFFFFFFFF } 0x41 = 0xFFFFFFFF#32 := by
  decide +kernel

theorem witness_CountStepResult_eof :
    (st (running 1 Code.sECount) [] 0 false).host.icur = (st (running 1 Code.sECount) [] 0 false).host.inData.length :=
  rfl

theorem witness_RewindStepResult : (st (running 1 Code.sERewind) [1, 2] 2 false).host.ansErr = false := rfl

theorem witness_TreeInitResult :
    (running 1 Code.sTInit).ncnt = 0 ∧ (running 1 Code.sTInit).wlLen = 0 := ⟨rfl, rfl⟩

/-- Histograms with no present symbol, one, and two: the three clauses, for both modes. -/
theorem witness_TreeInitResult_clauses :
    (presentSymbols (running 1 Code.sTInit)).length = 0 ∧
      (presentSymbols { running 2 Code.sTInit with hist := Block.reset.hist.set 255 1 }).length = 1 ∧
      (presentSymbols { running 2 Code.sTInit with hist := (Block.reset.hist.set 0 1).set 255 1 }).length = 2 := by
  decide +kernel

theorem witness_TreeMergeResult :
    worklist (mergeAB (running 1 Code.sTMerge)) = [0, 1] ∧ (mergeAB (running 1 Code.sTMerge)).wlLen.toNat ≤ 256 ∧
      (mergeAB (running 1 Code.sTMerge)).ncnt.toNat < 511 ∧
      (∀ h ∈ worklist (mergeAB (running 1 Code.sTMerge)), h.toNat < (mergeAB (running 1 Code.sTMerge)).ncnt.toNat) := by
  decide +kernel

/-! The tree over 'a' and 'b', in any block. -/

theorem treeAB_root (b : Block) : createdNode (treeAB b) 2 = some (inner 2 0 1) := by simp [createdNode, treeAB]

theorem treeAB_a (b : Block) : createdNode (treeAB b) 0 = some (leaf 1 0x61) := by simp [createdNode, treeAB]

theorem treeAB_b (b : Block) : createdNode (treeAB b) 1 = some (leaf 1 0x62) := by simp [createdNode, treeAB]

theorem treeAB_full (b : Block) : FullTree (treeAB b) 2 (1 + 1) (max 0 0 + 1) :=
  .node 2 (inner 2 0 1) 1 0 1 0 (treeAB_root b) rfl rfl (by decide) (by decide)
    (by simp [inner, freqOf, treeAB, leaf]) (.leaf 0 _ (treeAB_a b) rfl) (.leaf 1 _ (treeAB_b b) rfl)

theorem treeAB_code (b : Block) : CodeTree (treeAB b) (treeAB b).root :=
  .full 2 1 (treeAB_full b) (by decide) (by decide)

/-- A decode of 'a' and 'b' about to take its first bit. -/
def decoding (agenda : List HostEvent) : State := sched (treeAB (running 2 Code.sDBit)) agenda

theorem decoding_control (agenda : List HostEvent) : ControlInv (decoding agenda).blk where
  busyIff := ⟨fun _ => show Code.sDBit ≠ Code.sIdle by decide, fun _ => rfl⟩
  defined := show Code.sDBit.toNat < 14 by decide
  modeLegal := show 2#2 ≠ 3#2 by decide
  notBoth h := Bool.noConfusion h.1
  busyClean _ := ⟨rfl, rfl⟩
  errorIff := ⟨fun h => Bool.noConfusion h, fun h => absurd rfl h⟩
  noStage _ := rfl
  modeEncode h := absurd h (show ¬ Code.sDBit ∈ encodeStates by decide)
  modeDecode _ := rfl
  modeTree _ := .inr rfl

theorem decoding_writer (agenda : List HostEvent) : WriterInv (decoding agenda).blk where
  count := Nat.zero_le 8
  lowZero i _ := BitVec.getLsbD_zero
  atBit h := absurd h (show Code.sDBit ≠ Code.sEBit by decide)
  atWrite h := absurd h (show Code.sDBit ≠ Code.sEWrite by decide)
  atRead h := absurd h (show ¬(Code.sDBit = Code.sERead ∨ Code.sDBit = Code.sEFlush) by decide)
  before _ := rfl

theorem decoding_index (agenda : List HostEvent) : IndexInv (decoding agenda).blk where
  header := Nat.zero_le 1024
  atHeader _ := show 0 < 1024 by decide
  reader := Nat.zero_le 8

theorem decoding_tree (agenda : List HostEvent) : TreeInv (decoding agenda).blk where
  arena := show 3 ≤ 511 by decide
  before h := absurd h
    (show ¬ Code.sDBit ∈ [Code.sECount, Code.sERewind, Code.sDHdr, Code.sTInit] by decide)
  atMerge h := absurd h (show Code.sDBit ≠ Code.sTMerge by decide)
  atCodeGen h := absurd h (show Code.sDBit ≠ Code.sCGen by decide)
  atDecodeBit _ :=
    ⟨treeAB_code _, ⟨_, treeAB_root _, rfl⟩, ⟨1, .full 2 1 (treeAB_full _) (by decide)⟩,
      show (0#64 : Size) < 2#64 by decide⟩
  atEmit h := absurd h (show Code.sDBit ≠ Code.sDEmit by decide)

theorem decoding_inv (agenda : List HostEvent) : MachineInv (decoding agenda) :=
  ⟨decoding_control _, decoding_writer _, decoding_index _, decoding_tree _, Nat.le_refl 0⟩

theorem witness_CodeGenCompletes : CodeTree (treeAB (running 1 Code.sCGen)) (treeAB (running 1 Code.sCGen)).root :=
  treeAB_code _

theorem witness_CodewordsAreTreePaths :
    ∃ s t : State, (∀ x, codeLenAt s.blk x = 0) ∧ exec .sCGen s = .next t ∧ codeLenAt t.blk 0x61 ≠ 0 :=
  have ⟨t, e, p⟩ := next_of_after
    (o := exec .sCGen (st (treeAB (running 1 Code.sCGen)) [] 0 false)) (p := fun t => codeLenAt t.blk 0x61 ≠ 0)
    (by decide +kernel)
  ⟨_, t, fun x => by simp [codeLenAt, st, treeAB, running, Block.reset], e, by simpa using p⟩

/-- A path to a leaf for the second clause: "0" leads to the leaf of 'a'. -/
theorem witness_CodewordsAreTreePaths_leaf :
    follow (treeAB (running 1 Code.sCGen)) 2 [false] = some 0 ∧
      nodeAt (treeAB (running 1 Code.sCGen)) 0 = .ok (leaf 1 0x61) ∧ isLeaf (leaf 1 0x61) = true := by
  simp [follow, nodeAt, treeAB, inner, isLeaf, leaf]

theorem witness_CodewordsArePrefixFree :
    ∃ s t : State, (∀ x, codeLenAt s.blk x = 0) ∧ exec .sCGen s = .next t ∧ (0x61#8 : Byte) ≠ 0x62 ∧
      codeLenAt t.blk 0x61 ≠ 0 ∧ codeLenAt t.blk 0x62 ≠ 0 :=
  have ⟨t, e, p⟩ := next_of_after
    (o := exec .sCGen (st (treeAB (running 1 Code.sCGen)) [] 0 false))
    (p := fun t => codeLenAt t.blk 0x61 ≠ 0 ∧ codeLenAt t.blk 0x62 ≠ 0) (by decide +kernel)
  have p : codeLenAt t.blk 0x61 ≠ 0 ∧ codeLenAt t.blk 0x62 ≠ 0 := of_decide_eq_true p
  ⟨_, t, fun x => by simp [codeLenAt, st, treeAB, running, Block.reset], e, by decide, p.1, p.2⟩

theorem witness_HeaderWriteResult :
    (st { running 1 Code.sEHdr with hdrIdx := 1023 } [] 0 false).host.ansErr = false ∧
      (st { running 1 Code.sEHdr with hdrIdx := 1023 } [] 0 false).blk.hdrIdx.toNat < 1024 ∧
      (st (running 1 Code.sEHdr) [] 0 false).blk.hdrIdx.toNat < 1024 := ⟨rfl, by decide, by decide⟩

theorem witness_EmitReadResult :
    (st (running 1 Code.sERead) [0x61] 0 false).host.ansErr = false ∧
      (st (running 1 Code.sERead) [0x61] 0 false).host.inData[(st (running 1 Code.sERead) [0x61] 0 false).host.icur]? =
        some 0x61 ∧
      (st (running 1 Code.sERead) [0x61] 1 false).host.icur =
        (st (running 1 Code.sERead) [0x61] 1 false).host.inData.length := ⟨rfl, rfl, rfl⟩

theorem witness_EmitBitResult :
    ({ running 1 Code.sEBit with bwCnt := 7 } : Block).bwCnt.toNat < 8 ∧ (running 1 Code.sEBit).bwCnt.toNat < 8 := by
  decide

theorem witness_EmitWriteResult : (st (running 1 Code.sEWrite) [] 0 false).host.ansErr = false := rfl

theorem witness_FlushResult :
    (running 1 Code.sEFlush).bwCnt = 0 ∧ ({ running 1 Code.sEFlush with bwCnt := 1 } : Block).bwCnt ≠ 0 ∧
      (st { running 1 Code.sEFlush with bwCnt := 1 } [] 0 false).host.ansErr = false := ⟨rfl, by decide, rfl⟩

theorem witness_HeaderReadResult :
    (st { running 2 Code.sDHdr with hdrIdx := 1023 } [7] 0 false).host.ansErr = false ∧
      (st { running 2 Code.sDHdr with hdrIdx := 1023 } [7] 0 false).host.inData[
        (st { running 2 Code.sDHdr with hdrIdx := 1023 } [7] 0 false).host.icur]? = some 7 ∧
      ({ running 2 Code.sDHdr with hdrIdx := 1023 } : Block).hdrIdx.toNat < 1024 ∧
      (st (running 2 Code.sDHdr) [7] 1 false).host.icur = (st (running 2 Code.sDHdr) [7] 1 false).host.inData.length :=
  ⟨rfl, rfl, by decide, rfl⟩

/-- A held bit, 1, that leads to the leaf of 'b'. -/
theorem witness_DecodeBitResult_held :
    let b := { treeAB (running 2 Code.sDBit) with brBuf := 0x80, brCnt := 1 }
    b.brCnt ≠ 0 ∧ nodeAt b b.cur = .ok (inner 2 0 1) ∧ (0x80#8).getLsbD 7 = true ∧ (inner 2 0 1).rv = true ∧
      nodeAt b (inner 2 0 1).r = .ok (leaf 1 0x62) := by
  refine ⟨by decide, ?_, by decide, rfl, ?_⟩ <;> simp [nodeAt, treeAB, inner, leaf]

/-- No bit held: the byte read is 0, which leads to the leaf of 'a'. -/
theorem witness_DecodeBitResult_read :
    let s := st (treeAB (running 2 Code.sDBit)) [0x00] 0 false
    s.blk.brCnt = 0 ∧ s.host.ansErr = false ∧ s.host.inData[s.host.icur]? = some 0x00 ∧
      nodeAt s.blk s.blk.cur = .ok (inner 2 0 1) ∧ (0x00#8).getLsbD 7 = false ∧ (inner 2 0 1).lv = true ∧
      nodeAt s.blk (inner 2 0 1).l = .ok (leaf 1 0x61) := by
  refine ⟨rfl, rfl, rfl, ?_, by decide, rfl, ?_⟩ <;> simp [nodeAt, st, treeAB, inner, leaf]

theorem witness_DecodeBitErrors_eof :
    let s := st (treeAB (running 2 Code.sDBit)) [] 0 false
    s.blk.brCnt = 0 ∧ s.host.ansErr = false ∧ s.host.icur = s.host.inData.length := ⟨rfl, rfl, rfl⟩

theorem witness_DecodeBitErrors_no_child :
    let b := { treeA (running 2 Code.sDBit) with brBuf := 0x80, brCnt := 8 }
    b.brCnt ≠ 0 ∧ nodeAt b b.cur = .ok ⟨3, 0, true, 0, false, 0⟩ ∧ b.brBuf.getLsbD 7 = true := by
  refine ⟨by decide, ?_, by decide⟩
  simp [nodeAt, treeA]

theorem witness_DecodeBitErrors_no_child_read :
    let s := st (treeA (running 2 Code.sDBit)) [0x80] 0 false
    s.blk.brCnt = 0 ∧ s.host.ansErr = false ∧ s.host.inData[s.host.icur]? = some 0x80 ∧
      nodeAt s.blk s.blk.cur = .ok ⟨3, 0, true, 0, false, 0⟩ ∧ (0x80#8).getLsbD 7 = true := by
  refine ⟨rfl, rfl, rfl, ?_, by decide⟩
  simp [nodeAt, st, treeA]

theorem witness_DecodeEmitResult :
    let s := st { treeAB (running 2 Code.sDEmit) with cur := 1 } [] 0 false
    nodeAt s.blk s.blk.cur = .ok (leaf 1 0x62) ∧ s.host.ansErr = false := by
  refine ⟨?_, rfl⟩
  simp [nodeAt, st, treeAB, leaf]

/-- An IoError of S_E_REWIND. -/
theorem witness_ErrorsArePrecise :
    ∃ s t : State, isMicroOp .sERewind = true ∧ exec .sERewind s = .next t ∧ s.blk.err = false ∧ t.blk.err = true :=
  ⟨st (running 1 Code.sERewind) [] 0 true, _, rfl, rfl, rfl, rfl⟩

theorem witness_ErrAnswerRaisesIoError :
    (st (running 1 Code.sECount) [] 0 true).host.ansErr = true ∧
      ({ running 1 Code.sEHdr with hdrIdx := 1023 } : Block).hdrIdx.toNat < 1024 ∧
      ({ running 1 Code.sEFlush with bwCnt := 1 } : Block).bwCnt ≠ 0 ∧ (running 2 Code.sDBit).brCnt = 0 ∧
      ({ running 2 Code.sDEmit with cur := 510 } : Block).cur.toNat < 511 :=
  ⟨rfl, by decide, by decide, rfl, by decide⟩

/-- A StreamMismatch of S_E_READ. -/
theorem witness_ErrorsOfEachState :
    ∃ s t : State, isMicroOp .sERead = true ∧ exec .sERead s = .next t ∧ s.blk.err = false ∧ t.blk.err = true :=
  ⟨st { running 1 Code.sERead with inSize := 1 } [] 0 false, _, rfl, rfl, rfl, rfl⟩

/-- Each reading step answers a next state somewhere. -/
theorem witness_ReadingStepsFrame :
    (∃ s t, exec .sECount s = .next t) ∧ (∃ s t, exec .sERewind s = .next t) ∧ (∃ s t, exec .sERead s = .next t) ∧
      (∃ s t, exec .sDHdr s = .next t) ∧ (∃ s t, exec .sDBit s = .next t) :=
  ⟨⟨st (running 1 Code.sECount) [] 0 false, _, rfl⟩, ⟨st (running 1 Code.sERewind) [] 0 false, _, rfl⟩,
    ⟨st (running 1 Code.sERead) [] 0 false, _, rfl⟩, ⟨st (running 2 Code.sDHdr) [] 0 false, _, rfl⟩,
    ⟨st (running 2 Code.sDBit) [] 0 false, _, rfl⟩⟩

theorem witness_WritingStepsFrame :
    (∃ s t, exec .sEHdr s = .next t ∧ s.host.ansErr = false) ∧
      (∃ s t, exec .sEWrite s = .next t ∧ s.host.ansErr = false) ∧
      (∃ s t, exec .sEFlush s = .next t ∧ s.host.ansErr = false) ∧
      (∃ s t, exec .sDEmit s = .next t ∧ s.host.ansErr = false) := by
  refine ⟨⟨st (running 1 Code.sEHdr) [] 0 false, ?_⟩, ⟨st (running 1 Code.sEWrite) [] 0 false, ?_⟩,
    ⟨st (running 1 Code.sEFlush) [] 0 false, ?_⟩, ⟨st (treeAB (running 2 Code.sDEmit)) [] 0 false, ?_⟩⟩
  · have ⟨t, e, _⟩ := next_of_after (o := exec .sEHdr (st (running 1 Code.sEHdr) [] 0 false)) (p := fun _ => true)
      (by decide +kernel)
    exact ⟨t, e, rfl⟩
  · exact ⟨_, rfl, rfl⟩
  · exact ⟨_, rfl, rfl⟩
  · have ⟨t, e, _⟩ := next_of_after (o := exec .sDEmit (st (treeAB (running 2 Code.sDEmit)) [] 0 false))
      (p := fun _ => true) (by decide +kernel)
    exact ⟨t, e, rfl⟩

theorem witness_InternalStepsFrame :
    (∃ s t, exec .sTInit s = .next t) ∧ (∃ s t, exec .sTMerge s = .next t) ∧ (∃ s t, exec .sCGen s = .next t) ∧
      (∃ s t, exec .sEBit s = .next t) :=
  have next (i : Instr) (s : State) (h : after (exec i s) (fun _ => true) = true) : ∃ s t, exec i s = .next t :=
    have ⟨t, e, _⟩ := next_of_after h
    ⟨s, t, e⟩
  ⟨next .sTInit (st (running 1 Code.sTInit) [] 0 false) (by decide +kernel),
    next .sTMerge (st (mergeAB (running 1 Code.sTMerge)) [] 0 false) (by decide +kernel),
    next .sCGen (st (treeAB (running 1 Code.sCGen)) [] 0 false) (by decide +kernel),
    next .sEBit (st (running 1 Code.sEBit) [] 0 false) (by decide +kernel)⟩

theorem witness_CommandsFrame :
    isCommand (.ack 0) = true ∧ (∃ t, exec (.ack 0) State.reset = .next t) ∧
      (∀ ign, Instr.ack 0 ≠ .encode ign) ∧ (∀ ign, Instr.ack 0 ≠ .decode ign) :=
  ⟨rfl, ⟨_, rfl⟩, by simp, by simp⟩

theorem witness_AtMostOneTransactionPerStep :
    isMicroOp .sERewind = true ∧ ∃ s t, exec .sERewind s = .next t :=
  ⟨rfl, st (running 1 Code.sERewind) [] 0 false, _, rfl⟩

theorem witness_InputUnchangedDuringCommand :
    ∃ s t : State, step s = .next t ∧ t.host.inData ≠ s.host.inData :=
  ⟨sched Block.reset [.bindIn [1]], _, rfl, show [1#8] ≠ [] by decide⟩

/-- Two blocks with the same counts, in different modes. -/
theorem witness_TreeDependsOnHistAlone_init :
    ∃ s₁ s₂ t₁ : State, s₁.blk.hist = s₂.blk.hist ∧ s₁.blk.ncnt = 0 ∧ s₁.blk.wlLen = 0 ∧ s₂.blk.ncnt = 0 ∧
      s₂.blk.wlLen = 0 ∧ exec .sTInit s₁ = .next t₁ :=
  have ⟨t, e, _⟩ := next_of_after (o := exec .sTInit (st (running 1 Code.sTInit) [] 0 false)) (p := fun _ => true)
    (by decide +kernel)
  ⟨st (running 1 Code.sTInit) [] 0 false, st (running 2 Code.sTInit) [] 0 false, t, rfl, rfl, rfl, rfl, rfl, e⟩

theorem witness_TreeDependsOnHistAlone_merge :
    ∃ s₁ s₂ t₁ : State, s₁.blk.ncnt = s₂.blk.ncnt ∧ s₁.blk.wlLen = s₂.blk.wlLen ∧ s₁.blk.wlLen.toNat ≤ 256 ∧
      worklist s₁.blk = worklist s₂.blk ∧ (∀ h ∈ worklist s₁.blk, h.toNat < s₁.blk.ncnt.toNat) ∧
      s₁.blk.ncnt.toNat < 511 ∧ (∀ k, k < s₁.blk.ncnt.toNat → s₁.blk.node[k]? = s₂.blk.node[k]?) ∧
      exec .sTMerge s₁ = .next t₁ ∧ t₁.blk.wlLen = 1 :=
  have ⟨t, e, p⟩ := next_of_after (o := exec .sTMerge (st (mergeAB (running 1 Code.sTMerge)) [] 0 false))
    (p := fun t => t.blk.wlLen = 1) (by decide +kernel)
  ⟨st (mergeAB (running 1 Code.sTMerge)) [] 0 false, st (mergeAB (running 2 Code.sTMerge)) [] 0 false, t, rfl, rfl,
    by decide, rfl, witness_TreeMergeResult.2.2.2, by decide,
    fun _ _ => rfl, e, of_decide_eq_true p⟩

theorem witness_ControlInvariantKept : ∃ s t : State, ControlInv s.blk ∧ step s = .next t :=
  have ⟨t, e, _⟩ := next_of_after (o := step (decoding [.seq true])) (p := fun _ => true) (by decide +kernel)
  ⟨_, t, decoding_control _, e⟩

theorem witness_WriterInvariantKept : ∃ s t : State, WriterInv s.blk ∧ step s = .next t :=
  have ⟨t, e, _⟩ := next_of_after (o := step (decoding [.write 0 .word 1])) (p := fun _ => true) (by decide +kernel)
  ⟨_, t, decoding_writer _, e⟩

theorem witness_IndexAndCursorInvariantKept :
    ∃ s t : State, IndexInv s.blk ∧ s.host.icur ≤ s.host.inData.length ∧ step s = .next t :=
  have ⟨t, e, _⟩ := next_of_after (o := step (decoding [.seq true])) (p := fun _ => true) (by decide +kernel)
  ⟨_, t, decoding_index _, Nat.le_refl 0, e⟩

theorem witness_TreeInvariantKept : ∃ s t : State, TreeInv s.blk ∧ step s = .next t :=
  have ⟨t, e, _⟩ := next_of_after (o := step (decoding [.seq false])) (p := fun _ => true) (by decide +kernel)
  ⟨_, t, decoding_tree _, e⟩

theorem witness_InvariantStatesNeverFault :
    ∃ s t : State, MachineInv s ∧ step s = .next t ∧ s.blk.errCode ≠ .allocationError :=
  have ⟨t, e, _⟩ := next_of_after (o := step (decoding [])) (p := fun _ => true) (by decide +kernel)
  ⟨_, t, decoding_inv _, e, show ErrCode.none ≠ .allocationError by decide⟩

theorem witness_EveryCommandEnds :
    ∃ s : State, MachineInv s ∧ onlySequencer s.host.agenda = true ∧ s.blk.busy = true :=
  ⟨decoding [.seq false, .seq true], decoding_inv _, rfl, rfl⟩

/-! The machine after a decode that completed, with the host's next ENCODE or DECODE to come. -/

def decoded : Block := { Block.reset with done := true, mode := 2 }

theorem launch_inv (agenda : List HostEvent) : MachineInv (sched decoded agenda) where
  control :=
    { busyIff := ⟨fun h => Bool.noConfusion h, fun h => absurd rfl h⟩
      defined := show 0 < 14 by decide
      modeLegal := show 2#2 ≠ 3#2 by decide
      notBoth := fun h => Bool.noConfusion h.2
      busyClean := fun h => Bool.noConfusion h
      errorIff := ⟨fun h => Bool.noConfusion h, fun h => absurd rfl h⟩
      noStage := fun _ => rfl
      modeEncode := fun h => absurd h (show ¬ Code.sIdle ∈ encodeStates by decide)
      modeDecode := fun h => absurd h (show ¬ Code.sIdle ∈ decodeStates by decide)
      modeTree := fun h => absurd h (show ¬ Code.sIdle ∈ treeStates by decide) }
  writer :=
    { count := Nat.zero_le 8
      lowZero := fun _ _ => BitVec.getLsbD_zero
      atBit := fun h => absurd h (show Code.sIdle ≠ Code.sEBit by decide)
      atWrite := fun h => absurd h (show Code.sIdle ≠ Code.sEWrite by decide)
      atRead := fun h => absurd h (show ¬(Code.sIdle = Code.sERead ∨ Code.sIdle = Code.sEFlush) by decide)
      before := fun _ => rfl }
  index := ⟨Nat.zero_le 1024, fun _ => show 0 < 1024 by decide, Nat.zero_le 8⟩
  tree :=
    { arena := Nat.zero_le 511
      before := fun h => absurd h
        (show ¬ Code.sIdle ∈ [Code.sECount, Code.sERewind, Code.sDHdr, Code.sTInit] by decide)
      atMerge := fun h => absurd h (show Code.sIdle ≠ Code.sTMerge by decide)
      atCodeGen := fun h => absurd h (show Code.sIdle ≠ Code.sCGen by decide)
      atDecodeBit := fun h => absurd h (show Code.sIdle ≠ Code.sDBit by decide)
      atEmit := fun h => absurd h (show Code.sIdle ≠ Code.sDEmit by decide) }
  cursor := Nat.le_refl 0

/-- A command that runs through three states and then ends. -/
theorem during_three {s a b c d : State} (e0 : step s = .next a) (e1 : step a = .next b) (e2 : step b = .next c)
    (e3 : step c = .next d) (ended : d.blk.busy = false) {t : State} (h : DuringCommand s t) :
    t = a ∨ t = b ∨ t = c := by
  have inj {x y z : State} (p : step z = .next x) (q : step z = .next y) : y = x := by
    rw [p] at q; exact (Host.Outcome.next.inj q).symm
  induction h with
  | accepted t e busy => exact .inl (inj e0 e)
  | goesOn t u _ e busy ih =>
    rcases ih with rfl | rfl | rfl
    · exact .inr (.inl (inj e1 e))
    · exact .inr (.inr (inj e2 e))
    · rw [inj e3 e, ended] at busy; cases busy

/-- Both ports bound, an empty input, and a command to come that the host polls and writes CMD during. -/
def launching (w : Word) (rest : List HostEvent) : State :=
  ⟨⟨.le⟩, decoded, { HostSide.initial with
    inBound := true, outBound := true
    agenda := .write 0 .word w :: .read 0x04 .word :: .write 0 .word 0x00000001#32 :: rest }⟩

/-- The hypotheses of the statement, when the three states of the command are known. -/
theorem launching_clean {w : Word} {rest : List HostEvent} {a b c d : State} (op : w.toNat % 16 = 1 ∨ w.toNat % 16 = 2)
    (e0 : step (launching w rest) = .next a) (e1 : step a = .next b) (e2 : step b = .next c) (e3 : step c = .next d)
    (ended : d.blk.busy = false) (ha : a.host.agenda = .read 0x04 .word :: .write 0 .word 0x00000001#32 :: rest)
    (hb : b.host.agenda = .write 0 .word 0x00000001#32 :: rest) (hc : c.host.agenda = rest)
    (hr : ∀ e r, rest = e :: r → ∃ x, e = .seq x) :
    CleanLaunch (launching w rest) ∧
      ∀ t e r, DuringCommand (launching w rest) t → t.host.agenda = e :: r → leavesRunning e = true := by
  have all (t : State) (e : HostEvent) (r : List HostEvent) (d : DuringCommand (launching w rest) t)
      (q : t.host.agenda = e :: r) : leavesRunning e = true := by
    rcases during_three e0 e1 e2 e3 ended d with rfl | rfl | rfl
    · rw [ha] at q; cases q; rfl
    · rw [hb] at q; cases q; rfl
    · obtain ⟨x, rfl⟩ := hr e r (hc.symm.trans q); rfl
  exact ⟨⟨rfl, rfl, ⟨w, _, rfl, op⟩, rfl, rfl, fun t data r d q => Bool.noConfusion (all t _ r d q), rfl⟩, all⟩

/-- An ENCODE whose first read is answered Err. -/
theorem witness_CleanLaunchEndsInDoneOrErr_encode :
    ∃ s : State, MachineInv s ∧ CleanLaunch s ∧
      ∀ t e rest, DuringCommand s t → t.host.agenda = e :: rest → leavesRunning e = true :=
  ⟨launching 1 [.seq true], ⟨(launch_inv []).control, (launch_inv []).writer, (launch_inv []).index, (launch_inv []).tree, Nat.le_refl 0⟩, launching_clean (.inl (by decide)) rfl rfl rfl rfl rfl rfl rfl rfl
    (by simp)⟩

/-- A DECODE of an input that ends in its header. -/
theorem witness_CleanLaunchEndsInDoneOrErr_decode :
    ∃ s : State, MachineInv s ∧ CleanLaunch s ∧
      ∀ t e rest, DuringCommand s t → t.host.agenda = e :: rest → leavesRunning e = true :=
  ⟨launching 0xFFFFFFF2 [], ⟨(launch_inv []).control, (launch_inv []).writer, (launch_inv []).index, (launch_inv []).tree, Nat.le_refl 0⟩, launching_clean (.inr (by decide)) rfl rfl rfl rfl rfl rfl rfl rfl
    (by simp)⟩

end Sys2Proof.Tests
end

section
/-! PROOFS of the family 00_scope: the byte order of the header (R66), how a micro-operation ends (R10, R308, R310) and
its port transaction (R73). -/

namespace Sys2Proof.Machine

/-! Header bytes as arithmetic (R66). -/

theorem hdrSymbol_eq_div (k : BitVec 11) : hdrSymbol k = BitVec.ofNat 8 (k.toNat / 4) := by
  rw [hdrSymbol, Nat.shiftRight_eq_div_pow]

theorem hdrLane_eq_mod (k : BitVec 11) : hdrLane k = k.toNat % 4 := Nat.and_two_pow_sub_one_eq_mod _ 2

theorem getLane_toNat (o : ByteOrder) (j : Nat) (v : Word) :
    (getLane o j v).toNat = v.toNat / 2 ^ laneLow o j % 256 := by
  rw [getLane, BitVec.extractLsb'_toNat, Nat.shiftRight_eq_div_pow]

theorem hdrByte_toNat (o : ByteOrder) (b : Block) (k : BitVec 11) :
    (hdrByte o b k).toNat =
      (histAt b (BitVec.ofNat 8 (k.toNat / 4))).toNat / 2 ^ laneLow o (k.toNat % 4) % 256 := by
  rw [hdrByte, getLane_toNat, hdrSymbol_eq_div, hdrLane_eq_mod]

/-- The lanes of a big-endian count run down from the most significant one. -/
theorem laneLow_be {j : Nat} (h : j < 4) : laneLow .be j = 8 * (3 - j) := by
  rw [laneLow]
  omega

/-- Settles O20: a header byte is a lane of its count, and the two orders differ only in where lane j begins. -/
theorem headerByteOrder : Obligations.HeaderByteOrder := by
  unfold Obligations.HeaderByteOrder
  intro b k _
  refine ⟨hdrByte_toNat .le b k, ?_⟩
  have lane : k.toNat % 4 < 4 := Nat.mod_lt _ (by decide)
  rw [hdrByte_toNat, laneLow_be lane]

/-! The port transaction of a micro-operation (R10, R73). -/

/-- The host's side after a micro-operation: as it was, or after one port transaction. -/
inductive PortStep (h : HostSide) : HostSide → Prop where
  | none : PortStep h h
  | read : PortStep h (inRead h).2
  | rewind : PortStep h (inRewind h).2
  | write (x : Byte) : PortStep h (outWrite x h).2

theorem inRead_obs (h : HostSide) : (inRead h).2.obs = .inRead (inRead h).1 :: h.obs := by
  rcases inRead_cases h with ⟨-, e⟩ | ⟨-, -, e⟩ | ⟨x, -, -, e⟩ <;> rw [e]

theorem inRewind_obs (h : HostSide) : (inRewind h).2.obs = .inRewind (inRewind h).1 :: h.obs := by
  unfold inRewind; split <;> rfl

theorem outWrite_obs (x : Byte) (h : HostSide) : (outWrite x h).2.obs = .outWrite x (outWrite x h).1 :: h.obs := by
  unfold outWrite; split <;> rfl

theorem PortStep.obs {h k : HostSide} (p : PortStep h k) :
    k.obs = h.obs ∨ ∃ o, k.obs = o :: h.obs ∧ ∀ off v, o ≠ .regRead off v := by
  cases p with
  | none => exact .inl rfl
  | read => exact .inr ⟨_, inRead_obs h, nofun⟩
  | rewind => exact .inr ⟨_, inRewind_obs h, nofun⟩
  | write x => exact .inr ⟨_, outWrite_obs x h, nofun⟩

/-- S_D_BIT reads only when no bit is held. -/
theorem WalkFrom.portStep {s : State} {b : Block} {h : HostSide} (w : WalkFrom s b h) : PortStep s.host h := by
  rcases w with ⟨-, -, rfl⟩ | ⟨x, -, -, -, -, rfl⟩
  · exact .none
  · exact .read

/-- A micro-operation changes the block, and the host's side by at most one port transaction; never the parameter. -/
theorem microOp_portStep {i : Instr} {s t : State} (m : isMicroOp i = true) (e : exec i s = .next t) :
    ∃ h, PortStep s.host h ∧ t = { s with blk := t.blk, host := h } := by
  cases i
  case sIdle => cases e; exact ⟨_, .none, rfl⟩
  case sECount => exact ⟨_, .read, (execSECount_cases e).1⟩
  case sERewind => exact ⟨_, .rewind, (execSERewind_cases e).1⟩
  case sTInit => exact ⟨_, .none, (execSTInit_cases e).1⟩
  case sTMerge => exact ⟨_, .none, (execSTMerge_cases e).1⟩
  case sCGen => exact ⟨_, .none, (execSCGen_cases e).1⟩
  case sEHdr => exact ⟨_, .write _, (execSEHdr_cases e).2.1⟩
  case sERead => exact ⟨_, .read, (execSERead_cases e).1⟩
  case sEBit => exact ⟨_, .none, (execSEBit_cases e).2.1⟩
  case sEWrite => exact ⟨_, .write _, (execSEWrite_cases e).1⟩
  case sEFlush =>
    rcases execSEFlush_cases e with ⟨-, rfl⟩ | ⟨-, q, -⟩
    · exact ⟨_, .none, rfl⟩
    · exact ⟨_, .write _, q⟩
  case sDHdr => exact ⟨_, .read, (execSDHdr_cases e).1⟩
  case sDBit =>
    rcases execSDBit_cases e with ⟨-, q, -⟩ | ⟨b, h, w, q, -⟩
    · exact ⟨_, .read, q⟩
    · exact ⟨_, w.portStep, q⟩
  case sDEmit =>
    obtain ⟨n, -, q, -⟩ := execSDEmit_cases e
    exact ⟨_, .write _, q⟩
  -- The commands and the reserved STATE values are no micro-operations.
  all_goals cases m

theorem microOp_cfg {i : Instr} {s t : State} (m : isMicroOp i = true) (e : exec i s = .next t) : t.cfg = s.cfg := by
  obtain ⟨h, -, q⟩ := microOp_portStep m e
  rw [q]

/-- Settles O50: the host's side changes by at most one port transaction, and each transaction is one entry of the
record. -/
theorem atMostOneTransactionPerStep : Obligations.AtMostOneTransactionPerStep := by
  unfold Obligations.AtMostOneTransactionPerStep
  intro i s t m e
  obtain ⟨h, p, q⟩ := microOp_portStep m e
  rw [q]
  exact p.obs

/-! Which micro-operations raise, and what (R308). A computation that commits leaves ERR alone. -/

@[simp] theorem treeDone_err (b : Block) : (treeDone b).err = b.err := by
  unfold treeDone; split <;> rfl

@[simp] theorem mergeSuccessor_err (b : Block) : (mergeSuccessor b).err = b.err := by
  unfold mergeSuccessor; split
  · exact treeDone_err _
  · rfl

theorem mergeOnce_err {b d : Block} (e : mergeOnce b = .ok d) : d.err = b.err := by
  obtain ⟨_, _, _, _, _, _, _, _, q, _⟩ := mergeOnce_inv e
  rw [q]; rfl

theorem singleRoot_err {b d : Block} (e : singleRoot b = .ok d) : d.err = b.err := by
  obtain ⟨_, _, _, _, _, q, _⟩ := singleRoot_inv e
  rw [q]; rfl

theorem buildLeaves_err {l : List Byte} {b c : Block} (e : buildLeaves l b = .ok c) : c.err = b.err := by
  rw [(buildLeaves_inv e).1]

theorem initSuccessor_err {b d : Block} (e : initSuccessor b = .ok d) : d.err = b.err := by
  unfold initSuccessor at e
  split at e
  · split at e <;> cases e <;> rfl
  · split at e
    · obtain ⟨r, er, rfl⟩ := map_ok e
      rw [treeDone_err, singleRoot_err er]
    · cases e; rfl

theorem tInitStep_err {b d : Block} (e : tInitStep b = .ok d) : d.err = b.err := by
  obtain ⟨c, ec, e⟩ := bind_ok e
  rw [initSuccessor_err e, buildLeaves_err ec]

theorem codeGen_err {b c : Block} (e : codeGen b = .ok c) : c.err = b.err := by
  rw [visit_inv e]

theorem walkStep_err {b d : Block} (e : walkStep b = .ok d) : d.err = b.err := by
  rcases walkStep_cases b with ⟨_, _, _, _, _, _, w⟩ | ⟨_, _, _, w⟩ | ⟨_, _, w⟩ <;> rw [w] at e <;> cases e
  rfl

theorem WalkFrom.err {s : State} {b : Block} {h : HostSide} (w : WalkFrom s b h) : b.err = s.blk.err := by
  rcases w with ⟨-, rfl, -⟩ | ⟨x, -, -, -, rfl, -⟩ <;> rfl

/-- R308: the errors that each micro-operation can raise. -/
def errorsOf (i : Instr) : List (ErrCode × Stage) :=
  match i with
  | .sECount => [(.ioError, .analysis), (.countOverflow, .analysis)]
  | .sERewind => [(.ioError, .analysis)]
  | .sTInit | .sTMerge => [(.allocationError, .treeBuild)]
  | .sEHdr => [(.ioError, .header)]
  | .sERead => [(.ioError, .bitEncode), (.streamMismatch, .bitEncode)]
  | .sEWrite | .sEFlush => [(.ioError, .bitEncode)]
  | .sDHdr => [(.ioError, .header), (.formatError, .header)]
  | .sDBit => [(.ioError, .bitDecode), (.formatError, .bitDecode)]
  | .sDEmit => [(.ioError, .bitDecode)]
  | _ => []

/-- No error of the table has the code or the stage NONE. -/
theorem errorsOf_ne_none (i : Instr) : ∀ p ∈ errorsOf i, p.1 ≠ .none ∧ p.2 ≠ .none := by
  unfold errorsOf
  split <;> decide

/-- The block after a micro-operation: ERR is as before, or error entry acted on the block as it was, with an error of
the micro-operation. -/
def CommitsOrRaises (i : Instr) (b c : Block) : Prop :=
  c.err = b.err ∨ ∃ k g, (k, g) ∈ errorsOf i ∧ c = errorEntry k g b

theorem CommitsOrRaises.commit {i : Instr} {b c d : Block} (q : c = d) (h : d.err = b.err) : CommitsOrRaises i b c :=
  .inl (q ▸ h)

theorem CommitsOrRaises.raise {i : Instr} {b c : Block} {k : ErrCode} {g : Stage} (q : c = errorEntry k g b)
    (h : (k, g) ∈ errorsOf i) : CommitsOrRaises i b c := .inr ⟨k, g, h, q⟩

/-- The one split over the micro-operations for the block: each way to end of their inversion lemmas is a commit that
leaves ERR alone, or a raise of the micro-operation's row in R308. -/
theorem microOp_commitsOrRaises {i : Instr} {s t : State} (m : isMicroOp i = true) (e : exec i s = .next t) :
    CommitsOrRaises i s.blk t.blk := by
  cases i
  case sIdle => cases e; exact .commit rfl rfl
  case sECount =>
    rcases (execSECount_cases e).2 with ⟨-, q⟩ | ⟨-, -, q⟩ | ⟨x, -, -, ⟨-, q⟩ | ⟨-, q⟩⟩
    · exact .raise q (by decide)
    · exact .commit q rfl
    · exact .raise q (by decide)
    · exact .commit q rfl
  case sERewind =>
    rcases (execSERewind_cases e).2 with ⟨-, q⟩ | ⟨-, q⟩
    · exact .raise q (by decide)
    · exact .commit q rfl
  case sTInit =>
    rcases (execSTInit_cases e).2 with q | q
    · exact .raise q (by decide)
    · exact .commit rfl (tInitStep_err q)
  case sTMerge =>
    rcases (execSTMerge_cases e).2 with q | ⟨b, eb, q⟩
    · exact .raise q (by decide)
    · exact .commit q (by rw [mergeSuccessor_err, mergeOnce_err eb])
  case sCGen =>
    obtain ⟨b, eb, q⟩ := (execSCGen_cases e).2
    exact .commit q (show b.err = s.blk.err from codeGen_err eb)
  case sEHdr =>
    rcases (execSEHdr_cases e).2.2 with ⟨-, q⟩ | ⟨-, ⟨-, -, q⟩ | ⟨-, -, q⟩ | ⟨-, q⟩⟩
    · exact .raise q (by decide)
    all_goals exact .commit q rfl
  case sERead =>
    rcases (execSERead_cases e).2 with ⟨-, q⟩ | ⟨-, q⟩ | ⟨-, -, -, q⟩ | ⟨x, -, -, -, -, q⟩
    · exact .raise q (by decide)
    · exact .raise q (by decide)
    all_goals exact .commit q rfl
  case sEBit => exact .commit (execSEBit_cases e).2.2 rfl
  case sEWrite =>
    rcases (execSEWrite_cases e).2 with ⟨-, q⟩ | ⟨-, q⟩
    · exact .raise q (by decide)
    · exact .commit q rfl
  case sEFlush =>
    rcases execSEFlush_cases e with ⟨-, rfl⟩ | ⟨-, -, ⟨-, q⟩ | ⟨-, q⟩⟩
    · exact .commit rfl rfl
    · exact .raise q (by decide)
    · exact .commit q rfl
  case sDHdr =>
    rcases (execSDHdr_cases e).2 with ⟨-, q⟩ | ⟨-, -, q⟩ | ⟨x, -, -, -, q⟩
    · exact .raise q (by decide)
    · exact .raise q (by decide)
    · exact .commit q rfl
  case sDBit =>
    rcases execSDBit_cases e with ⟨-, -, ⟨-, q⟩ | ⟨-, -, q⟩⟩ | ⟨b, h, w, -, ew | ⟨-, q⟩⟩
    · exact .raise q (by decide)
    · exact .raise q (by decide)
    · exact .commit rfl ((walkStep_err ew).trans w.err)
    · exact .raise q (by decide)
  case sDEmit =>
    obtain ⟨n, -, -, ⟨-, q⟩ | ⟨-, -, q⟩ | ⟨-, -, q⟩⟩ := execSDEmit_cases e
    · exact .raise q (by decide)
    all_goals exact .commit q rfl
  -- The commands and the reserved STATE values are no micro-operations.
  all_goals cases m

/-- A micro-operation that sets ERR is error entry on the block as it was, with an error of its row in R308. -/
theorem microOp_raises {i : Instr} {s t : State} (m : isMicroOp i = true) (e : exec i s = .next t)
    (before : s.blk.err = false) (after : t.blk.err = true) :
    ∃ c g, (c, g) ∈ errorsOf i ∧ t.blk = errorEntry c g s.blk := by
  rcases microOp_commitsOrRaises m e with same | raised
  · rw [same, before] at after
    cases after
  · exact raised

/-- Settles O43: ERR rises only by error entry, which acts on the block as it was. -/
theorem errorsArePrecise : Obligations.ErrorsArePrecise := by
  unfold Obligations.ErrorsArePrecise
  intro i s t m e before after
  obtain ⟨c, g, raisable, q⟩ := microOp_raises m e before after
  obtain ⟨code, stage⟩ := errorsOf_ne_none i _ raisable
  rw [q]
  exact ⟨rfl, code, stage, rfl, microOp_cfg m e⟩

end Sys2Proof.Machine
end

section
/-! PROOFS of the family 10_state. First what a micro-operation can commit and where the block of a next state comes
from (R9, R281, R310); then the invariants that every step keeps (R25 to R41, R60, R97), that a state with them never
faults (R47, R160, R186), done_irq and MODE (R30, R32), what the turn runs (R23, R31), the register window (R22) and
the acceptance of a command (R49, R231, R232). -/

namespace Sys2Proof.Machine

/-! The codes of the instructions (R91, R95). -/

theorem encodeWord_decodeState (c : BitVec 5) : encodeWord (decodeState c) = .state c := by
  revert c; decide

/-! The end of the tree builder's states (R170, R171). -/

/-- c is b but for what the tree builder writes: the arena, the worklist, the root and the counts. -/
def TreeOnly (b c : Block) : Prop :=
  c = { b with
    node := c.node, ncnt := c.ncnt, wl := c.wl, wlLen := c.wlLen, root := c.root, rootV := c.rootV, total := c.total,
    distinct := c.distinct }

theorem TreeOnly.trans {b c d : Block} (h : TreeOnly b c) (g : TreeOnly c d) : TreeOnly b d := by
  unfold TreeOnly at h
  rw [h] at g
  exact g

theorem TreeOnly.mode {b c : Block} (h : TreeOnly b c) : c.mode = b.mode := by rw [h]

theorem buildLeaves_treeOnly {l : List Byte} {b c : Block} (e : buildLeaves l b = .ok c) : TreeOnly b c := by
  rw [(buildLeaves_inv e).1]; rfl

theorem singleRoot_treeOnly {b c : Block} (e : singleRoot b = .ok c) : TreeOnly b c := by
  obtain ⟨_, _, _, _, _, q, _⟩ := singleRoot_inv e
  rw [q]; rfl

theorem mergeOnce_treeOnly {b c : Block} (e : mergeOnce b = .ok c) : TreeOnly b c := by
  obtain ⟨_, _, _, _, _, _, _, _, q, _⟩ := mergeOnce_inv e
  rw [q]; rfl

/-- All that the end of a tree can do. -/
theorem treeDone_cases (b : Block) :
    (b.mode = 1 ∧ treeDone b = goto Code.sCGen b) ∨
    (b.mode ≠ 1 ∧ treeDone b = { b with cur := b.root, brCnt := 0, state := Code.sDBit }) := by
  unfold treeDone
  split
  · exact .inl ⟨by assumption, rfl⟩
  · exact .inr ⟨by assumption, rfl⟩

/-- The ways S_T_INIT commits: with no symbol it goes to the header or completes, by MODE; else the tree is done, or
goes on with merges. -/
theorem tInitStep_ok_cases {b d : Block} (e : tInitStep b = .ok d) :
    ∃ c, TreeOnly b c ∧ ((b.mode = 1 ∧ d = { c with hdrIdx := 0, state := Code.sEHdr }) ∨
      d = complete c ∨ d = treeDone c ∨ d = goto Code.sTMerge c) := by
  obtain ⟨c, ec, e⟩ := bind_ok e
  have counts : TreeOnly b { b with total := histTotal b, distinct := histDistinct b } := rfl
  have leaves : TreeOnly b c := counts.trans (buildLeaves_treeOnly ec)
  have noRoot : TreeOnly b { c with rootV := false } := leaves.trans rfl
  unfold initSuccessor at e
  split at e
  · split at e <;> rename_i m <;> rw [leaves.mode] at m <;> cases e
    · exact ⟨_, noRoot, .inl ⟨m, rfl⟩⟩
    · exact ⟨_, noRoot, .inr (.inl rfl)⟩
  · split at e
    · obtain ⟨r, er, rfl⟩ := map_ok e
      exact ⟨r, leaves.trans (singleRoot_treeOnly er), .inr (.inr (.inl rfl))⟩
    · cases e
      exact ⟨c, leaves, .inr (.inr (.inr rfl))⟩

/-- The ways S_T_MERGE commits: the tree is done, or goes on with merges. -/
theorem mergeSuccessor_cases (b : Block) :
    ∃ c, TreeOnly b c ∧ (mergeSuccessor b = treeDone c ∨ mergeSuccessor b = goto Code.sTMerge c) := by
  unfold mergeSuccessor
  split
  · exact ⟨{ b with root := b.wl[0], rootV := true }, rfl, .inl rfl⟩
  · exact ⟨b, rfl, .inr rfl⟩

/-! What a micro-operation commits, said once for the block: the cases of the inversion lemmas without the host's
side, and error entry apart. -/

/-- The block that S_D_BIT walks in, when it has a bit: a bit held, or a byte just loaded (R211, R261). -/
def HasBit (b c : Block) : Prop := (b.brCnt ≠ 0 ∧ c = b) ∨ ∃ x, c = brLoad x (countIn b)

/-- The header byte is done (R250). -/
abbrev nextHeader (b : Block) : Block := { countOut b with hdrIdx := b.hdrIdx + 1 }

/-- The symbol is emitted and the walk is back at the root (R262). -/
abbrev nextSymbol (b : Block) : Block := { countOut b with decCnt := b.decCnt + 1, cur := b.root }

/-- `Commits b i c`: the micro-operation i, from the block b, can commit the block c. -/
inductive Commits (b : Block) : Instr → Block → Prop where
  | counts (x : Byte) (v : Word) : Commits b .sECount (goto Code.sECount (countIn (setHist x v b)))
  | countEnds : Commits b .sECount (goto Code.sERewind b)
  | rewinds : Commits b .sERewind (goto Code.sTInit b)
  | noSymbol (c : Block) (f : TreeOnly b c) (encoding : b.mode = 1) :
    Commits b .sTInit { c with hdrIdx := 0, state := Code.sEHdr }
  | noSymbolEnds (c : Block) (f : TreeOnly b c) : Commits b .sTInit (complete c)
  | treeEnds (i : Instr) (tree : i = .sTInit ∨ i = .sTMerge) (c : Block) (f : TreeOnly b c) :
    Commits b i (treeDone c)
  | merges (i : Instr) (tree : i = .sTInit ∨ i = .sTMerge) (c : Block) (f : TreeOnly b c) :
    Commits b i (goto Code.sTMerge c)
  | codes (len : Vector (BitVec 9) 256) (bits : Vector (BitVec 256) 256) :
    Commits b .sCGen { b with codeLen := len, codeBits := bits, hdrIdx := 0, state := Code.sEHdr }
  | header (room : b.hdrIdx.toNat < 1024) (more : b.hdrIdx + 1 ≠ 1024#11) :
    Commits b .sEHdr (goto Code.sEHdr (nextHeader b))
  | headerEnds (last : b.hdrIdx + 1 = 1024#11) : Commits b .sEHdr (goto Code.sERead (nextHeader b))
  | headerOnly (last : b.hdrIdx + 1 = 1024#11) : Commits b .sEHdr (complete (nextHeader b))
  | symbol (x : Byte) (some : codeLenAt b x ≠ 0) :
    Commits b .sERead { b with emitCnt := b.emitCnt + 1, sym := x, bitIdx := 0, state := Code.sEBit }
  | symbolsEnd : Commits b .sERead (goto Code.sEFlush b)
  | bit : Commits b .sEBit { b with
      bwBuf := b.bwBuf ||| ((flagBit (codewordBit b b.sym b.bitIdx)).setWidth 8 <<< (7 - b.bwCnt.toNat))
      bwCnt := b.bwCnt + 1
      bitIdx := b.bitIdx + 1
      state := if b.bwCnt + 1 = 8 then Code.sEWrite
        else if b.bitIdx + 1 = codeLenAt b b.sym then Code.sERead else Code.sEBit }
  | byte : Commits b .sEWrite { b with
      outSize := b.outSize + 1
      bwBuf := 0
      bwCnt := 0
      state := if b.bitIdx < codeLenAt b b.sym then Code.sEBit else Code.sERead }
  | flushesNothing : Commits b .sEFlush (complete b)
  | flushes : Commits b .sEFlush (complete (bwClear (countOut b)))
  | headerRead (o : ByteOrder) (x : Byte) (room : b.hdrIdx.toNat < 1024) :
    Commits b .sDHdr { countIn (putHdrByte o x b) with
      hdrIdx := b.hdrIdx + 1
      state := if b.hdrIdx + 1 = 1024#11 then Code.sTInit else Code.sDHdr }
  | walks (c : Block) (has : HasBit b c) (h : Handle) (m : Node) :
    Commits b .sDBit { c with
      brBuf := c.brBuf <<< 1
      brCnt := c.brCnt - 1
      cur := h
      state := if isLeaf m then Code.sDEmit else Code.sDBit }
  | emits : Commits b .sDEmit (goto Code.sDBit (nextSymbol b))
  | emitsLast : Commits b .sDEmit (complete (nextSymbol b))

/-- A micro-operation i ends with a commit, or with error entry on the block as it was and an error of its row in
R308. -/
inductive Ends (i : Instr) (b c : Block) : Prop where
  | commits (h : Commits b i c)
  | raises (k : ErrCode) (g : Stage) (row : (k, g) ∈ errorsOf i) (eq : c = errorEntry k g b)

theorem Commits.tree {i : Instr} {b c d : Block} (tree : i = .sTInit ∨ i = .sTMerge) (f : TreeOnly b c)
    (q : d = treeDone c ∨ d = goto Code.sTMerge c) : Commits b i d := by
  rcases q with rfl | rfl
  · exact .treeEnds i tree c f
  · exact .merges i tree c f

theorem tInitStep_commits {b d : Block} (e : tInitStep b = .ok d) : Commits b .sTInit d := by
  obtain ⟨c, f, ⟨encoding, rfl⟩ | rfl | q⟩ := tInitStep_ok_cases e
  · exact .noSymbol c f encoding
  · exact .noSymbolEnds c f
  · exact .tree (.inl rfl) f q

theorem mergeOnce_commits {b c : Block} (e : mergeOnce b = .ok c) : Commits b .sTMerge (mergeSuccessor c) := by
  obtain ⟨d, f, q⟩ := mergeSuccessor_cases c
  exact .tree (.inr rfl) ((mergeOnce_treeOnly e).trans f) q

theorem WalkFrom.hasBit {s : State} {b : Block} {h : HostSide} (w : WalkFrom s b h) : HasBit s.blk b := by
  rcases w with ⟨held, rfl, -⟩ | ⟨x, -, -, -, rfl, -⟩
  · exact .inl ⟨held, rfl⟩
  · exact .inr ⟨x, rfl⟩

theorem HasBit.commits {b c d : Block} (has : HasBit b c) (e : walkStep c = .ok d) : Commits b .sDBit d := by
  rcases walkStep_cases c with ⟨_, h, m, _, _, _, w⟩ | ⟨_, _, _, w⟩ | ⟨_, _, w⟩ <;> rw [w] at e <;> cases e
  exact .walks c has h m

/-- The one split over the micro-operations: each way to end of their inversion lemmas is a commit or a raise. -/
theorem microOp_ends {i : Instr} {s t : State} (m : isMicroOp i = true) (run : i ≠ .sIdle)
    (e : exec i s = .next t) : Ends i s.blk t.blk := by
  cases i
  case sIdle => exact absurd rfl run
  case sECount =>
    rcases (execSECount_cases e).2 with ⟨-, q⟩ | ⟨-, -, q⟩ | ⟨x, -, -, ⟨-, q⟩ | ⟨-, q⟩⟩ <;> rw [q]
    · exact .raises _ _ (by decide) rfl
    · exact .commits .countEnds
    · exact .raises _ _ (by decide) rfl
    · exact .commits (.counts x _)
  case sERewind =>
    rcases (execSERewind_cases e).2 with ⟨-, q⟩ | ⟨-, q⟩ <;> rw [q]
    · exact .raises _ _ (by decide) rfl
    · exact .commits .rewinds
  case sTInit =>
    rcases (execSTInit_cases e).2 with q | q
    · exact .raises _ _ (by decide) q
    · exact .commits (tInitStep_commits q)
  case sTMerge =>
    rcases (execSTMerge_cases e).2 with q | ⟨b, eb, q⟩
    · exact .raises _ _ (by decide) q
    · exact .commits (q ▸ mergeOnce_commits eb)
  case sCGen =>
    obtain ⟨b, eb, q⟩ := (execSCGen_cases e).2
    rw [q, visit_inv eb]
    exact .commits (.codes _ _)
  case sEHdr =>
    obtain ⟨room, -, ⟨-, q⟩ | ⟨-, ⟨last, -, q⟩ | ⟨last, -, q⟩ | ⟨more, q⟩⟩⟩ := execSEHdr_cases e <;> rw [q]
    · exact .raises _ _ (by decide) rfl
    · exact .commits (.headerOnly last)
    · exact .commits (.headerEnds last)
    · exact .commits (.header room more)
  case sERead =>
    rcases (execSERead_cases e).2 with ⟨-, q⟩ | ⟨-, q⟩ | ⟨-, -, -, q⟩ | ⟨x, -, -, -, some, q⟩ <;> rw [q]
    · exact .raises _ _ (by decide) rfl
    · exact .raises _ _ (by decide) rfl
    · exact .commits .symbolsEnd
    · exact .commits (.symbol x some)
  case sEBit => exact .commits ((execSEBit_cases e).2.2 ▸ .bit)
  case sEWrite =>
    rcases (execSEWrite_cases e).2 with ⟨-, q⟩ | ⟨-, q⟩ <;> rw [q]
    · exact .raises _ _ (by decide) rfl
    · exact .commits .byte
  case sEFlush =>
    rcases execSEFlush_cases e with ⟨-, rfl⟩ | ⟨-, -, ⟨-, q⟩ | ⟨-, q⟩⟩
    · exact .commits .flushesNothing
    · exact .raises _ _ (by decide) q
    · exact .commits (q ▸ .flushes)
  case sDHdr =>
    rcases (execSDHdr_cases e).2 with ⟨-, q⟩ | ⟨-, -, q⟩ | ⟨x, -, -, room, q⟩ <;> rw [q]
    · exact .raises _ _ (by decide) rfl
    · exact .raises _ _ (by decide) rfl
    · exact .commits (.headerRead _ x room)
  case sDBit =>
    rcases execSDBit_cases e with ⟨-, -, ⟨-, q⟩ | ⟨-, -, q⟩⟩ | ⟨b, h, w, -, ew | ⟨-, q⟩⟩
    · exact .raises _ _ (by decide) q
    · exact .raises _ _ (by decide) q
    · exact .commits (w.hasBit.commits ew)
    · exact .raises _ _ (by decide) q
  case sDEmit =>
    obtain ⟨n, -, -, ⟨-, q⟩ | ⟨-, -, q⟩ | ⟨-, -, q⟩⟩ := execSDEmit_cases e <;> rw [q]
    · exact .raises _ _ (by decide) rfl
    · exact .commits .emitsLast
    · exact .commits .emits
  -- The commands and the reserved STATE values are no micro-operations.
  all_goals cases m

/-- The turn of a sequencer that answers a next state is S_IDLE's, which changes nothing, or a micro-operation's. -/
theorem sequencer_cases {c : BitVec 5} {s t : State} (e : exec (decodeState c) s = .next t) :
    (c = Code.sIdle ∧ t = s) ∨ (isMicroOp (decodeState c) = true ∧ decodeState c ≠ .sIdle) := by
  rcases exec_decodeState_cases e with h | ⟨rfl, -⟩ | ⟨rfl, -⟩ | ⟨rfl, -⟩ | ⟨rfl, -⟩ | ⟨rfl, -⟩ | ⟨rfl, -⟩ | ⟨rfl, -⟩ |
    ⟨rfl, -⟩ | ⟨rfl, -⟩ | ⟨rfl, -⟩ | ⟨rfl, -⟩ | ⟨rfl, -⟩ | ⟨rfl, -⟩
  · exact .inl h
  all_goals exact .inr (by decide)

/-- Where the block of the next state comes from (R10, R12): the block as it is, an end of the micro-operation that
STATE selects, a command word written to CMD, or the reset event. -/
theorem step_block_from {s t : State} (e : step s = .next t) :
    t.blk = s.blk ∨ (s.blk.state ≠ Code.sIdle ∧ Ends (decodeState s.blk.state) s.blk t.blk) ∨
    (s.blk.busy = true ∧ t.blk = busyWrite s.blk) ∨
    (s.blk.busy = false ∧ ∃ w rest, s.host.agenda = .write 0x00#8 .word w :: rest ∧ t.blk = commandAct w s.blk) ∨
    (∃ d rest, s.host.agenda = .reset :: rest ∧ t.blk = resetBlock d) := by
  rcases step_next_cases e with ⟨err, r, -, micro⟩ | ⟨w, r, a, cmd⟩ | ⟨_, _, _, _, -, rfl⟩ | ⟨_, _, _, -, rfl⟩ |
    ⟨_, _, -, -, rfl⟩ | ⟨_, _, -, -, rfl⟩ | ⟨r, a, rfl⟩
  · rcases sequencer_cases micro with ⟨-, rfl⟩ | ⟨m, run⟩
    · exact .inl rfl
    · exact .inr (.inl ⟨fun z => run (by rw [z]; rfl), microOp_ends (s := withSchedule r err s) m run micro⟩)
  · cases (exec_decodeCmd_next cmd).2
    rcases Bool.eq_false_or_eq_true s.blk.busy with busy | idle
    · exact .inr (.inr (.inl ⟨busy, if_pos busy⟩))
    · exact .inr (.inr (.inr (.inl ⟨idle, w, r, a, if_neg (by simp [idle])⟩)))
  · exact .inl rfl
  · exact .inl rfl
  · exact .inl rfl
  · exact .inl rfl
  · exact .inr (.inr (.inr (.inr ⟨_, r, a, rfl⟩)))

/-- What holds of a block and of all that a step can make of it holds of the next block. -/
theorem step_keeps {P : Block → Prop} {s t : State} (e : step s = .next t) (here : P s.blk)
    (noted : P (busyWrite s.blk)) (command : ∀ w, s.blk.busy = false → P (commandAct w s.blk))
    (reset : ∀ d, P (resetBlock d))
    (ends : ∀ c, s.blk.state ≠ Code.sIdle → Ends (decodeState s.blk.state) s.blk c → P c) : P t.blk := by
  rcases step_block_from e with q | ⟨run, h⟩ | ⟨-, q⟩ | ⟨idle, w, -, -, q⟩ | ⟨d, -, -, q⟩
  · exact q ▸ here
  · exact ends _ run h
  · exact q ▸ noted
  · exact q ▸ command w idle
  · exact q ▸ reset d

/-! The control registers. -/

/-- The registers that say how a command stands: the flags but REJ, ERROR, and MODE (R25, R26, R32). -/
structure Flags where
  busy : Bool
  done : Bool
  err : Bool
  errCode : ErrCode
  errStage : Stage
  mode : BitVec 2

def flags (b : Block) : Flags := ⟨b.busy, b.done, b.err, b.errCode, b.errStage, b.mode⟩

theorem flags_eq_iff {b c : Block} : flags c = flags b ↔
    c.busy = b.busy ∧ c.done = b.done ∧ c.err = b.err ∧ c.errCode = b.errCode ∧ c.errStage = b.errStage ∧
      c.mode = b.mode := by simp only [flags, Flags.mk.injEq]

/-- The states that a micro-operation can go on to (R240, R241), by MODE. -/
def successors (i : Instr) (mode : BitVec 2) : List (BitVec 5) :=
  match i with
  | .sECount => [Code.sECount, Code.sERewind]
  | .sERewind => [Code.sTInit]
  | .sTInit => if mode = 1 then [Code.sEHdr, Code.sCGen, Code.sTMerge] else [Code.sDBit, Code.sTMerge]
  | .sTMerge => if mode = 1 then [Code.sCGen, Code.sTMerge] else [Code.sDBit, Code.sTMerge]
  | .sCGen => [Code.sEHdr]
  | .sEHdr => [Code.sEHdr, Code.sERead]
  | .sERead => [Code.sEFlush, Code.sEBit]
  | .sEBit => [Code.sEWrite, Code.sERead, Code.sEBit]
  | .sEWrite => [Code.sEBit, Code.sERead]
  | .sDHdr => [Code.sDHdr, Code.sTInit]
  | .sDBit => [Code.sDBit, Code.sDEmit]
  | .sDEmit => [Code.sDBit]
  | _ => []

theorem TreeOnly.flags {b c : Block} (h : TreeOnly b c) : flags c = flags b := by rw [h]; rfl

theorem HasBit.flags {b c : Block} (h : HasBit b c) : flags c = flags b := by
  rcases h with ⟨-, rfl⟩ | ⟨x, rfl⟩ <;> rfl

/-- The end of a tree goes on by MODE, with the flags as they were. -/
theorem treeDone_goesOn {i : Instr} (tree : i = .sTInit ∨ i = .sTMerge) (b : Block) :
    flags (treeDone b) = flags b ∧ (treeDone b).state ∈ successors i b.mode := by
  rcases treeDone_cases b with ⟨encoding, q⟩ | ⟨decoding, q⟩ <;> rw [q] <;> refine ⟨rfl, ?_⟩
  · rcases tree with rfl | rfl <;> simp [successors, encoding]
  · rcases tree with rfl | rfl <;> simp only [successors, if_neg decoding] <;> decide

/-- A commit goes on to a successor with the flags as they were, or completes (R281). -/
theorem Commits.control {i : Instr} {b c : Block} (h : Commits b i c) :
    (flags c = flags b ∧ c.state ∈ successors i b.mode) ∨ ∃ d, c = complete d ∧ flags d = flags b := by
  cases h with
  | noSymbol c f encoding => exact .inl ⟨f.flags, by simp [successors, encoding]⟩
  | noSymbolEnds c f => exact .inr ⟨c, rfl, f.flags⟩
  | treeEnds _ tree c f =>
    obtain ⟨same, next⟩ := treeDone_goesOn tree c
    exact .inl ⟨same.trans f.flags, f.mode ▸ next⟩
  | merges _ tree c f =>
    refine .inl ⟨f.flags, ?_⟩
    rcases tree with rfl | rfl <;> simp only [successors] <;> split <;> simp
  | headerOnly => exact .inr ⟨nextHeader b, rfl, rfl⟩
  | flushesNothing => exact .inr ⟨b, rfl, rfl⟩
  | flushes => exact .inr ⟨bwClear (countOut b), rfl, rfl⟩
  | emitsLast => exact .inr ⟨nextSymbol b, rfl, rfl⟩
  | bit =>
    refine .inl ⟨rfl, ?_⟩
    dsimp only
    split
    · simp [successors]
    · split <;> simp [successors]
  | byte | headerRead =>
    refine .inl ⟨rfl, ?_⟩
    dsimp only
    split <;> simp [successors]
  | walks c has =>
    refine .inl ⟨has.flags, ?_⟩
    dsimp only
    split <;> simp [successors]
  | _ => exact .inl ⟨rfl, by simp [successors]⟩

theorem Ends.mode {i : Instr} {b c : Block} (e : Ends i b c) : c.mode = b.mode := by
  cases e with
  | commits h => rcases h.control with ⟨same, -⟩ | ⟨d, rfl, same⟩ <;> exact congrArg Flags.mode same
  | raises k g _ q => rw [q]; rfl

/-! The control invariant (R25, R26, R32, R97). -/

/-- The states of each command (R240, R241): MODE is 1 in a state of ENCODE, 2 in one of DECODE. -/
def modeFits (c : BitVec 5) (mode : BitVec 2) : Bool :=
  decide ((c ∈ encodeStates → mode = 1) ∧ (c ∈ decodeStates → mode = 2) ∧ (c ∈ treeStates → mode = 1 ∨ mode = 2))

/-- From a state that fits MODE every successor is a running state that fits MODE. -/
theorem successors_fit (mode : BitVec 2) (c : BitVec 5) (fits : modeFits c mode = true) :
    ∀ d ∈ successors (decodeState c) mode, d ≠ Code.sIdle ∧ d.toNat < 14 ∧ modeFits d mode = true := by
  revert mode c
  decide

/-- An idle block needs no more than flags that agree. -/
theorem ControlInv.idle {b : Block} (state : b.state = Code.sIdle) (busy : b.busy = false) (mode : b.mode ≠ 3)
    (notBoth : ¬(b.done = true ∧ b.err = true)) (errorIff : b.err = true ↔ b.errCode ≠ .none)
    (noStage : b.err = false → b.errStage = .none) : ControlInv b where
  busyIff := by simp [state, busy]
  defined := by rw [state]; decide
  modeLegal := mode
  notBoth := notBoth
  busyClean h := by rw [busy] at h; cases h
  errorIff := errorIff
  noStage := noStage
  modeEncode := by rw [state]; exact fun h => absurd h (by decide)
  modeDecode := by rw [state]; exact fun h => absurd h (by decide)
  modeTree := by rw [state]; exact fun h => absurd h (by decide)

theorem ControlInv.state_of_idle {b : Block} (c : ControlInv b) (busy : b.busy = false) : b.state = Code.sIdle :=
  Decidable.byContradiction fun h => by
    have := c.busyIff.mpr h
    rw [busy] at this; cases this

/-- A running block has MODE 1 or 2 as its state says, and no end or error on record. -/
theorem ControlInv.running {b : Block} (state : b.state ≠ Code.sIdle) (defined : b.state.toNat < 14)
    (fits : modeFits b.state b.mode = true) (mode : b.mode ≠ 3) (busy : b.busy = true) (done : b.done = false)
    (err : b.err = false) (code : b.errCode = .none) (stage : b.errStage = .none) : ControlInv b where
  busyIff := by simp [state, busy]
  defined := defined
  modeLegal := mode
  notBoth h := by rw [done] at h; cases h.1
  busyClean _ := ⟨done, err⟩
  errorIff := by simp [err, code]
  noStage _ := stage
  modeEncode := (of_decide_eq_true fits).1
  modeDecode := (of_decide_eq_true fits).2.1
  modeTree := (of_decide_eq_true fits).2.2

theorem ControlInv.modeFits {b : Block} (c : ControlInv b) : modeFits b.state b.mode = true :=
  decide_eq_true ⟨c.modeEncode, c.modeDecode, c.modeTree⟩

theorem controlInv_accept {mode : BitVec 2} {first : BitVec 5} (b : Block) (state : first ≠ Code.sIdle)
    (defined : first.toNat < 14) (fits : modeFits first mode = true) (legal : mode ≠ 3) :
    ControlInv (accept mode first b) := .running state defined fits legal rfl rfl rfl rfl rfl

theorem controlInv_resetBlock (d : Nat) : ControlInv (resetBlock d) :=
  .idle rfl rfl (show 0#2 ≠ 3 by decide) (fun h => Bool.noConfusion h.1) ⟨nofun, absurd rfl⟩ fun _ => rfl

theorem ControlInv.busyWrite {b : Block} (c : ControlInv b) : ControlInv (busyWrite b) := { c with }

theorem ControlInv.commandAct {b : Block} (c : ControlInv b) (busy : b.busy = false) (w : Word) :
    ControlInv (commandAct w b) := by
  have state := c.state_of_idle busy
  rcases commandAct_cases w b with q | q | q | q <;> rw [q]
  · exact .idle state busy c.modeLegal (by simp) (by simp) (by simp)
  · exact controlInv_accept b (by decide) (by decide) (by decide) (by decide)
  · exact controlInv_accept b (by decide) (by decide) (by decide) (by decide)
  · exact .idle state busy c.modeLegal (by simp) (by simp) (by simp)

/-- Every end of a micro-operation keeps the invariant: the flags of a running block are clean, completion sets DONE,
error entry sets ERR with an error. -/
theorem ControlInv.ends {b c : Block} (v : ControlInv b) (run : b.state ≠ Code.sIdle)
    (e : Ends (decodeState b.state) b c) : ControlInv c := by
  have busy := v.busyIff.mpr run
  obtain ⟨done, err⟩ := v.busyClean busy
  have code : b.errCode = .none := by simpa [err] using v.errorIff
  have stage := v.noStage err
  cases e with
  | commits h =>
    rcases h.control with ⟨same, next⟩ | ⟨d, rfl, same⟩ <;> obtain ⟨fb, fd, fe, fc, fs, fm⟩ := flags_eq_iff.mp same
    · obtain ⟨state, defined, fits⟩ := successors_fit b.mode b.state v.modeFits _ next
      exact .running state defined (fm ▸ fits) (fm ▸ v.modeLegal) (fb.trans busy) (fd.trans done) (fe.trans err)
        (fc.trans code) (fs.trans stage)
    · exact .idle rfl rfl (fm ▸ v.modeLegal) (by simp [fe, err]) (by simp [fe, err, fc, code]) fun _ => fs.trans stage
  | raises k g row q =>
    subst q
    exact .idle rfl rfl v.modeLegal (by simp) (by simpa using (errorsOf_ne_none _ _ row).1) (by simp)

/-- Settles O54: a host step leaves the flags consistent, and so does every end of a micro-operation. -/
theorem controlInvariantKept : Obligations.ControlInvariantKept := by
  unfold Obligations.ControlInvariantKept
  intro s t v e
  exact step_keeps e v v.busyWrite (fun w idle => v.commandAct idle w) controlInv_resetBlock fun _ run h => v.ends run h

/-! The writer's invariant (R40, R202, R203). -/

theorem TreeOnly.writer {b c : Block} (h : TreeOnly b c) : c.bwBuf = b.bwBuf ∧ c.bwCnt = b.bwCnt := by
  rw [h]; exact ⟨rfl, rfl⟩

/-- An empty writer is well in every state but the two that hold bits of a codeword. -/
theorem WriterInv.ofEmpty {b : Block} (k : BitVec 5) (buf : b.bwBuf = 0) (cnt : b.bwCnt = 0) (state : b.state = k)
    (between : k ≠ Code.sEBit ∧ k ≠ Code.sEWrite := by decide) : WriterInv b where
  count := by simp [cnt]
  lowZero i _ := by simp [buf]
  atBit h := absurd (state.symm.trans h) between.1
  atWrite h := absurd (state.symm.trans h) between.2
  atRead _ := by simp [cnt]
  before _ := cnt

theorem WriterInv.bwBuf_eq_zero {b : Block} (w : WriterInv b) (cnt : b.bwCnt = 0) : b.bwBuf = 0 := by
  ext i hi
  rw [← BitVec.getLsbD_eq_getElem, w.lowZero i (by simpa [cnt] using hi)]
  simp

/-- The states before the emit pass (R49). -/
def beforeEmit : List (BitVec 5) :=
  [Code.sECount, Code.sERewind, Code.sTInit, Code.sTMerge, Code.sCGen, Code.sEHdr, Code.sDHdr]

/-- Their micro-operations. -/
def earlyInstrs : List Instr := [.sECount, .sERewind, .sTInit, .sTMerge, .sCGen, .sEHdr, .sDHdr]

theorem early_code_mem {i : Instr} {c : BitVec 5} (early : i ∈ earlyInstrs) (code : CodeWord.state c = encodeWord i) :
    c ∈ beforeEmit := by
  have codes : ∀ j ∈ earlyInstrs, ∃ k ∈ beforeEmit, encodeWord j = .state k := by decide
  obtain ⟨k, mem, q⟩ := codes i early
  exact CodeWord.state.inj (code.trans q) ▸ mem

/-- Before the emit pass the writer is empty, and a block that keeps it so is well. -/
theorem WriterInv.stillEmpty {b c : Block} (w : WriterInv b) (pre : b.state ∈ beforeEmit) (k : BitVec 5)
    (same : c.bwBuf = b.bwBuf ∧ c.bwCnt = b.bwCnt) (state : c.state = k)
    (between : k ≠ Code.sEBit ∧ k ≠ Code.sEWrite := by decide) : WriterInv c :=
  have cnt := w.before pre
  .ofEmpty k (same.1.trans (w.bwBuf_eq_zero cnt)) (same.2.trans cnt) state between

/-- In the states that ask nothing of the writer, a block that keeps its bits is well. -/
theorem WriterInv.quiet {b c : Block} (w : WriterInv b) (k : BitVec 5)
    (same : c.bwBuf = b.bwBuf ∧ c.bwCnt = b.bwCnt) (state : c.state = k)
    (free : ¬ k ∈ beforeEmit ++ [Code.sERead, Code.sEBit, Code.sEWrite, Code.sEFlush] := by decide) : WriterInv c := by
  subst state
  obtain ⟨buf, cnt⟩ := same
  simp only [List.mem_append, List.mem_cons, List.not_mem_nil, or_false, not_or] at free
  obtain ⟨pre, read, bit, write, flush⟩ := free
  exact
    { count := cnt ▸ w.count
      lowZero := by rw [buf, cnt]; exact w.lowZero
      atBit := fun h => absurd h bit
      atWrite := fun h => absurd h write
      atRead := fun h => absurd h (not_or.mpr ⟨read, flush⟩)
      before := fun h => absurd h pre }

theorem WriterInv.busyWrite {b : Block} (w : WriterInv b) : WriterInv (busyWrite b) := { w with }

theorem WriterInv.commandAct {b : Block} (v : WriterInv b) (w : Word) : WriterInv (commandAct w b) := by
  rcases commandAct_cases w b with q | q | q | q <;> rw [q]
  · exact { v with }
  · exact .ofEmpty Code.sECount rfl rfl rfl
  · exact .ofEmpty Code.sDHdr rfl rfl rfl
  · exact { v with }

theorem writerInv_resetBlock (d : Nat) : WriterInv (resetBlock d) := .ofEmpty Code.sIdle rfl rfl rfl

/-- What the emit pass asks of the writer, by state (R252 to R254). -/
inductive EmitReady (b : Block) : Prop where
  | bit (state : b.state = Code.sEBit) (room : b.bwCnt.toNat < 8) (idx : b.bitIdx < codeLenAt b b.sym)
  | write (state : b.state = Code.sEWrite) (full : b.bwCnt = 8) (idx : b.bitIdx ≤ codeLenAt b b.sym)
  | between (state : b.state = Code.sERead ∨ b.state = Code.sEFlush) (room : b.bwCnt.toNat < 8)

theorem EmitReady.state_mem {b : Block} (r : EmitReady b) :
    b.state ∈ [Code.sEBit, Code.sEWrite, Code.sERead, Code.sEFlush] := by
  cases r with
  | bit state => simp [state]
  | write state => simp [state]
  | between state => rcases state with state | state <;> simp [state]

theorem WriterInv.emitting {b : Block} (low : ∀ i, i < 8 - b.bwCnt.toNat → b.bwBuf.getLsbD i = false)
    (r : EmitReady b) : WriterInv b where
  count := by
    cases r with
    | bit _ room => omega
    | write _ full => rw [full]; decide
    | between _ room => omega
  lowZero := low
  atBit h := by
    cases r with
    | bit _ room idx => exact ⟨room, idx⟩
    | write state => rw [h] at state; cases state
    | between state => rw [h] at state; exact absurd state (by decide)
  atWrite h := by
    cases r with
    | bit state => rw [h] at state; cases state
    | write _ full idx => exact ⟨full, idx⟩
    | between state => rw [h] at state; exact absurd state (by decide)
  atRead h := by
    cases r with
    | bit _ room => exact room
    | write state => rw [state] at h; exact absurd h (by decide)
    | between _ room => exact room
  before h := by
    have apart : ∀ k ∈ [Code.sEBit, Code.sEWrite, Code.sERead, Code.sEFlush], ¬ k ∈ beforeEmit := by decide
    exact absurd h (apart _ r.state_mem)

/-- R201, R252: a bit put in a writer that is not full leaves the lower bits 0. -/
theorem WriterInv.putBit {b : Block} (w : WriterInv b) (room : b.bwCnt.toNat < 8) (x : Bool) (i : Nat)
    (hi : i < 8 - (b.bwCnt + 1).toNat) :
    (b.bwBuf ||| ((flagBit x).setWidth 8 <<< (7 - b.bwCnt.toNat))).getLsbD i = false := by
  have below : i < 7 - b.bwCnt.toNat := by
    rw [BitVec.toNat_add] at hi; simp at hi; omega
  rw [BitVec.getLsbD_or, w.lowZero i (by omega), BitVec.getLsbD_shiftLeft]
  simp [below]

theorem HasBit.writer {b c : Block} (h : HasBit b c) : c.bwBuf = b.bwBuf ∧ c.bwCnt = b.bwCnt := by
  rcases h with ⟨-, rfl⟩ | ⟨x, rfl⟩ <;> exact ⟨rfl, rfl⟩

/-- Every commit keeps the writer's invariant: before the emit pass the writer is empty; in it each state leaves what
its successor asks; in the walk no state asks anything. -/
theorem WriterInv.commits {i : Instr} {b c : Block} (w : WriterInv b) (h : Commits b i c)
    (state : CodeWord.state b.state = encodeWord i) : WriterInv c := by
  have pre (early : i ∈ earlyInstrs) : b.state ∈ beforeEmit := early_code_mem early state
  cases h with
  | counts => exact w.stillEmpty (pre (by decide)) Code.sECount ⟨rfl, rfl⟩ rfl
  | countEnds => exact w.stillEmpty (pre (by decide)) Code.sERewind ⟨rfl, rfl⟩ rfl
  | rewinds => exact w.stillEmpty (pre (by decide)) Code.sTInit ⟨rfl, rfl⟩ rfl
  | noSymbol c f => exact w.stillEmpty (pre (by decide)) Code.sEHdr f.writer rfl
  | noSymbolEnds c f => exact w.stillEmpty (pre (by decide)) Code.sIdle f.writer rfl
  | treeEnds _ tree c f =>
    have pre := pre (by rcases tree with rfl | rfl <;> decide)
    rcases treeDone_cases c with ⟨-, q⟩ | ⟨-, q⟩ <;> rw [q]
    · exact w.stillEmpty pre Code.sCGen f.writer rfl
    · exact w.stillEmpty pre Code.sDBit f.writer rfl
  | merges _ tree c f =>
    have pre := pre (by rcases tree with rfl | rfl <;> decide)
    exact w.stillEmpty pre Code.sTMerge f.writer rfl
  | codes => exact w.stillEmpty (pre (by decide)) Code.sEHdr ⟨rfl, rfl⟩ rfl
  | header => exact w.stillEmpty (pre (by decide)) Code.sEHdr ⟨rfl, rfl⟩ rfl
  | headerEnds => exact w.stillEmpty (pre (by decide)) Code.sERead ⟨rfl, rfl⟩ rfl
  | headerOnly => exact w.stillEmpty (pre (by decide)) Code.sIdle ⟨rfl, rfl⟩ rfl
  | headerRead =>
    refine w.stillEmpty (pre (by decide)) _ ⟨rfl, rfl⟩ rfl ?_
    dsimp only
    split <;> decide
  | symbol x some =>
    have room := w.atRead (.inl (CodeWord.state.inj state))
    exact .emitting w.lowZero (.bit rfl room (show 0 < codeLenAt b x by bv_omega))
  | symbolsEnd =>
    have room := w.atRead (.inl (CodeWord.state.inj state))
    exact .emitting w.lowZero (.between (.inr rfl) room)
  | bit =>
    obtain ⟨room, idx⟩ := w.atBit (CodeWord.state.inj state)
    refine .emitting (w.putBit room _) ?_
    by_cases full : b.bwCnt + 1 = 8
    · exact .write (if_pos full) full (show b.bitIdx + 1 ≤ codeLenAt b b.sym by bv_omega)
    · have room' : (b.bwCnt + 1).toNat < 8 := by bv_omega
      by_cases last : b.bitIdx + 1 = codeLenAt b b.sym
      · exact .between (.inl ((if_neg full).trans (if_pos last))) room'
      · exact .bit ((if_neg full).trans (if_neg last)) room' (show b.bitIdx + 1 < codeLenAt b b.sym by bv_omega)
  | byte =>
    refine .emitting (fun i _ => BitVec.getLsbD_zero) ?_
    by_cases more : b.bitIdx < codeLenAt b b.sym
    · exact .bit (if_pos more) (show 0 < 8 by decide) more
    · exact .between (.inl (if_neg more)) (show 0 < 8 by decide)
  | flushesNothing => exact w.quiet Code.sIdle ⟨rfl, rfl⟩ rfl
  | flushes => exact .ofEmpty Code.sIdle rfl rfl rfl
  | walks c has h m =>
    refine w.quiet _ has.writer rfl ?_
    dsimp only
    split <;> decide
  | emits => exact w.quiet Code.sDBit ⟨rfl, rfl⟩ rfl
  | emitsLast => exact w.quiet Code.sIdle ⟨rfl, rfl⟩ rfl

theorem WriterInv.ends {i : Instr} {b c : Block} (w : WriterInv b) (e : Ends i b c)
    (state : CodeWord.state b.state = encodeWord i) : WriterInv c := by
  cases e with
  | commits h => exact w.commits h state
  | raises k g _ q => exact q ▸ w.quiet Code.sIdle ⟨rfl, rfl⟩ rfl

/-- Settles O55: a host step leaves the writer as it is or empties it, and every end of a micro-operation keeps its
invariant. -/
theorem writerInvariantKept : Obligations.WriterInvariantKept := by
  unfold Obligations.WriterInvariantKept
  intro s t v e
  exact step_keeps e v v.busyWrite (fun w _ => v.commandAct w) writerInv_resetBlock fun _ _ h =>
    v.ends h (encodeWord_decodeState _).symm

/-! The index registers and the cursor (R39, R41, R60). -/

theorem IndexInv.ofAway {b : Block} (k : BitVec 5) (header : b.hdrIdx.toNat ≤ 1024) (reader : b.brCnt.toNat ≤ 8)
    (state : b.state = k) (away : ¬(k = Code.sEHdr ∨ k = Code.sDHdr) := by decide) : IndexInv b where
  header := header
  atHeader h := absurd (state ▸ h) away
  reader := reader

/-- Away from the header, a block that keeps both registers keeps the invariant. -/
theorem IndexInv.away {b c : Block} (v : IndexInv b) (k : BitVec 5) (same : c.hdrIdx = b.hdrIdx ∧ c.brCnt = b.brCnt)
    (state : c.state = k) (away : ¬(k = Code.sEHdr ∨ k = Code.sDHdr) := by decide) : IndexInv c :=
  .ofAway k (same.1 ▸ v.header) (same.2 ▸ v.reader) state away

/-- A block whose header index is before the end is well in every state. -/
theorem IndexInv.ofRoom {b : Block} (room : b.hdrIdx.toNat < 1024) (reader : b.brCnt.toNat ≤ 8) : IndexInv b where
  header := by omega
  atHeader _ := room
  reader := reader

theorem IndexInv.commandAct {b : Block} (v : IndexInv b) (w : Word) : IndexInv (commandAct w b) := by
  rcases commandAct_cases w b with q | q | q | q <;> rw [q]
  · exact { v with }
  · exact .ofRoom (show 0 < 1024 by decide) (Nat.zero_le 8)
  · exact .ofRoom (show 0 < 1024 by decide) (Nat.zero_le 8)
  · exact { v with }

theorem indexInv_resetBlock (d : Nat) : IndexInv (resetBlock d) :=
  .ofRoom (show 0 < 1024 by decide) (Nat.zero_le 8)

theorem TreeOnly.index {b c : Block} (h : TreeOnly b c) : c.hdrIdx = b.hdrIdx ∧ c.brCnt = b.brCnt := by
  rw [h]; exact ⟨rfl, rfl⟩

/-- R211, R261: the reader holds 1 to 8 bits when one is taken. -/
theorem HasBit.index {b c : Block} (h : HasBit b c) (reader : b.brCnt.toNat ≤ 8) :
    c.hdrIdx = b.hdrIdx ∧ (c.brCnt - 1).toNat ≤ 8 := by
  rcases h with ⟨held, rfl⟩ | ⟨x, rfl⟩
  · exact ⟨rfl, by bv_omega⟩
  · exact ⟨rfl, show (8 - 1 : BitVec 4).toNat ≤ 8 by decide⟩

/-- Every commit keeps the index registers in range: the header index stops at 1024, which ends the header. -/
theorem IndexInv.commits {i : Instr} {b c : Block} (v : IndexInv b) (h : Commits b i c) : IndexInv c := by
  cases h with
  | counts => exact v.away Code.sECount ⟨rfl, rfl⟩ rfl
  | countEnds => exact v.away Code.sERewind ⟨rfl, rfl⟩ rfl
  | rewinds => exact v.away Code.sTInit ⟨rfl, rfl⟩ rfl
  | noSymbol c f => exact .ofRoom (show 0 < 1024 by decide) (f.index.2 ▸ v.reader)
  | noSymbolEnds c f => exact v.away Code.sIdle f.index rfl
  | treeEnds _ tree c f =>
    rcases treeDone_cases c with ⟨-, q⟩ | ⟨-, q⟩ <;> rw [q]
    · exact v.away Code.sCGen f.index rfl
    · exact .ofAway Code.sDBit (f.index.1 ▸ v.header) (Nat.zero_le 8) rfl
  | merges _ tree c f => exact v.away Code.sTMerge f.index rfl
  | codes => exact .ofRoom (show 0 < 1024 by decide) v.reader
  | header room more => exact .ofRoom (show (b.hdrIdx + 1).toNat < 1024 by bv_omega) v.reader
  | headerEnds last => exact .ofAway Code.sERead (show (b.hdrIdx + 1).toNat ≤ 1024 by rw [last]; decide) v.reader rfl
  | headerOnly last => exact .ofAway Code.sIdle (show (b.hdrIdx + 1).toNat ≤ 1024 by rw [last]; decide) v.reader rfl
  | headerRead o x room =>
    by_cases last : b.hdrIdx + 1 = 1024#11
    · exact .ofAway Code.sTInit (show (b.hdrIdx + 1).toNat ≤ 1024 by rw [last]; decide) v.reader (if_pos last)
    · exact .ofRoom (show (b.hdrIdx + 1).toNat < 1024 by bv_omega) v.reader
  | symbol => exact v.away Code.sEBit ⟨rfl, rfl⟩ rfl
  | symbolsEnd => exact v.away Code.sEFlush ⟨rfl, rfl⟩ rfl
  | bit =>
    refine v.away _ ⟨rfl, rfl⟩ rfl ?_
    dsimp only
    split
    · decide
    · split <;> decide
  | byte =>
    refine v.away _ ⟨rfl, rfl⟩ rfl ?_
    dsimp only
    split <;> decide
  | flushesNothing | flushes | emitsLast => exact v.away Code.sIdle ⟨rfl, rfl⟩ rfl
  | emits => exact v.away Code.sDBit ⟨rfl, rfl⟩ rfl
  | walks c has h m =>
    obtain ⟨hdr, taken⟩ := has.index v.reader
    refine .ofAway _ (hdr ▸ v.header) taken rfl ?_
    dsimp only
    split <;> decide

theorem IndexInv.ends {i : Instr} {b c : Block} (v : IndexInv b) (e : Ends i b c) : IndexInv c := by
  cases e with
  | commits h => exact v.commits h
  | raises k g _ q => exact q ▸ v.away Code.sIdle ⟨rfl, rfl⟩ rfl

theorem PortStep.cursor {h k : HostSide} (p : PortStep h k) (le : h.icur ≤ h.inData.length) :
    k.icur ≤ k.inData.length := by
  cases p with
  | none => exact le
  | read => rw [inRead_inData]; exact inRead_icur_le le
  | rewind => rw [inRewind_inData]; exact inRewind_icur_le h
  | write x => rw [outWrite_inData, outWrite_icur]; exact le

/-- R60: every step keeps the cursor inside the input. -/
theorem step_cursor {s t : State} (e : step s = .next t) (le : s.host.icur ≤ s.host.inData.length) :
    t.host.icur ≤ t.host.inData.length := by
  rcases step_next_cases e with ⟨err, r, -, micro⟩ | ⟨w, r, -, cmd⟩ | ⟨_, _, _, _, -, rfl⟩ | ⟨_, _, _, -, rfl⟩ |
    ⟨_, _, -, -, rfl⟩ | ⟨_, _, -, -, rfl⟩ | ⟨_, -, rfl⟩
  · rcases sequencer_cases micro with ⟨-, rfl⟩ | ⟨m, -⟩
    · exact le
    · obtain ⟨h, p, q⟩ := microOp_portStep m micro
      rw [q]
      exact p.cursor le
  · cases (exec_decodeCmd_next cmd).2
    exact le
  · exact le
  · exact le
  · exact Nat.zero_le _
  · exact le
  · exact le

/-- Settles O56: the block keeps the index registers in range, the host's side the cursor. -/
theorem indexAndCursorInvariantKept : Obligations.IndexAndCursorInvariantKept := by
  unfold Obligations.IndexAndCursorInvariantKept
  intro s t v le e
  exact ⟨step_keeps e v { v with } (fun w _ => v.commandAct w) indexInv_resetBlock fun _ _ h => v.ends h,
    step_cursor e le⟩

/-! No fault (R47, R97, R160, R186). -/

/-- A computation that meets no index and no precondition it must not. -/
def NoFault {α : Type} (m : Except Stop α) : Prop := ∀ f, m ≠ .error (.fault f)

theorem NoFault.ok {α : Type} (a : α) : NoFault (.ok a : Except Stop α) := nofun

theorem NoFault.ofOk {α : Type} {m : Except Stop α} (h : ∃ a, m = .ok a) : NoFault m := by
  obtain ⟨a, rfl⟩ := h
  exact .ok a

theorem NoFault.raise {α : Type} (c : ErrCode) (g : Stage) : NoFault (.error (.raise c g) : Except Stop α) :=
  fun _ e => nomatch e

theorem finish_ne_fault {s : State} {h : HostSide} {m : Micro} (safe : NoFault m) (f : Fault) :
    finish s h m ≠ .fault f := by
  match m with
  | .ok b => exact nofun
  | .error (.raise c g) => exact nofun
  | .error (.fault g) => exact absurd rfl (safe g)

/-! The steps that index nothing. -/

theorem countStep_noFault (r : InAnswer) (b : Block) : NoFault (countStep r b) := by
  cases r with
  | err => exact .raise _ _
  | eof => exact .ok _
  | byte x =>
    simp only [countStep, histInc]
    split
    · exact .raise _ _
    · exact .ok _

theorem rewindStep_noFault (r : PortAnswer) (b : Block) : NoFault (rewindStep r b) := by
  cases r with
  | err => exact .raise _ _
  | ok => exact .ok _

theorem eHdrStep_noFault (r : PortAnswer) (b : Block) : NoFault (eHdrStep r b) := by
  cases r with
  | err => exact .raise _ _
  | ok =>
    simp only [eHdrStep]
    split
    · split <;> exact .ok _
    · exact .ok _

theorem eReadStep_noFault (r : InAnswer) (b : Block) : NoFault (eReadStep r b) := by
  cases r with
  | err => exact .raise _ _
  | eof =>
    simp only [eReadStep]
    split
    · exact .raise _ _
    · exact .ok _
  | byte x =>
    simp only [eReadStep]
    split
    · exact .raise _ _
    · split
      · exact .raise _ _
      · exact .ok _

theorem eWriteStep_noFault (r : PortAnswer) (b : Block) : NoFault (eWriteStep r b) := by
  cases r with
  | err => exact .raise _ _
  | ok => exact .ok _

theorem eFlushStep_noFault (r : PortAnswer) (b : Block) : NoFault (eFlushStep r b) := by
  cases r with
  | err => exact .raise _ _
  | ok => exact .ok _

theorem dEmitStep_noFault (r : PortAnswer) (b : Block) : NoFault (dEmitStep r b) := by
  cases r with
  | err => exact .raise _ _
  | ok =>
    simp only [dEmitStep]
    split <;> exact .ok _

/-! The steps that index a memory or call a primitive with a precondition, where these are met. -/

theorem eBitStep_noFault {b : Block} (room : b.bwCnt.toNat < 8) : NoFault (eBitStep b) := by
  rw [eBitStep, bwPut_ok _ room]
  exact .ok _

theorem dHdrStep_noFault (o : ByteOrder) (r : InAnswer) {b : Block} (room : b.hdrIdx.toNat < 1024) :
    NoFault (dHdrStep o r b) := by
  cases r with
  | err => exact .raise _ _
  | eof => exact .raise _ _
  | byte x =>
    simp only [dHdrStep, room, if_true]
    exact .ok _

/-- The walk needs a node at CUR and a handle of the arena at each child that is present. -/
theorem walkStep_noFault {b : Block} {n : Node} (here : nodeAt b b.cur = .ok n)
    (left : n.lv = true → n.l.toNat < 511) (right : n.rv = true → n.r.toNat < 511) : NoFault (walkStep b) := by
  have here' : nodeAt (brTake b).2 (brTake b).2.cur = .ok n := here
  have step : walkStep b = (childOf n (brTake b).1 >>= fun c => nodeAt (brTake b).2 c >>= fun m =>
      .ok { (brTake b).2 with cur := c, state := if isLeaf m then Code.sDEmit else Code.sDBit }) := by
    simp only [walkStep, bind, Except.bind, here']
  rw [step]
  cases (brTake b).1 with
  | false =>
    by_cases lv : n.lv = true
    · simp only [childOf, lv, if_true, bind, Except.bind, nodeAt_ok (left lv)]
      exact .ok _
    · simp only [childOf, lv]
      exact .raise _ _
  | true =>
    by_cases rv : n.rv = true
    · simp only [childOf, rv, if_true, bind, Except.bind, nodeAt_ok (right rv)]
      exact .ok _
    · simp only [childOf, rv]
      exact .raise _ _

theorem createdNode_lt {b : Block} {h : Handle} {n : Node} (e : createdNode b h = some n) :
    h.toNat < b.ncnt.toNat := by
  unfold createdNode at e
  split at e
  · assumption
  · cases e

theorem isLeaf_iff (n : Node) : isLeaf n = true ↔ n.lv = false ∧ n.rv = false := by simp [isLeaf]

/-- R167: the children of a node of a full tree are created nodes. -/
theorem FullTree.children {b : Block} {h : Handle} {n : Node} {k d : Nat} (t : FullTree b h k d)
    (hn : createdNode b h = some n) :
    (n.lv = true → n.l.toNat < b.ncnt.toNat) ∧ (n.rv = true → n.r.toNat < b.ncnt.toNat) := by
  cases t with
  | leaf _ m hm hl =>
    cases hm.symm.trans hn
    obtain ⟨lv, rv⟩ := (isLeaf_iff n).mp hl
    simp [lv, rv]
  | node _ m k₁ d₁ k₂ d₂ hm _ _ _ _ _ tl tr =>
    cases hm.symm.trans hn
    exact ⟨fun _ => fullTree_lt tl, fun _ => fullTree_lt tr⟩

theorem CodeTree.children {b : Block} {h : Handle} {n : Node} (t : CodeTree b h) (hn : createdNode b h = some n) :
    (n.lv = true → n.l.toNat < b.ncnt.toNat) ∧ (n.rv = true → n.r.toNat < b.ncnt.toNat) := by
  cases t with
  | full k d t => exact t.children hn
  | single m x hm _ hrv hx =>
    cases hm.symm.trans hn
    exact ⟨fun _ => createdNode_lt hx, fun rv => by rw [hrv] at rv; cases rv⟩

theorem WalkAt.children {b : Block} {h : Handle} {n : Node} {d : Nat} (t : WalkAt b h d)
    (hn : createdNode b h = some n) :
    (n.lv = true → n.l.toNat < b.ncnt.toNat) ∧ (n.rv = true → n.r.toNat < b.ncnt.toNat) := by
  cases t with
  | full k d t => exact t.children hn
  | single c => exact c.children hn

/-- R186: from the root of a code tree no path is longer than 255, and the traversal completes. -/
theorem codeGen_ok {b : Block} (t : CodeTree b b.root) : ∃ c, codeGen b = .ok c := by
  cases t with
  | full k d t two many =>
    have := fullTree_depth t
    exact visit_full t 256 (by omega) [] b rfl
  | single n m hn hlv hrv hm hl =>
    obtain ⟨c, e⟩ := visit_full (.leaf n.l m hm hl) 255 (by decide) [false] b rfl
    refine ⟨c, ?_⟩
    have inner : isLeaf n = false := by simp [isLeaf, hlv]
    rw [codeGen, visit_succ, createdNode_nodeAt hn]
    simp only [bind, Except.bind, inner, hlv, hrv, if_true, Bool.false_eq_true, if_false, List.nil_append, e]

/-- The end of S_T_INIT commits: with one candidate there is a head to take and room for the root. -/
theorem initSuccessor_ok {b : Block} (fits : b.wlLen.toNat ≤ 256) (room : b.ncnt.toNat < 511) (old : Candidates b) :
    ∃ d, initSuccessor b = .ok d := by
  unfold initSuccessor
  split
  · split <;> exact ⟨_, rfl⟩
  · split
    · rename_i one
      have len : (worklist b).length = 1 := by rw [worklist_length b fits, one]; rfl
      obtain ⟨l, w⟩ := List.length_eq_one_iff.mp len
      have small := old l (by simp [w])
      obtain ⟨r, er⟩ := singleRoot_ok w fits room (by omega)
      rw [er]
      exact ⟨_, rfl⟩
    · exact ⟨_, rfl⟩

/-- R160: from an empty arena and worklist there is room for a leaf of every symbol. -/
theorem buildLeaves_fromEmpty {b : Block} (ncnt : b.ncnt = 0) (wlLen : b.wlLen = 0) :
    ∃ c, buildLeaves allSymbols b = .ok c ∧ c.ncnt.toNat ≤ 256 ∧ c.wlLen.toNat ≤ 256 ∧ Candidates c := by
  have present : (presentIn b allSymbols).length ≤ 256 := (histDistinct_toNat b).2
  have noNode : b.ncnt.toNat = 0 := by rw [ncnt]; rfl
  have noCandidate : b.wlLen.toNat = 0 := by rw [wlLen]; rfl
  obtain ⟨c, e, cn, cw, old, -⟩ := buildLeaves_ok allSymbols b (by omega) (by omega)
    (by simp [Candidates, (worklist_eq_nil b).mpr wlLen])
  exact ⟨c, e, by omega, by omega, old⟩

theorem tInitStep_ok {b : Block} (ncnt : b.ncnt = 0) (wlLen : b.wlLen = 0) : ∃ d, tInitStep b = .ok d := by
  obtain ⟨c, e, room, fits, old⟩ :=
    buildLeaves_fromEmpty (b := { b with total := histTotal b, distinct := histDistinct b }) ncnt wlLen
  rw [tInitStep, e]
  exact initSuccessor_ok fits (by omega) old

/-- R160, R169: while merging there are two candidates and room for their parent. -/
theorem MergeInv.merges {b : Block} (v : MergeInv b) : ∃ d, mergeOnce b = .ok d := by
  have len := worklist_length b v.fits
  have two := v.two
  have small := v.distinct
  have count := v.count
  match w : worklist b with
  | [] => rw [w] at len; simp at len; omega
  | [x] => rw [w] at len; simp at len; omega
  | x :: y :: rest => exact mergeOnce_ok w v.fits (by omega) (forest_lt v.forest)

/-- The tree builder's states commit: no index, no precondition and no full arena stops them. -/
theorem TreeInv.treeStep_commits {i : Instr} {s : State} (v : TreeInv s.blk) (tree : i = .sTInit ∨ i = .sTMerge)
    (state : CodeWord.state s.blk.state = encodeWord i) :
    ∃ d, Commits s.blk i d ∧ exec i s = .next { s with blk := d } := by
  rcases tree with rfl | rfl
  · obtain ⟨ncnt, wlLen, -⟩ := v.before (by rw [CodeWord.state.inj state]; decide)
    obtain ⟨d, e⟩ := tInitStep_ok ncnt wlLen
    exact ⟨d, tInitStep_commits e, by rw [exec, execSTInit, e, finish_ok]⟩
  · obtain ⟨d, e⟩ := (v.atMerge (CodeWord.state.inj state)).1.merges
    exact ⟨_, mergeOnce_commits e, by rw [exec, execSTMerge, tMergeStep, e]; rfl⟩

/-- The walk of S_D_BIT indexes the arena at CUR and at a child of CUR only. -/
theorem TreeInv.walk_noFault {b c : Block} (v : TreeInv b) (state : b.state = Code.sDBit) (has : c.node = b.node)
    (cur : c.cur = b.cur) : NoFault (walkStep c) := by
  obtain ⟨-, ⟨n, here, -⟩, ⟨d, walk⟩, -⟩ := v.atDecodeBit state
  obtain ⟨left, right⟩ := walk.children here
  have arena := v.arena
  have here' : nodeAt c c.cur = .ok n := by rw [cur, nodeAt_congr has]; exact createdNode_nodeAt here
  exact walkStep_noFault here' (fun l => by have := left l; omega) (fun r => by have := right r; omega)

/-- From a state with the invariant the micro-operation that STATE selects does not fault. -/
theorem MachineInv.microOp_ne_fault {i : Instr} {s : State} (v : MachineInv s)
    (state : CodeWord.state s.blk.state = encodeWord i) (m : isMicroOp i = true) (f : Fault) :
    exec i s ≠ .fault f := by
  cases i
  case sIdle => exact nofun
  case sECount => exact finish_ne_fault (countStep_noFault _ _) f
  case sERewind => exact finish_ne_fault (rewindStep_noFault _ _) f
  case sTInit =>
    obtain ⟨d, -, e⟩ := v.tree.treeStep_commits (.inl rfl) state
    rw [e]; exact nofun
  case sTMerge =>
    obtain ⟨d, -, e⟩ := v.tree.treeStep_commits (.inr rfl) state
    rw [e]; exact nofun
  case sCGen =>
    obtain ⟨c, e⟩ := codeGen_ok (v.tree.atCodeGen (CodeWord.state.inj state)).2
    exact finish_ne_fault (.ofOk ⟨_, by rw [cGenStep, e]; rfl⟩) f
  case sEHdr =>
    have room := v.index.atHeader (.inl (CodeWord.state.inj state))
    rw [exec, execSEHdr, if_pos room]
    exact finish_ne_fault (eHdrStep_noFault _ _) f
  case sERead => exact finish_ne_fault (eReadStep_noFault _ _) f
  case sEBit => exact finish_ne_fault (eBitStep_noFault (v.writer.atBit (CodeWord.state.inj state)).1) f
  case sEWrite => exact finish_ne_fault (eWriteStep_noFault _ _) f
  case sEFlush =>
    rw [exec, execSEFlush]
    split
    · exact finish_ne_fault (eFlushStep_noFault _ _) f
    · exact finish_ne_fault (.ok _) f
  case sDHdr => exact finish_ne_fault (dHdrStep_noFault _ _ (v.index.atHeader (.inr (CodeWord.state.inj state)))) f
  case sDBit =>
    have walk {c : Block} := v.tree.walk_noFault (c := c) (CodeWord.state.inj state)
    rw [exec, execSDBit]
    split
    · refine finish_ne_fault ?_ f
      cases (inRead s.host).1 with
      | err => exact .raise _ _
      | eof => exact .raise _ _
      | byte x => exact walk rfl rfl
    · exact finish_ne_fault (walk rfl rfl) f
  case sDEmit =>
    obtain ⟨-, ⟨n, here, -⟩, -⟩ := v.tree.atEmit (CodeWord.state.inj state)
    rw [exec, execSDEmit, createdNode_nodeAt here]
    exact finish_ne_fault (dEmitStep_noFault _ _) f
  -- The commands and the reserved STATE values are no micro-operations.
  all_goals cases m

theorem exec_decodeCmd_ne_fault (w : Word) (s : State) (f : Fault) : exec (decodeCmd w) s ≠ .fault f := by
  by_cases ok : isLaunchWord w → s.blk.busy = false → s.host.icur = 0
  · rw [exec_decodeCmd ok]; exact nofun
  · obtain ⟨launch, ok⟩ := Classical.not_imp.mp ok
    obtain ⟨idle, away⟩ := Classical.not_imp.mp ok
    rw [exec_decodeCmd_refused launch idle away]; exact nofun

/-- Only the sequencer can fault. -/
theorem step_fault {s : State} {f : Fault} (e : step s = .fault f) :
    ∃ err rest, exec (decodeState s.blk.state) (withSchedule rest err s) = .fault f := by
  unfold step takeTurn at e
  rcases a : s.host.agenda with - | ⟨ev, rest⟩ <;> rw [a] at e
  · exact ⟨false, [], e⟩
  · cases ev with
    | seq err => exact ⟨err, rest, e⟩
    | read off size =>
      simp only [eventTurn, hostRead] at e
      split at e <;> cases e
    | write off size data =>
      simp only [eventTurn, hostWrite] at e
      by_cases ok : accessOk off size = true
      · simp only [ok, if_true] at e
        by_cases z : off = 0
        · simp only [z, if_true] at e
          exact absurd e (exec_decodeCmd_ne_fault _ _ _)
        · simp only [z, if_false] at e
          cases e
      · simp only [ok] at e
        cases e
    | bindIn data =>
      simp only [eventTurn, bindIn] at e
      split at e <;> cases e
    | bindOut data =>
      simp only [eventTurn, bindOut] at e
      split at e <;> cases e
    | reset => cases e

/-- The invariant speaks of the block, the input and the cursor only. -/
theorem MachineInv.ofSame {s s' : State} (v : MachineInv s) (blk : s'.blk = s.blk)
    (inData : s'.host.inData = s.host.inData) (icur : s'.host.icur = s.host.icur) : MachineInv s' where
  control := blk ▸ v.control
  writer := blk ▸ v.writer
  index := blk ▸ v.index
  tree := blk ▸ v.tree
  cursor := by rw [icur, inData]; exact v.cursor

theorem isMicroOp_decodeState : ∀ c : BitVec 5, c.toNat < 14 → isMicroOp (decodeState c) = true := by decide

theorem MachineInv.step_ne_fault {s : State} (v : MachineInv s) (f : Fault) : step s ≠ .fault f := by
  intro e
  obtain ⟨err, rest, e⟩ := step_fault e
  exact (v.ofSame (s' := withSchedule rest err s) rfl rfl rfl).microOp_ne_fault (encodeWord_decodeState _).symm
    (isMicroOp_decodeState _ v.control.defined) f e

/-! AllocationError (R160, R304). -/

theorem Commits.errCode {i : Instr} {b c : Block} (h : Commits b i c) : c.errCode = b.errCode := by
  rcases h.control with ⟨same, -⟩ | ⟨d, rfl, same⟩ <;> exact congrArg Flags.errCode same

theorem errorsOf_allocationError {i : Instr} {g : Stage} (row : (.allocationError, g) ∈ errorsOf i) :
    i = .sTInit ∨ i = .sTMerge := by
  unfold errorsOf at row
  split at row <;> simp_all

/-- R160: the only states that can raise AllocationError commit instead. -/
theorem MachineInv.sequencer_noAllocationError {s t : State} (v : MachineInv s)
    (e : exec (decodeState s.blk.state) s = .next t) (clean : s.blk.errCode ≠ .allocationError) :
    t.blk.errCode ≠ .allocationError := by
  rcases sequencer_cases e with ⟨-, rfl⟩ | ⟨m, run⟩
  · exact clean
  · cases microOp_ends m run e with
    | commits h => exact h.errCode ▸ clean
    | raises k g row q =>
      rw [q]
      rintro (rfl : k = .allocationError)
      obtain ⟨d, h, e'⟩ := v.tree.treeStep_commits (errorsOf_allocationError row) (encodeWord_decodeState _).symm
      rw [e'] at e
      cases e
      exact clean (h.errCode ▸ congrArg Block.errCode q)

theorem commandAct_errCode (w : Word) (b : Block) : (commandAct w b).errCode ≠ .allocationError := by
  rcases commandAct_cases w b with q | q | q | q <;> rw [q] <;> exact nofun

/-- Settles O58: only the sequencer can fault, and with the invariant each micro-operation finds its indices, its
preconditions and its room in the arena. -/
theorem invariantStatesNeverFault : Obligations.InvariantStatesNeverFault := by
  unfold Obligations.InvariantStatesNeverFault
  intro s v
  refine ⟨v.step_ne_fault, fun t e clean => ?_⟩
  rcases step_block_cases e with q | ⟨-, q⟩ | ⟨-, w, q⟩ | ⟨d, q⟩ | ⟨s', same, inData, icur, micro⟩
  · exact q ▸ clean
  · exact q ▸ clean
  · exact q ▸ commandAct_errCode w s.blk
  · rw [q]; exact nofun
  · rw [← same] at clean micro
    exact (v.ofSame same inData icur).sequencer_noAllocationError micro clean

/-! done_irq and MODE (R30, R32, R320). -/

theorem doneIrq_eq_true (b : Block) : doneIrq b = true ↔ b.done = true ∨ b.err = true := by simp [doneIrq]

theorem doneIrq_eq_of_flags {b c : Block} (same : flags c = flags b) : doneIrq c = doneIrq b := by
  obtain ⟨-, done, err, -⟩ := flags_eq_iff.mp same
  rw [doneIrq, done, err, doneIrq]

/-- R320: no end of a micro-operation clears done_irq: completion and error entry set it. -/
theorem Ends.doneIrq {i : Instr} {b c : Block} (e : Ends i b c) (high : doneIrq b = true) : doneIrq c = true := by
  cases e with
  | commits h =>
    rcases h.control with ⟨same, -⟩ | ⟨d, rfl, -⟩
    · rw [doneIrq_eq_of_flags same, high]
    · rfl
  | raises k g _ q => rw [q]; rfl

theorem commandAct_reserved {w : Word} (op : 3 ≤ w.toNat % 16) (b : Block) : commandAct w b = illegalCommand b := by
  have act : commandAct w = illegalCommand := by
    unfold commandAct
    split
    case h_4 => rfl
    all_goals omega
  rw [act]

/-- Settles O10: of all that a step can do to the block, only a command below the reserved ones and the reset event
clear done_irq. -/
theorem doneIrqClearedOnlyByAckAcceptanceOrReset : Obligations.DoneIrqClearedOnlyByAckAcceptanceOrReset := by
  unfold Obligations.DoneIrqClearedOnlyByAckAcceptanceOrReset
  intro s t e high low
  rw [← doneIrq_eq_true] at high
  rcases step_block_from e with q | ⟨-, h⟩ | ⟨-, q⟩ | ⟨idle, w, rest, a, q⟩ | ⟨d, rest, a, q⟩
  · rw [q, high] at low; cases low
  · rw [h.doneIrq high] at low; cases low
  · rw [q, show doneIrq (busyWrite s.blk) = doneIrq s.blk from rfl, high] at low; cases low
  · refine .inl ⟨idle, w, rest, a, Nat.lt_of_not_le fun reserved => ?_⟩
    rw [q, commandAct_reserved reserved] at low; cases low
  · exact .inr ⟨rest, a⟩

/-- R32: only the acceptance of ENCODE or DECODE writes MODE. -/
theorem commandAct_mode (w : Word) (b : Block) : (commandAct w b).mode = b.mode ∨
    (w.toNat % 16 = 1 ∧ (commandAct w b).mode = 1) ∨ (w.toNat % 16 = 2 ∧ (commandAct w b).mode = 2) := by
  have op := op_lt w
  unfold commandAct
  generalize w.toNat % 16 = k at op
  match k with
  | 0 => exact .inl rfl
  | 1 => exact .inr (.inl ⟨rfl, rfl⟩)
  | 2 => exact .inr (.inr ⟨rfl, rfl⟩)
  | k + 3 => exact .inl rfl

/-- Settles O18: neither a micro-operation nor a busy write changes MODE, and a command does only at acceptance. -/
theorem modeChangesOnlyAtAcceptance : Obligations.ModeChangesOnlyAtAcceptance := by
  unfold Obligations.ModeChangesOnlyAtAcceptance
  intro s t e changed
  rcases step_block_from e with q | ⟨-, h⟩ | ⟨-, q⟩ | ⟨idle, w, rest, a, q⟩ | ⟨d, rest, a, q⟩
  · exact absurd (congrArg Block.mode q) changed
  · exact absurd h.mode changed
  · exact absurd (congrArg Block.mode q) changed
  · rw [q] at changed ⊢
    exact .inl ⟨idle, w, rest, a, (commandAct_mode w s.blk).resolve_left changed⟩
  · exact .inr ⟨rest, a⟩

/-! What the turn runs (R23, R31, R96, R230). -/

/-- R91, R92: OP and the ignored bits of a command word are those it is made with. -/
theorem cmdWord_fields {ign op : Nat} (fits : ign < 2 ^ 28) (o : op < 16) :
    (cmdWord ign op).toNat % 16 = op ∧ (cmdWord ign op).toNat / 16 = ign := by
  rw [cmdWord_toNat fits o]
  omega

/-- A command word is decoded to the well-formed command it encodes. -/
theorem decodeCmd_of_encodeWord {i : Instr} {w : Word} (wf : i.wellFormed = true) (code : encodeWord i = .cmd w) :
    decodeCmd w = i := by
  cases i <;> cases code
  all_goals
    have fields (op : Nat) (o : op < 16) := cmdWord_fields (of_decide_eq_true wf) o
    simp [decodeCmd, fields]

/-- A STATE code is decoded to the micro-operation it encodes. -/
theorem decodeState_of_encodeWord {i : Instr} {c : BitVec 5} (code : encodeWord i = .state c) : decodeState c = i := by
  cases i <;> cases code <;> rfl

/-- Settles O5: the word written decodes to the command that it encodes. -/
theorem stepRunsTheCommandWritten : Obligations.StepRunsTheCommandWritten := by
  unfold Obligations.StepRunsTheCommandWritten
  intro i w rest s wf code a
  rw [step_of_cmdWrite a, decodeCmd_of_encodeWord wf code]

/-- Settles O6: the code that STATE holds decodes to the micro-operation that it encodes. -/
theorem stepRunsTheStateSelected : Obligations.StepRunsTheStateSelected := by
  unfold Obligations.StepRunsTheStateSelected
  intro i s code
  have selected := decodeState_of_encodeWord code
  exact ⟨fun a => selected ▸ step_of_sequencerNext (.inl ⟨a, rfl, rfl⟩),
    fun err rest a => selected ▸ step_of_sequencerNext (.inr a)⟩

/-! The register window (R22, R23). -/

theorem accessOk_iff (off : Byte) (size : AccessSize) :
    accessOk off size = true ↔ size = .word ∧ off.toNat % 4 = 0 := by simp [accessOk]

theorem step_of_read {off : Byte} {size : AccessSize} {rest : List HostEvent} {s : State}
    (a : s.host.agenda = .read off size :: rest) : step s = hostRead off size (withSchedule rest false s) := by
  simp [step, takeTurn, a, eventTurn]

/-- R23: the reserved offsets read 0. -/
theorem readReg_reserved (b : Block) {off : Byte} (h : 0x28 ≤ off.toNat) : readReg b off = 0 := by
  unfold readReg
  split
  case h_10 => rfl
  all_goals omega

theorem loHalf_toNat (v : Size) : (loHalf v).toNat = v.toNat % 2 ^ 32 := by simp [loHalf]

theorem hiHalf_toNat (v : Size) : (hiHalf v).toNat = v.toNat / 2 ^ 32 := by
  have := v.isLt
  rw [hiHalf, BitVec.extractLsb'_toNat, Nat.shiftRight_eq_div_pow]
  omega

/-- Settles O7: the read is readReg of the block as it is, offset by offset. -/
theorem registerReadsReturnCurrentValues : Obligations.RegisterReadsReturnCurrentValues := by
  unfold Obligations.RegisterReadsReturnCurrentValues
  intro off rest s a aligned
  refine ⟨readReg s.blk off, ?_, ?_⟩
  · rw [step_of_read a, hostRead, if_pos ((accessOk_iff ..).mpr ⟨rfl, aligned⟩)]
    rfl
  · refine ⟨?_, ?_, ?_, ?_, ?_, ?_, ?_, ?_, ?_, ?_, readReg_reserved s.blk⟩ <;> intro at_ <;>
      simp only [readReg, at_, loHalf_toNat, hiHalf_toNat]
    -- DISTINCT, at 0x24, is the one value narrower than the window.
    exact BitVec.toNat_setWidth_of_le (by decide)

/-- Settles O8: a refused access is one that is not a word at a word-aligned offset. -/
theorem otherWritesIgnoredBadAccessesRefused : Obligations.OtherWritesIgnoredBadAccessesRefused := by
  unfold Obligations.OtherWritesIgnoredBadAccessesRefused
  intro off size data rest s
  refine ⟨fun a word aligned notCmd => ?_, fun a bad => ?_⟩
  · have ok := (accessOk_iff off size).mpr ⟨word, aligned⟩
    simp only [step, takeTurn, a, eventTurn, hostWrite, ok, if_true, if_neg notCmd]
  · have refused : ¬ accessOk off size = true := fun ok => by
      obtain ⟨word, aligned⟩ := (accessOk_iff off size).mp ok
      exact bad.elim (absurd word) (absurd aligned)
    rcases a with a | a
    · simp [step, takeTurn, a, eventTurn, hostWrite, refused]
    · rw [step_of_read a, hostRead, if_neg refused]

/-! Reset and acceptance (R48, R49, R231, R232). -/

/-- Settles O12: each value is a field of the fixed reset state. -/
theorem resetStateValues : Obligations.ResetStateValues := by
  unfold Obligations.ResetStateValues
  decide

/-- Settles O14: the launch is accept from the start of the input and a refusal away from it; initCommand writes the
values of Block.reset, so the block of the statement is accept's by definition. -/
theorem acceptedCommandsStart : Obligations.AcceptedCommandsStart := by
  unfold Obligations.AcceptedCommandsStart
  rintro i mode first s idle (⟨⟨ign, rfl⟩, rfl, rfl⟩ | ⟨⟨ign, rfl⟩, rfl, rfl⟩)
  all_goals exact ⟨fun start => onLaunch_atStart idle start, fun away => onLaunch_refused idle away⟩

/-- Acceptance makes the same of two blocks, but for the entries of NODE and WL. -/
theorem accept_sameButArena (mode : BitVec 2) (first : BitVec 5) (b c : Block) :
    sameButArena (accept mode first b) (accept mode first c) := rfl

/-- Settles O17: from the start of the input both launches are accepted. -/
theorem acceptanceForgetsTheLastCommand : Obligations.AcceptanceForgetsTheLastCommand := by
  unfold Obligations.AcceptanceForgetsTheLastCommand
  rintro i s₁ s₂ (⟨ign, rfl⟩ | ⟨ign, rfl⟩) idle₁ idle₂ start₁ start₂
  all_goals
    exact ⟨_, _, onLaunch_atStart idle₁ start₁, onLaunch_atStart idle₂ start₂, accept_sameButArena .., rfl, rfl, rfl⟩

/-- Settles O25: the turn of S_IDLE is the next state itself. -/
theorem idleHasNoStep : Obligations.IdleHasNoStep := by
  unfold Obligations.IdleHasNoStep
  exact fun _ => rfl

/-- In S_IDLE the invariant of the tree asks for the bound on the arena only. -/
theorem TreeInv.idle {b : Block} (state : b.state = Code.sIdle) (arena : b.ncnt.toNat ≤ 511) : TreeInv b where
  arena := arena
  before h := by rw [state] at h; exact absurd h (by decide)
  atMerge h := by rw [state] at h; cases h
  atCodeGen h := by rw [state] at h; cases h
  atDecodeBit h := by rw [state] at h; cases h
  atEmit h := by rw [state] at h; cases h

/-- Settles O53: the reset state is idle, with clean flags, an empty writer and all indices 0. -/
theorem invariantHoldsAtReset : Obligations.InvariantHoldsAtReset where
  control := .idle rfl rfl (by decide) (by decide) (by decide) fun _ => rfl
  writer := .ofEmpty Code.sIdle rfl rfl rfl
  index := .ofRoom (by decide) (by decide)
  tree := .idle rfl (by decide)
  cursor := Nat.le_refl 0

end Sys2Proof.Machine
end

section
/-! PROOFS of the family 20_memory: the port transactions (R60 to R64), the steps that rewind the input and that write
and read the header (R135, R250, R260), and which step can change IN_DATA (R64, R361). -/

namespace Sys2Proof.Machine

/-! The ports (R60 to R64). -/

/-- After Err the cursor is drawn from the positions of the input (R60, U3). -/
theorem inRead_icur_le_of_err {h : HostSide} (err : h.ansErr = true) : (inRead h).2.icur ≤ h.inData.length := by
  rw [inRead_err err]
  exact Nat.le_of_lt_succ (Nat.mod_lt _ (Nat.succ_pos _))

/-- Settles O19: each answer of a port, and the side it leaves, is the port's own equation for that answer. -/
theorem portTransactionRules : Obligations.PortTransactionRules := by
  unfold Obligations.PortTransactionRules
  intro x h
  refine ⟨fun ok atEnd => inRead_eof ok atEnd.ge, inRead_byte, inRewind_ok, outWrite_ok x, fun err => ?_, fun err => ?_,
    fun err => ?_⟩
  · exact ⟨congrArg Prod.fst (inRead_err err), inRead_icur_le_of_err err, inRead_inData h, inRead_outData h⟩
  · exact ⟨congrArg Prod.fst (inRewind_err err), inRewind_icur_le h, inRewind_inData h, inRewind_outData h⟩
  · exact ⟨congrArg Prod.fst (outWrite_err x err), outWrite_inData x h, outWrite_icur x h⟩

/-- No port transaction writes the input (R64). -/
theorem PortStep.inData {h k : HostSide} (p : PortStep h k) : k.inData = h.inData := by
  cases p with
  | none => rfl
  | read => exact inRead_inData h
  | rewind => exact inRewind_inData h
  | write x => exact outWrite_inData x h

/-- R64, R361: a step keeps IN_DATA, or is the host binding the input to an idle block. -/
theorem step_inData_cases {s t : State} (e : step s = .next t) :
    t.host.inData = s.host.inData ∨
    (s.blk.busy = false ∧ ∃ data rest, s.host.agenda = .bindIn data :: rest ∧ t.host.inData = data ∧
      t.host.icur = 0) := by
  rcases step_next_cases e with ⟨err, r, -, micro⟩ | ⟨w, r, -, cmd⟩ | ⟨_, _, _, _, -, rfl⟩ | ⟨_, _, _, -, rfl⟩ |
    ⟨data, r, idle, a, rfl⟩ | ⟨_, _, -, -, rfl⟩ | ⟨_, -, rfl⟩
  · left
    rcases sequencer_cases micro with ⟨-, rfl⟩ | ⟨m, -⟩
    · rfl
    · obtain ⟨h, port, q⟩ := microOp_portStep m micro
      rw [q]
      exact port.inData
  · cases (exec_decodeCmd_next cmd).2
    exact .inl rfl
  · exact .inl rfl
  · exact .inl rfl
  · exact .inr ⟨idle, data, r, a, rfl, rfl⟩
  · exact .inl rfl
  · exact .inl rfl

/-- Settles O51: every step but a bind of the input keeps IN_DATA. -/
theorem inputUnchangedDuringCommand : Obligations.InputUnchangedDuringCommand := by
  unfold Obligations.InputUnchangedDuringCommand
  intro s t e changed
  exact (step_inData_cases e).resolve_left changed

/-! The end of the header (R66): HDR_IDX has 11 bits, so it can hold 1024 itself. -/

theorem hdrIdx_last_iff (k : BitVec 11) : k + 1 = 1024#11 ↔ k.toNat = 1023 := by bv_omega

/-! The micro-operations, when the host answers no Err. -/

/-- Settles O28: the answer of the port is Ok, so S_E_REWIND goes on. -/
theorem rewindStepResult : Obligations.RewindStepResult := by
  unfold Obligations.RewindStepResult
  intro s ok
  rw [exec, execSERewind, inRewind_ok ok]
  rfl

/-- R250: with the byte written, S_E_HDR goes on by HDR_IDX and DISTINCT. -/
theorem eHdrStep_ok (b : Block) :
    eHdrStep .ok b = .ok
      (if b.hdrIdx.toNat = 1023 then
        if b.distinct = 0 then complete (nextHeader b) else goto Code.sERead (nextHeader b)
      else goto Code.sEHdr (nextHeader b)) := by
  simp only [eHdrStep, ← hdrIdx_last_iff]
  split
  · exact (apply_ite Except.ok ..).symm
  · rfl

/-- Settles O34: the port answers Ok, so S_E_HDR commits; after the last header byte HDR_IDX is 1024. -/
theorem headerWriteResult : Obligations.HeaderWriteResult := by
  unfold Obligations.HeaderWriteResult
  intro s ok room
  rw [exec, execSEHdr, if_pos room, outWrite_ok _ ok, eHdrStep_ok, finish_ok]
  by_cases last : s.blk.hdrIdx.toNat = 1023
  · rw [if_pos last, if_pos last, nextHeader, (hdrIdx_last_iff _).mpr last]
    rfl
  · rw [if_neg last, if_neg last]
    rfl

/-- R260: with a byte read and a lane for it, S_D_HDR commits. -/
theorem dHdrStep_byte (o : ByteOrder) (x : Byte) {b : Block} (room : b.hdrIdx.toNat < 1024) :
    dHdrStep o (.byte x) b = .ok { countIn (putHdrByte o x b) with
      hdrIdx := b.hdrIdx + 1
      state := if b.hdrIdx.toNat = 1023 then Code.sTInit else Code.sDHdr } := by
  rw [dHdrStep, if_pos room]
  simp only [← hdrIdx_last_iff]
  rfl

/-- Settles O39: the byte read is put in its lane, which keeps the other lanes and counts, and the end of the input is a
FormatError. -/
theorem headerReadResult : Obligations.HeaderReadResult := by
  unfold Obligations.HeaderReadResult
  intro x s ok
  refine ⟨fun byte room => ?_, fun atEnd => ?_⟩
  · have commits : exec .sDHdr s = .next { s with
        blk := { countIn (putHdrByte s.cfg.hdrByteOrder x s.blk) with
          hdrIdx := s.blk.hdrIdx + 1
          state := if s.blk.hdrIdx.toNat = 1023 then Code.sTInit else Code.sDHdr }
        host := { s.host with icur := s.host.icur + 1, obs := .inRead (.byte x) :: s.host.obs } } := by
      rw [exec, execSDHdr, inRead_byte ok byte, dHdrStep_byte _ _ room, finish_ok]
    exact ⟨_, commits, rfl, hdrByte_putHdrByte_self _ x s.blk,
      fun k inHeader other => hdrByte_putHdrByte_ne _ x s.blk k inHeader room other⟩
  · rw [exec, execSDHdr, inRead_eof ok atEnd.ge]
    rfl

end Sys2Proof.Machine
end

section
/-! PROOFS of the family 30_encoding: the decoder and the encoder are inverse to each other (R91, R92, R95, R96), a
command is decided by OP alone (R92), the layouts of STATUS and ERROR (R93, R94) and the reserved STATE values (R97). -/

namespace Sys2Proof.Machine

/-! Bytes of an instruction (R91, R95). -/

/-- The bytes of an encoding decode as its code word does. -/
theorem decode_encode_eq (i : Instr) : decode (encode i) = .ok (decodeWord (encodeWord i)) := by
  rw [decode, encode, codeWordOfBytes_toBytes]

/-- Settles O2: the bytes give the code word back, and a code word of either kind decodes to what it encodes. -/
theorem decodeOfEncodeIsTheInstruction : Obligations.DecodeOfEncodeIsTheInstruction := by
  unfold Obligations.DecodeOfEncodeIsTheInstruction
  intro i wf
  rw [decode_encode_eq]
  cases code : encodeWord i with
  | cmd w => exact congrArg Except.ok (decodeCmd_of_encodeWord wf code)
  | state c => exact congrArg Except.ok (decodeState_of_encodeWord code)

/-- Settles O1: each word is evaluated by the decoder. -/
theorem writtenOutWordsDecode : Obligations.WrittenOutWordsDecode := by
  unfold Obligations.WrittenOutWordsDecode
  exact ⟨rfl, rfl, rfl, rfl, rfl, rfl, rfl, rfl, rfl, rfl, rfl⟩

/-! The instruction of a code word (R91, R92, R95, R96). -/

/-- A command word is its ignored bits above its OP. -/
theorem cmdWord_of_fields (w : Word) : cmdWord (w.toNat / 16) (w.toNat % 16) = w := by
  rw [cmdWord, Nat.div_add_mod', BitVec.ofNat_toNat, BitVec.setWidth_eq]

theorem encodeWord_decodeCmd (w : Word) : encodeWord (decodeCmd w) = .cmd w := by
  have op := op_lt w
  have fields := congrArg CodeWord.cmd (cmdWord_of_fields w)
  unfold decodeCmd
  generalize w.toNat % 16 = k at op fields
  interval_cases k <;> exact fields

/-- The bits [31:4] of a word fit the field that holds them. -/
theorem wellFormed_decodeCmd (w : Word) : (decodeCmd w).wellFormed = true := by
  have fits : ignFits (w.toNat / 16) = true := decide_eq_true (Nat.div_lt_of_lt_mul w.isLt)
  unfold decodeCmd
  split <;> exact fits

theorem row_decodeState (c : BitVec 5) : (decodeState c).row.mask = 0x1F ∧ (decodeState c).row.bits = c.toNat := by
  revert c; decide

/-- Settles O3: OP and the ignored bits of a command word make it up again; the STATE codes are finitely many. -/
theorem everyCodeWordHasOneMeaning : Obligations.EveryCodeWordHasOneMeaning := by
  unfold Obligations.EveryCodeWordHasOneMeaning
  exact ⟨fun w => ⟨encodeWord_decodeCmd w, wellFormed_decodeCmd w⟩,
    fun c => ⟨encodeWord_decodeState c, row_decodeState c⟩⟩

/-! A command and its OP (R92). -/

theorem row_mask_of_cmd {i : Instr} {w : Word} (code : encodeWord i = .cmd w) : i.row.mask = 0x0000000F := by
  cases i <;> cases code
  all_goals rfl

/-- The bits of a command word that its row's mask selects are its row's match. -/
theorem row_bits_of_cmd {i : Instr} {w : Word} (wf : i.wellFormed = true) (code : encodeWord i = .cmd w) :
    i.row.bits = w.toNat &&& 0x0000000F := by
  cases i <;> cases code
  all_goals exact (Laws.RowMatch.op_of_cmdWord wf (of_decide_eq_true rfl)).symm

theorem and_0xF_toNat (w : Word) : (w &&& 0x0000000F#32).toNat = w.toNat % 16 := by
  rw [BitVec.toNat_and]
  exact Nat.and_two_pow_sub_one_eq_mod _ 4

/-- No command reads the ignored bits: the decoder selects it by OP, and its meaning does not use its field. -/
theorem exec_decodeCmd_congr {w v : Word} (same : w.toNat % 16 = v.toNat % 16) (s : State) :
    exec (decodeCmd w) s = exec (decodeCmd v) s := by
  unfold decodeCmd
  rw [same]
  split <;> rfl

/-- Settles O4: the row of the word is the row of the command it decodes to, which depends on OP alone. -/
theorem commandIsDecidedByOpAlone : Obligations.CommandIsDecidedByOpAlone := by
  unfold Obligations.CommandIsDecidedByOpAlone
  refine ⟨fun w => ⟨row_mask_of_cmd (encodeWord_decodeCmd w), ?_⟩, fun w v s same => exec_decodeCmd_congr ?_ s⟩
  · rw [BitVec.toNat_and]
    exact row_bits_of_cmd (wellFormed_decodeCmd w) (encodeWord_decodeCmd w)
  · rw [← and_0xF_toNat, same, and_0xF_toNat]

/-! STATUS and ERROR (R93, R94, R300, R301). -/

/-- Fields side by side, as a number: the upper one counts units of the lower one's range. -/
theorem append_toNat {m n : Nat} (x : BitVec m) (y : BitVec n) : (x ++ y).toNat = x.toNat * 2 ^ n + y.toNat := by
  rw [BitVec.toNat_append, ← Nat.shiftLeft_add_eq_or_of_lt y.isLt, Nat.shiftLeft_eq]

theorem flagBit_toNat (b : Bool) : (flagBit b).toNat = b.toNat := BitVec.toNat_ofBool b

theorem statusWord_toNat (b : Block) : (statusWord b).toNat =
    b.busy.toNat + 2 * b.done.toNat + 4 * b.err.toNat + 8 * b.rej.toNat + 16 * b.mode.toNat +
      256 * b.state.toNat := by
  rw [statusWord, BitVec.toNat_setWidth_of_le (by decide)]
  simp only [append_toNat, flagBit_toNat, BitVec.toNat_ofNat]
  omega

theorem errorWord_toNat (b : Block) :
    (errorWord b).toNat = 16 * (stageBitsOf b.errStage).toNat + (codeBitsOf b.errCode).toNat := by
  rw [errorWord, BitVec.toNat_setWidth_of_le (by decide), append_toNat]
  omega

/-- Settles O9: each word is its fields side by side, and the numbers are those of the code and stage tables. -/
theorem statusAndErrorWordLayouts : Obligations.StatusAndErrorWordLayouts := by
  unfold Obligations.StatusAndErrorWordLayouts
  intro b
  refine ⟨statusWord_toNat b, ?_⟩
  rw [errorWord_toNat]
  congr 2
  · cases b.errStage <;> rfl
  · cases b.errCode <;> rfl

/-! Reserved STATE values (R97). -/

/-- Settles O26: only the eighteen reserved values are neither a command nor a micro-operation, and each is stuck with
its own code. -/
theorem reservedStatesAreStuck : Obligations.ReservedStatesAreStuck := by
  unfold Obligations.ReservedStatesAreStuck
  intro i s reserved
  cases i <;> cases reserved
  all_goals exact ⟨_, rfl, rfl⟩

end Sys2Proof.Machine
end

section
/-! PROOFS of the family 41_frequency_analyzer: what S_E_COUNT does with a byte and at the end of the input (R132 to
R134), and what the micro-operations that read leave unchanged (R133 to R135, R251, R260, R261). -/

namespace Sys2Proof.Machine

/-! The histogram (R132, R133). -/

theorem histInc_ok {x : Byte} {b : Block} (room : histAt b x ≠ 0xFFFFFFFF#32) :
    histInc x b = .ok (countIn (setHist x (histAt b x + 1) b)) := if_neg room

theorem histInc_overflow {x : Byte} {b : Block} (full : histAt b x = 0xFFFFFFFF#32) :
    histInc x b = .error (.raise .countOverflow .analysis) := if_pos full

/-- Settles O27: the answer of the port is the byte at the cursor or Eof, and a byte is counted unless its count is
full. -/
theorem countStepResult : Obligations.CountStepResult := by
  unfold Obligations.CountStepResult
  intro x s ok
  refine ⟨fun byte room => ?_, fun byte full => ?_, fun atEnd => ?_⟩
  · rw [exec, execSECount, inRead_byte ok byte, countStep, histInc_ok room]
    rfl
  · rw [exec, execSECount, inRead_byte ok byte, countStep, histInc_overflow full]
    rfl
  · rw [exec, execSECount, inRead_eof ok atEnd.ge]
    rfl

/-- The HIST entry that S_E_COUNT can write is that of the byte at the cursor. -/
theorem execSECount_histAt {s t : State} (e : exec .sECount s = .next t) {x : Byte}
    (other : s.host.inData[s.host.icur]? ≠ some x) : histAt t.blk x = histAt s.blk x := by
  rcases (execSECount_cases e).2 with ⟨-, q⟩ | ⟨-, -, q⟩ | ⟨y, -, byte, ⟨-, q⟩ | ⟨-, q⟩⟩ <;> rw [q]
  · rfl
  · rfl
  · rfl
  · have ne : y ≠ x := fun same => other (same ▸ byte)
    exact histAt_setHist_ne s.blk _ ne

/-- R66: the header bytes below 1024 are four for each of the 256 symbols. -/
theorem hdrSymbol_toNat {k : BitVec 11} (room : k.toNat < 1024) : (hdrSymbol k).toNat = k.toNat / 4 := by
  rw [hdrSymbol_eq_div, BitVec.toNat_ofNat]
  omega

/-- The HIST entry that S_D_HDR can write is the one with header byte HDR_IDX. -/
theorem execSDHdr_histAt {s t : State} (e : exec .sDHdr s = .next t) {x : Byte}
    (other : x.toNat ≠ s.blk.hdrIdx.toNat / 4) : histAt t.blk x = histAt s.blk x := by
  rcases (execSDHdr_cases e).2 with ⟨-, q⟩ | ⟨-, -, q⟩ | ⟨y, -, -, room, q⟩ <;> rw [q]
  · rfl
  · rfl
  · have ne : hdrSymbol s.blk.hdrIdx ≠ x := fun same => other (same ▸ hdrSymbol_toNat room)
    exact histAt_setHist_ne s.blk _ ne

/-! The walk (R210, R211, R261). -/

/-- What the walk writes, from the block that S_D_BIT finds: the reader, CUR, and IN_SIZE when a byte is loaded. -/
theorem HasBit.frame {b c d : Block} (has : HasBit b c) (e : walkStep c = .ok d) :
    d = { b with state := d.state, inSize := d.inSize, brBuf := d.brBuf, brCnt := d.brCnt, cur := d.cur } := by
  rcases walkStep_cases c with ⟨_, _, _, _, _, _, w⟩ | ⟨_, _, _, w⟩ | ⟨_, _, w⟩ <;> rw [w] at e <;> cases e
  rcases has with ⟨-, rfl⟩ | ⟨x, rfl⟩ <;> rfl

/-! The host's side (R60, R63, R64). -/

theorem PortStep.inBound {h k : HostSide} (p : PortStep h k) : k.inBound = h.inBound := by
  cases p with
  | none => rfl
  | read => exact inRead_inBound h
  | rewind => exact inRewind_inBound h
  | write x => exact outWrite_inBound x h

theorem PortStep.outBound {h k : HostSide} (p : PortStep h k) : k.outBound = h.outBound := by
  cases p with
  | none => rfl
  | read => exact inRead_outBound h
  | rewind => exact inRewind_outBound h
  | write x => exact outWrite_outBound x h

theorem WalkFrom.outData {s : State} {b : Block} {h : HostSide} (w : WalkFrom s b h) :
    h.outData = s.host.outData := by
  rcases w with ⟨-, -, rfl⟩ | ⟨x, -, -, -, -, rfl⟩
  · rfl
  · exact inRead_outData s.host

/-- The micro-operations that use the input port alone. -/
abbrev readingSteps : List Instr := [.sECount, .sERewind, .sERead, .sDHdr, .sDBit]

theorem readingSteps_isMicroOp : ∀ i ∈ readingSteps, isMicroOp i = true := by decide

/-- No reading micro-operation writes to the output. -/
theorem readingStep_outData {i : Instr} {s t : State} (reading : i ∈ readingSteps) (e : exec i s = .next t) :
    t.host.outData = s.host.outData := by
  simp only [List.mem_cons, List.not_mem_nil, or_false] at reading
  rcases reading with rfl | rfl | rfl | rfl | rfl
  · rw [(execSECount_cases e).1, inRead_outData]
  · rw [(execSERewind_cases e).1, inRewind_outData]
  · rw [(execSERead_cases e).1, inRead_outData]
  · rw [(execSDHdr_cases e).1, inRead_outData]
  · rcases execSDBit_cases e with ⟨-, q, -⟩ | ⟨b, h, w, q, -⟩
    · rw [q, inRead_outData]
    · rw [q]
      exact w.outData

/-- Settles O46: each way a reading micro-operation ends writes the registers named for it, or is error entry, which
writes the control registers alone; its port transaction keeps the streams and the bindings. -/
theorem readingStepsFrame : Obligations.ReadingStepsFrame := by
  unfold Obligations.ReadingStepsFrame
  intro s t
  refine ⟨fun e => ⟨?count, fun x => execSECount_histAt e⟩, fun e => ?rewind, fun e => ?read,
    fun e => ⟨?header, fun x => execSDHdr_histAt e⟩, fun e => ?bit, fun i reading e => ?host⟩
  case count =>
    rcases (execSECount_cases e).2 with ⟨-, q⟩ | ⟨-, -, q⟩ | ⟨x, -, -, ⟨-, q⟩ | ⟨-, q⟩⟩ <;> rw [q] <;> rfl
  case rewind =>
    rcases (execSERewind_cases e).2 with ⟨-, q⟩ | ⟨-, q⟩ <;> rw [q] <;> rfl
  case read =>
    rcases (execSERead_cases e).2 with ⟨-, q⟩ | ⟨-, q⟩ | ⟨-, -, -, q⟩ | ⟨x, -, -, -, -, q⟩ <;> rw [q] <;> rfl
  case header =>
    rcases (execSDHdr_cases e).2 with ⟨-, q⟩ | ⟨-, -, q⟩ | ⟨x, -, -, -, q⟩ <;> rw [q] <;> rfl
  case bit =>
    rcases execSDBit_cases e with ⟨-, -, ⟨-, q⟩ | ⟨-, -, q⟩⟩ | ⟨b, h, w, -, walk | ⟨-, q⟩⟩
    · rw [q]; rfl
    · rw [q]; rfl
    · rw [w.hasBit.frame walk]
    · rw [q]; rfl
  case host =>
    obtain ⟨h, port, q⟩ := microOp_portStep (readingSteps_isMicroOp i reading) e
    have outData := readingStep_outData reading e
    rw [q] at outData ⊢
    exact ⟨rfl, outData, port.inData, port.inBound, port.outBound⟩

end Sys2Proof.Machine
end

section
/-! PROOFS of the family 42_tree_builder: the primitives (R154, R158, R159, R161), what the tree builder's states leave
unchanged (R170, R171), the results of S_T_INIT and S_T_MERGE (R162 to R164, R168, R170, R171), and the invariant of the
tree and the decode walk (R152, R157, R160, R165 to R169, R261, R262). -/

namespace Sys2Proof.Machine

/-! The arena (R158, R159, R304). -/

theorem allocNode_full (n : Node) {b : Block} (full : b.ncnt = 511#10) :
    allocNode n b = .error (.raise .allocationError .treeBuild) := if_pos full

theorem newInternal_eq (f : Size) (l r : Handle) (lv rv : Bool) (b : Block) :
    newInternal f l lv r rv b = allocNode ⟨f, 0, lv, bif lv then l else 0, rv, bif rv then r else 0⟩ b := by
  simp only [newInternal, Bool.cond_eq_ite]

/-- Settles O24: both are a creation, of the record of their rule. -/
theorem nodeCreation : Obligations.NodeCreation := by
  unfold Obligations.NodeCreation
  intro x f l r lv rv b
  rw [newInternal_eq]
  exact ⟨fun room => ⟨allocNode_ok _ room, allocNode_ok _ room⟩,
    fun full => ⟨allocNode_full _ full, allocNode_full _ full⟩⟩

/-! The worklist (R36, R154, R161). -/

theorem worklist_getElem? (b : Block) {j : Nat} (hj : j < 256) (len : j < b.wlLen.toNat) :
    (worklist b)[j]? = some b.wl[j] := by
  simp [worklist, len, hj]

/-- The head of the worklist is WL[0]. -/
theorem worklist_head {b : Block} {h : Handle} {rest : List Handle} (w : worklist b = h :: rest) : b.wl[0] = h := by
  have len : 0 < b.wlLen.toNat := by
    have : (worklist b).length ≤ b.wlLen.toNat := by simp [worklist]
    rw [w, List.length_cons] at this
    omega
  have head := worklist_getElem? b (by decide) len
  rw [w] at head
  exact (Option.some.inj head).symm

/-- R154: h goes between those whose frequency does not exceed its own, and the first that does. -/
theorem insertByFreq_split (f : Handle → Size) (h : Handle) (l : List Handle) :
    ∃ before after, l = before ++ after ∧ insertByFreq f h l = before ++ h :: after ∧
      (∀ x ∈ before, ¬(f h < f x)) ∧ (∀ x ∈ after.head?, f h < f x) := by
  induction l with
  | nil => exact ⟨[], [], rfl, rfl, by simp, by simp⟩
  | cons x xs ih =>
    by_cases lt : f h < f x
    · exact ⟨[], x :: xs, rfl, by simp [insertByFreq, lt], by simp, by simpa using lt⟩
    · obtain ⟨before, after, split, insert, low, high⟩ := ih
      exact ⟨x :: before, after, by simp [split], by simp [insertByFreq, lt, insert],
        List.forall_mem_cons.mpr ⟨lt, low⟩, high⟩

/-- Settles O22: the worklist is written with the candidate inserted where `insertByFreq` says. -/
theorem insertStablePosition : Obligations.InsertStablePosition := by
  unfold Obligations.InsertStablePosition
  intro h b len arena
  obtain ⟨before, after, split, insert, low, high⟩ := insertByFreq_split (freqOf b) h (worklist b)
  have size : (insertByFreq (freqOf b) h (worklist b)).length = b.wlLen.toNat + 1 := by
    rw [insertByFreq_length, worklist_length b (by omega)]
  refine ⟨_, before, after, insertStable_ok len arena, split, ?_, ?_, low, high, fun j hj above => ?_, rfl⟩
  · rw [worklist_putWorklist b (by omega), insert]
  · rw [putWorklist_wlLen, size]
    bv_omega
  · exact putWorklist_above _ b j hj (by omega)

/-- Settles O23: the worklist is written without its head; the entries above it keep their values. -/
theorem removeHeadShiftsTheWorklist : Obligations.RemoveHeadShiftsTheWorklist := by
  unfold Obligations.RemoveHeadShiftsTheWorklist
  intro b some fits
  have len := worklist_length b fits
  obtain ⟨h, rest, w⟩ := List.exists_cons_of_length_pos (show 0 < (worklist b).length by omega)
  rw [w, List.length_cons] at len
  refine ⟨putWorklist rest b, worklist_head w ▸ removeHead_ok fits w, ?_, fun j hj below => ?_,
    fun j hj above => ?_, rfl⟩
  · rw [putWorklist_wlLen]
    bv_omega
  · have next := worklist_getElem? b (show j + 1 < 256 by omega) below
    rw [w, List.getElem?_cons_succ] at next
    simp [writeWlFrom_getElem, next]
  · exact putWorklist_above rest b j hj (by omega)

/-! The arena and the worklist as the tree builder's states end (R163, R170, R171). -/

theorem grown_keeps (b : Block) (n : Node) (p : b.ncnt.toNat < 511) {k : Nat} (old : k < b.ncnt.toNat) :
    (grown b n p).node[k]? = b.node[k]? := grown_node b n p k (Nat.ne_of_lt old)

theorem grown_ncnt (b : Block) (n : Node) (p : b.ncnt.toNat < 511) : (grown b n p).ncnt.toNat = b.ncnt.toNat + 1 :=
  succ_toNat_of_lt p

/-- c holds every node that b has created, and perhaps more. -/
structure Extends (b c : Block) : Prop where
  node : ∀ k, k < b.ncnt.toNat → c.node[k]? = b.node[k]?
  ncnt : b.ncnt.toNat ≤ c.ncnt.toNat

theorem Extends.ofSame {b c : Block} (node : c.node = b.node) (ncnt : c.ncnt = b.ncnt) : Extends b c :=
  ⟨fun _ _ => by rw [node], by rw [ncnt]⟩

theorem Extends.trans {b c d : Block} (h : Extends b c) (g : Extends c d) : Extends b d where
  node k old := (g.node k (Nat.lt_of_lt_of_le old h.ncnt)).trans (h.node k old)
  ncnt := Nat.le_trans h.ncnt g.ncnt

theorem Extends.ofGrown {b d : Block} {n : Node} (p : b.ncnt.toNat < 511) (node : d.node = (grown b n p).node)
    (ncnt : d.ncnt = (grown b n p).ncnt) : Extends b d where
  node k old := by rw [node, grown_keeps b n p old]
  ncnt := by rw [ncnt, grown_ncnt]; omega

theorem buildLeaves_extends {l : List Byte} {b c : Block} (e : buildLeaves l b = .ok c) : Extends b c :=
  have ⟨_, ncnt, node⟩ := buildLeaves_inv e
  ⟨node, ncnt⟩

theorem singleRoot_extends {b c : Block} (e : singleRoot b = .ok c) : Extends b c := by
  obtain ⟨_, _, p, _, _, q, _⟩ := singleRoot_inv e
  exact .ofGrown p (by rw [q]) (by rw [q])

theorem mergeOnce_extends {b c : Block} (e : mergeOnce b = .ok c) : Extends b c := by
  obtain ⟨_, _, _, p, _, _, _, _, q, _⟩ := mergeOnce_inv e
  exact .ofGrown p (by rw [q]) (by rw [q])

/-- The end of a tree writes STATE, CUR and BR_CNT alone. -/
theorem treeDone_frame (b : Block) :
    treeDone b = { b with
      state := (treeDone b).state, cur := (treeDone b).cur, brCnt := (treeDone b).brCnt } := by
  rcases treeDone_cases b with ⟨-, q⟩ | ⟨-, q⟩ <;> rw [q]; rfl

@[simp] theorem treeDone_node (b : Block) : (treeDone b).node = b.node := (congrArg Block.node (treeDone_frame b) :)
@[simp] theorem treeDone_ncnt (b : Block) : (treeDone b).ncnt = b.ncnt := (congrArg Block.ncnt (treeDone_frame b) :)
@[simp] theorem treeDone_wl (b : Block) : (treeDone b).wl = b.wl := (congrArg Block.wl (treeDone_frame b) :)
@[simp] theorem treeDone_wlLen (b : Block) : (treeDone b).wlLen = b.wlLen := (congrArg Block.wlLen (treeDone_frame b) :)
@[simp] theorem treeDone_root (b : Block) : (treeDone b).root = b.root := (congrArg Block.root (treeDone_frame b) :)
@[simp] theorem treeDone_rootV (b : Block) : (treeDone b).rootV = b.rootV := (congrArg Block.rootV (treeDone_frame b) :)
@[simp] theorem treeDone_total (b : Block) : (treeDone b).total = b.total := (congrArg Block.total (treeDone_frame b) :)
@[simp] theorem treeDone_distinct (b : Block) : (treeDone b).distinct = b.distinct :=
  (congrArg Block.distinct (treeDone_frame b) :)

theorem treeDone_keeps (b : Block) :
    (treeDone b).node = b.node ∧ (treeDone b).ncnt = b.ncnt ∧ (treeDone b).wl = b.wl ∧
      (treeDone b).wlLen = b.wlLen :=
  ⟨treeDone_node b, treeDone_ncnt b, treeDone_wl b, treeDone_wlLen b⟩

/-- Where a done tree goes on, by MODE (R170, R171). -/
theorem treeDone_next (b : Block) :
    (b.mode = 1 → (treeDone b).state = Code.sCGen) ∧
    (b.mode ≠ 1 → (treeDone b).state = Code.sDBit ∧ (treeDone b).cur = (treeDone b).root ∧ (treeDone b).brCnt = 0) := by
  rcases treeDone_cases b with ⟨encoding, q⟩ | ⟨decoding, q⟩ <;> rw [q]
  · exact ⟨fun _ => rfl, fun h => absurd encoding h⟩
  · exact ⟨fun h => absurd h decoding, fun _ => ⟨rfl, rfl, rfl⟩⟩

theorem initSuccessor_extends {b d : Block} (e : initSuccessor b = .ok d) : Extends b d := by
  unfold initSuccessor at e
  split at e
  · split at e <;> cases e <;> exact .ofSame rfl rfl
  · split at e
    · obtain ⟨r, er, rfl⟩ := map_ok e
      exact (singleRoot_extends er).trans (.ofSame (treeDone_node r) (treeDone_ncnt r))
    · cases e
      exact .ofSame rfl rfl

theorem tInitStep_extends {b d : Block} (e : tInitStep b = .ok d) : Extends b d := by
  obtain ⟨c, leaves, e⟩ := bind_ok e
  have counts : Extends b { b with total := histTotal b, distinct := histDistinct b } := .ofSame rfl rfl
  exact (counts.trans (buildLeaves_extends leaves)).trans (initSuccessor_extends e)

/-- The end of S_T_MERGE while candidates are left to merge. -/
theorem mergeSuccessor_more {b : Block} (more : b.wlLen ≠ 1) : mergeSuccessor b = goto Code.sTMerge b := if_neg more

/-- The end of the last merge: the only candidate is the root. -/
theorem mergeSuccessor_last {b : Block} {m : Handle} (last : b.wlLen = 1) (w : worklist b = [m]) :
    mergeSuccessor b = treeDone { b with root := m, rootV := true } := by
  rw [mergeSuccessor, if_pos last, worklist_head w]

/-- The end of S_T_MERGE keeps the arena and the worklist. -/
theorem mergeSuccessor_keeps (b : Block) :
    (mergeSuccessor b).node = b.node ∧ (mergeSuccessor b).ncnt = b.ncnt ∧ (mergeSuccessor b).wl = b.wl ∧
      (mergeSuccessor b).wlLen = b.wlLen := by
  unfold mergeSuccessor
  split
  · exact treeDone_keeps { b with root := b.wl[0], rootV := true }
  · exact ⟨rfl, rfl, rfl, rfl⟩

theorem mergeSuccessor_extends (b : Block) : Extends b (mergeSuccessor b) :=
  have ⟨node, ncnt, _, _⟩ := mergeSuccessor_keeps b
  .ofSame node ncnt

/-! The frames (R170, R171, R190, R252). -/

/-- The tree builder's states keep every node created before, also when they raise. -/
theorem treeStep_extends {i : Instr} {s t : State} (tree : i = .sTInit ∨ i = .sTMerge) (e : exec i s = .next t) :
    Extends s.blk t.blk := by
  rcases tree with rfl | rfl
  · rcases (execSTInit_cases e).2 with q | ok
    · exact .ofSame (by rw [q, errorEntry_node]) (by rw [q, errorEntry_ncnt])
    · exact tInitStep_extends ok
  · rcases (execSTMerge_cases e).2 with q | ⟨d, ok, q⟩
    · exact .ofSame (by rw [q, errorEntry_node]) (by rw [q, errorEntry_ncnt])
    · rw [q]
      exact (mergeOnce_extends ok).trans (mergeSuccessor_extends d)

theorem execSTInit_frame {s t : State} (e : exec .sTInit s = .next t) :
    t.blk = { s.blk with
      state := t.blk.state, busy := t.blk.busy, done := t.blk.done, err := t.blk.err, errCode := t.blk.errCode,
      errStage := t.blk.errStage, total := t.blk.total, distinct := t.blk.distinct, node := t.blk.node,
      ncnt := t.blk.ncnt, wl := t.blk.wl, wlLen := t.blk.wlLen, root := t.blk.root, rootV := t.blk.rootV,
      hdrIdx := t.blk.hdrIdx, cur := t.blk.cur, brCnt := t.blk.brCnt } := by
  rcases (execSTInit_cases e).2 with q | ok
  · rw [q]; rfl
  · obtain ⟨c, tree, ⟨-, q⟩ | q | q | q⟩ := tInitStep_ok_cases ok
    · rw [q, tree]
    · rw [q, tree]; rfl
    · rw [q, treeDone_frame, tree]
    · rw [q, tree]; rfl

theorem execSTMerge_frame {s t : State} (e : exec .sTMerge s = .next t) :
    t.blk = { s.blk with
      state := t.blk.state, busy := t.blk.busy, done := t.blk.done, err := t.blk.err, errCode := t.blk.errCode,
      errStage := t.blk.errStage, node := t.blk.node, ncnt := t.blk.ncnt, wl := t.blk.wl, wlLen := t.blk.wlLen,
      root := t.blk.root, rootV := t.blk.rootV, cur := t.blk.cur, brCnt := t.blk.brCnt } := by
  rcases (execSTMerge_cases e).2 with q | ⟨d, ok, q⟩
  · rw [q]; rfl
  · obtain ⟨_, _, _, _, _, _, _, _, merged, _⟩ := mergeOnce_inv ok
    unfold mergeSuccessor at q
    split at q
    · rw [q, treeDone_frame, merged]; rfl
    · rw [q, merged]; rfl

/-- The micro-operations of a running command that never make a port transaction. -/
abbrev internalSteps : List Instr := [.sTInit, .sTMerge, .sCGen, .sEBit]

theorem internalStep_host {i : Instr} {s t : State} (internal : i ∈ internalSteps) (e : exec i s = .next t) :
    t = { s with blk := t.blk } := by
  simp only [List.mem_cons, List.not_mem_nil, or_false] at internal
  rcases internal with rfl | rfl | rfl | rfl
  · exact (execSTInit_cases e).1
  · exact (execSTMerge_cases e).1
  · exact (execSCGen_cases e).1
  · exact (execSEBit_cases e).2.1

/-- Settles O48: the tree builder writes what its primitives and its end write, and only above NCNT in the arena; the
traversal writes the code table, S_E_BIT the writer. -/
theorem internalStepsFrame : Obligations.InternalStepsFrame := by
  unfold Obligations.InternalStepsFrame
  intro s t
  refine ⟨fun i internal e => ?_, fun i tree e => ?_, execSTInit_frame, execSTMerge_frame, fun e => ?_, fun e => ?_⟩
  · rw [internalStep_host internal e]
    exact ⟨rfl, rfl⟩
  · obtain ⟨node, ncnt⟩ := treeStep_extends (by simpa using tree) e
    exact ⟨node, ncnt⟩
  · obtain ⟨b, ok, q⟩ := (execSCGen_cases e).2
    rw [q, visit_inv ok]
  · rw [(execSEBit_cases e).2.2]

/-! One merge (R162). -/

/-- d is b after the two first candidates a and c became the children of a new node, which joined the rest. -/
structure Merged (b : Block) (a c : Handle) (rest : List Handle) (d : Block) : Prop where
  room : b.ncnt.toNat < 511
  frame : d = { grown b (mergedNode b a c) room with wl := d.wl, wlLen := d.wlLen }
  list : worklist d = insertByFreq (freqOf d) (b.ncnt.setWidth 9) rest
  len : d.wlLen.toNat = rest.length + 1

theorem merged_of_mergeOnce {a c : Handle} {rest : List Handle} {b d : Block} (w : worklist b = a :: c :: rest)
    (e : mergeOnce b = .ok d) : Merged b a c rest d := by
  obtain ⟨a', c', rest', room, w', -, -, -, frame, list, len⟩ := mergeOnce_inv e
  obtain ⟨rfl, rfl, rfl⟩ : a' = a ∧ c' = c ∧ rest' = rest := by simpa [w] using w'.symm
  exact ⟨room, frame, list, len⟩

namespace Merged

variable {b d : Block} {a c : Handle} {rest : List Handle} (m : Merged b a c rest d)
include m

theorem ncnt : d.ncnt = b.ncnt + 1 := (congrArg Block.ncnt m.frame :)

theorem node : d.node = (grown b (mergedNode b a c) m.room).node := (congrArg Block.node m.frame :)

theorem mode : d.mode = b.mode := (congrArg Block.mode m.frame :)

theorem total : d.total = b.total := (congrArg Block.total m.frame :)

theorem distinct : d.distinct = b.distinct := (congrArg Block.distinct m.frame :)

theorem decCnt : d.decCnt = b.decCnt := (congrArg Block.decCnt m.frame :)

theorem node_new : d.node[b.ncnt.toNat]? = some (mergedNode b a c) := by
  rw [m.node, grown_new]

theorem node_old {k : Nat} (old : k ≠ b.ncnt.toNat) : d.node[k]? = b.node[k]? := by
  rw [m.node, grown_node b _ m.room k old]

theorem freqOf_new : freqOf d (b.ncnt.setWidth 9) = freqOf b a + freqOf b c := by
  rw [freqOf, setWidth_toNat_of_lt m.room, m.node_new]

theorem freqOf_old {x : Handle} (old : x.toNat < b.ncnt.toNat) : freqOf d x = freqOf b x :=
  freqOf_congr (m.node_old (Nat.ne_of_lt old))

theorem perm : (worklist d).Perm (b.ncnt.setWidth 9 :: rest) := m.list ▸ insertByFreq_perm _ _ _

/-- The new candidate is the only one exactly when no other was left. -/
theorem last_iff : d.wlLen = 1 ↔ rest = [] := by
  have len := m.len
  rw [← List.length_eq_zero_iff]
  bv_omega

end Merged

theorem worklist_congr {b c : Block} (wl : c.wl = b.wl) (wlLen : c.wlLen = b.wlLen) : worklist c = worklist b := by
  rw [worklist, worklist, wl, wlLen]

/-- The worklist after the end of S_T_MERGE is the one that the merge left. -/
theorem worklist_mergeSuccessor (b : Block) : worklist (mergeSuccessor b) = worklist b :=
  have ⟨_, _, wl, wlLen⟩ := mergeSuccessor_keeps b
  worklist_congr wl wlLen

theorem execSTMerge_of_mergeOnce {s : State} {d : Block} (e : mergeOnce s.blk = .ok d) :
    exec .sTMerge s = .next { s with blk := mergeSuccessor d } := by
  rw [exec, execSTMerge, tMergeStep, e]
  rfl

/-- Settles O30: the merge commits, its insertion finds the stable place, and the last one ends the tree. -/
theorem treeMergeResult : Obligations.TreeMergeResult := by
  unfold Obligations.TreeMergeResult
  intro a c rest s w fits room old
  obtain ⟨d, e⟩ := mergeOnce_ok w fits room old
  have m := merged_of_mergeOnce w e
  obtain ⟨node, ncnt, -, wlLen⟩ := mergeSuccessor_keeps d
  have size := worklist_length s.blk fits
  simp only [w, List.length_cons] at size
  refine ⟨_, execSTMerge_of_mergeOnce e, rfl, ?_, ?_, fun k other => ?_, ?_, ?_, fun more => ?_, fun last => ?_⟩
  · rw [ncnt, m.ncnt]
  · rw [node, m.node_new]
  · rw [node, m.node_old other]
  · rw [wlLen, m.len]
    omega
  · obtain ⟨before, after, split, insert, low, high⟩ := insertByFreq_split (freqOf d) (s.blk.ncnt.setWidth 9) rest
    have keep : ∀ x ∈ rest, freqOf d x = freqOf s.blk x := fun x hx => m.freqOf_old (old x (by simp [w, hx]))
    refine ⟨before, after, split, ?_, fun x hx => ?_, fun x hx => ?_⟩
    · rw [worklist_mergeSuccessor, m.list, insert]
    · rw [← m.freqOf_new, ← keep x (by simp [split, hx])]
      exact low x hx
    · rw [← m.freqOf_new, ← keep x (by simp [split, List.mem_of_mem_head? hx])]
      exact high x hx
  · rw [mergeSuccessor_more (fun one => more (m.last_iff.mp one)), m.frame]
    exact ⟨rfl, rfl, rfl⟩
  · have only : worklist d = [s.blk.ncnt.setWidth 9] := by rw [m.list, last]; rfl
    rw [mergeSuccessor_last (m.last_iff.mpr last) only, ← m.mode]
    exact ⟨treeDone_root _, treeDone_rootV _, treeDone_next { d with root := s.blk.ncnt.setWidth 9, rootV := true }⟩

/-! The leaves and the end of S_T_INIT (R155, R156, R163, R164, R170). -/

/-- The counts summed, which S_T_INIT does first (R170). -/
abbrev counted (b : Block) : Block := { b with total := histTotal b, distinct := histDistinct b }

/-- c is b with the counts summed and the leaves created and inserted, from an empty arena and worklist. -/
structure Leaves (b c : Block) : Prop where
  frame : c = { counted b with node := c.node, ncnt := c.ncnt, wl := c.wl, wlLen := c.wlLen }
  ncnt : c.ncnt.toNat = (presentSymbols b).length
  wlLen : c.wlLen.toNat = (presentSymbols b).length
  node (k : Nat) (hk : k < (presentSymbols b).length) : c.node[k]? = some (leafNode b (presentSymbols b)[k])
  perm : (worklist c).Perm ((List.range (presentSymbols b).length).map (BitVec.ofNat 9))
  sorted : (worklist c).Pairwise (sortsBefore c)

theorem presentSymbols_length_le (b : Block) : (presentSymbols b).length ≤ 256 := (histDistinct_toNat b).2

/-- The first half of S_T_INIT. -/
theorem leaves_of_empty {b : Block} (ncnt : b.ncnt = 0) (wlLen : b.wlLen = 0) :
    ∃ c, buildLeaves allSymbols (counted b) = .ok c ∧ Leaves b c := by
  have noNode : (counted b).ncnt.toNat = 0 := congrArg BitVec.toNat ncnt
  have noCandidate : (counted b).wlLen.toNat = 0 := congrArg BitVec.toNat wlLen
  have empty : worklist (counted b) = [] := (worklist_eq_nil _).mpr wlLen
  have le : (presentIn (counted b) allSymbols).length ≤ 256 := presentSymbols_length_le b
  obtain ⟨c, e, cn, cw, -, node, perm, sorted⟩ :=
    buildLeaves_ok allSymbols (counted b) (by omega) (by omega) (by simp [Candidates, empty])
  simp only [noNode, noCandidate, empty, Nat.zero_add, List.nil_append, ← List.range_eq_range']
    at cn cw node perm sorted
  exact ⟨c, e, (buildLeaves_inv e).1, cn, cw, node, perm, sorted .nil⟩

/-- The root over a single leaf (R163). -/
abbrev rootNode (b : Block) (l : Handle) : Node := ⟨freqOf b l, 0, true, l, false, 0⟩

/-- r is b with a root over its only candidate l, which has left the worklist (R163). -/
structure Rooted (b : Block) (l : Handle) (r : Block) : Prop where
  room : b.ncnt.toNat < 511
  frame : r = { grown b (rootNode b l) room with
    wl := r.wl, wlLen := 0, root := b.ncnt.setWidth 9, rootV := true }

/-- The ends of S_T_INIT, by the number of candidates and MODE (R164, R170). -/
inductive InitEnd (c : Block) : Block → Prop where
  | header (none : c.wlLen = 0) (encoding : c.mode = 1) :
    InitEnd c { c with rootV := false, hdrIdx := 0, state := Code.sEHdr }
  | ends (none : c.wlLen = 0) (decoding : c.mode ≠ 1) : InitEnd c (complete { c with rootV := false })
  | root (one : c.wlLen = 1) (l : Handle) (w : worklist c = [l]) (r : Block) (h : Rooted c l r) : InitEnd c (treeDone r)
  | merges (more : 2 ≤ c.wlLen.toNat) : InitEnd c (goto Code.sTMerge c)

theorem rooted_of_singleRoot {b r : Block} (one : b.wlLen = 1) (e : singleRoot b = .ok r) :
    ∃ l, worklist b = [l] ∧ Rooted b l r := by
  obtain ⟨l, rest, room, w, -, frame, -, len⟩ := singleRoot_inv e
  have size := worklist_length b (by rw [one]; decide)
  rw [w, one, List.length_cons] at size
  obtain rfl : rest = [] := List.length_eq_zero_iff.mp (Nat.succ.inj size)
  have empty : r.wlLen = 0 := BitVec.eq_of_toNat_eq len
  rw [empty] at frame
  exact ⟨l, w, room, frame⟩

theorem initSuccessor_end {c d : Block} (e : initSuccessor c = .ok d) : InitEnd c d := by
  unfold initSuccessor at e
  split at e
  · split at e <;> cases e
    · exact .header ‹_› ‹_›
    · exact .ends ‹_› ‹_›
  · split at e
    · obtain ⟨r, er, rfl⟩ := map_ok e
      obtain ⟨l, w, h⟩ := rooted_of_singleRoot ‹_› er
      exact .root ‹_› l w r h
    · cases e
      refine .merges ?_
      bv_omega

/-- S_T_INIT from an empty arena and worklist: the leaves, then the end by their number. -/
theorem tInitStep_leaves {b : Block} (ncnt : b.ncnt = 0) (wlLen : b.wlLen = 0) :
    ∃ c d, Leaves b c ∧ InitEnd c d ∧ tInitStep b = .ok d := by
  obtain ⟨d, e⟩ := tInitStep_ok ncnt wlLen
  obtain ⟨c, built, leaves⟩ := leaves_of_empty ncnt wlLen
  have ends : initSuccessor c = .ok d := by rwa [tInitStep, built] at e
  exact ⟨c, d, leaves, initSuccessor_end ends, e⟩

theorem Leaves.mode {b c : Block} (v : Leaves b c) : c.mode = b.mode := by rw [v.frame]

theorem Leaves.total {b c : Block} (v : Leaves b c) : c.total = histTotal b := by rw [v.frame]

theorem Leaves.decCnt {b c : Block} (v : Leaves b c) : c.decCnt = b.decCnt := by rw [v.frame]

theorem Leaves.distinct {b c : Block} (v : Leaves b c) : c.distinct = histDistinct b := by rw [v.frame]

theorem Leaves.ncnt_eq_one {b c : Block} (v : Leaves b c) (one : (presentSymbols b).length = 1) : c.ncnt = 1 :=
  BitVec.eq_of_toNat_eq (v.ncnt.trans one)

/-- The leaf of the only symbol has handle 0. -/
theorem Leaves.single {b c : Block} {l : Handle} (v : Leaves b c) (one : (presentSymbols b).length = 1)
    (w : worklist c = [l]) : l = 0 := by
  have perm := v.perm
  rw [w, one] at perm
  exact List.singleton_perm_singleton.mp perm

namespace Rooted

variable {b r : Block} {l : Handle} (h : Rooted b l r)
include h

theorem node : r.node = (grown b (rootNode b l) h.room).node := (congrArg Block.node h.frame :)

theorem ncnt : r.ncnt = b.ncnt + 1 := (congrArg Block.ncnt h.frame :)

theorem root : r.root = b.ncnt.setWidth 9 := (congrArg Block.root h.frame :)

theorem rootV : r.rootV = true := (congrArg Block.rootV h.frame :)

theorem wlLen : r.wlLen = 0 := (congrArg Block.wlLen h.frame :)

theorem mode : r.mode = b.mode := (congrArg Block.mode h.frame :)

theorem total : r.total = b.total := (congrArg Block.total h.frame :)

theorem distinct : r.distinct = b.distinct := (congrArg Block.distinct h.frame :)

theorem decCnt : r.decCnt = b.decCnt := (congrArg Block.decCnt h.frame :)

theorem node_new : r.node[b.ncnt.toNat]? = some (rootNode b l) := by rw [h.node, grown_new]

theorem node_old {k : Nat} (old : k ≠ b.ncnt.toNat) : r.node[k]? = b.node[k]? := by
  rw [h.node, grown_node b _ h.room k old]

end Rooted

theorem Rooted.extends {b r : Block} {l : Handle} (h : Rooted b l r) : Extends b r :=
  .ofGrown h.room h.node (by rw [h.ncnt]; rfl)

/-- R163: over the leaf of the only symbol, which is node 0, the root is node 1. -/
theorem Rooted.single {b c r : Block} {l : Handle} (h : Rooted c l r) (v : Leaves b c)
    (one : (presentSymbols b).length = 1) (w : worklist c = [l]) :
    r.ncnt = 2 ∧ r.root = 1 ∧ r.node[1]? = some ⟨freqOf r 0, 0, true, 0, false, 0⟩ := by
  obtain rfl := v.single one w
  have ncnt := v.ncnt_eq_one one
  have new := h.node_new
  rw [ncnt] at new
  refine ⟨by rw [h.ncnt, ncnt]; rfl, by rw [h.root, ncnt]; rfl, ?_⟩
  rw [freqOf_congr (h.node_old (by rw [ncnt]; decide))]
  exact new

theorem InitEnd.extends {c d : Block} (h : InitEnd c d) : Extends c d := by
  cases h with
  | root one l w r h => exact h.extends.trans (.ofSame (treeDone_node r) (treeDone_ncnt r))
  | _ => exact .ofSame rfl rfl

theorem InitEnd.counts {c d : Block} (h : InitEnd c d) : d.total = c.total ∧ d.distinct = c.distinct := by
  cases h with
  | root one l w r h => exact ⟨(treeDone_total r).trans h.total, (treeDone_distinct r).trans h.distinct⟩
  | _ => exact ⟨rfl, rfl⟩

theorem execSTInit_of_tInitStep {s : State} {d : Block} (e : tInitStep s.blk = .ok d) :
    exec .sTInit s = .next { s with blk := d } := by
  rw [exec, execSTInit, e, finish_ok]

/-- Settles O29: the leaves are those of `buildLeaves`, and the end of S_T_INIT keeps them. -/
theorem treeInitResult : Obligations.TreeInitResult := by
  unfold Obligations.TreeInitResult
  intro s ncnt wlLen
  obtain ⟨c, d, leaves, ends, e⟩ := tInitStep_leaves ncnt wlLen
  refine ⟨_, execSTInit_of_tInitStep e, rfl, ?total, ?distinct, fun k hk => ?node, ?clauses⟩
  case total => rw [ends.counts.1, leaves.total, (histTotal_toNat s.blk).1]
  case distinct => rw [ends.counts.2, leaves.distinct, (histDistinct_toNat s.blk).1]
  case node => rw [ends.extends.node k (leaves.ncnt ▸ hk), leaves.node k hk]
  case clauses =>
    have count := leaves.wlLen
    rw [← leaves.mode]
    cases ends with
    | header none encoding =>
      have none' : (presentSymbols s.blk).length = 0 := by rw [← count, none]; rfl
      refine ⟨fun _ => ⟨BitVec.eq_of_toNat_eq (leaves.ncnt.trans none'), rfl, fun _ => ⟨rfl, rfl, ?_, ?_⟩,
        fun h => absurd encoding h⟩, fun _ => by omega, fun _ => by omega⟩
      · rw [leaves.frame]
      · rw [leaves.frame]
    | ends none decoding =>
      have none' : (presentSymbols s.blk).length = 0 := by rw [← count, none]; rfl
      exact ⟨fun _ => ⟨BitVec.eq_of_toNat_eq (leaves.ncnt.trans none'), rfl, fun h => absurd h decoding,
        fun _ => ⟨rfl, rfl, rfl⟩⟩, fun _ => by omega, fun _ => by omega⟩
    | root one l w r h =>
      have one' : (presentSymbols s.blk).length = 1 := by rw [← count, one]; rfl
      obtain ⟨ncnt, root, node⟩ := h.single leaves one' w
      have next := treeDone_next r
      rw [treeDone_root, root, h.mode] at next
      refine ⟨fun _ => by omega, fun _ => ⟨?_, ?_, ?_, ?_, next⟩, fun _ => by omega⟩
      · rw [treeDone_ncnt, ncnt]
      · rw [treeDone_root, root]
      · rw [treeDone_rootV, h.rootV]
      · rw [treeDone_node, freqOf_congr (congrArg (·[_]?) (treeDone_node r)), node]
    | merges more =>
      exact ⟨fun _ => by omega, fun _ => by omega, fun _ => ⟨leaves.ncnt, rfl, leaves.perm, leaves.sorted⟩⟩

/-! Two runs (R168). -/

/-- b and c have created the same nodes. -/
structure SameNodes (b c : Block) : Prop where
  ncnt : b.ncnt = c.ncnt
  node : ∀ k, k < b.ncnt.toNat → b.node[k]? = c.node[k]?

/-- b and c have created the same nodes and hold the same candidates. -/
structure SameTree (b c : Block) : Prop extends SameNodes b c where
  wlLen : b.wlLen = c.wlLen
  list : worklist b = worklist c

theorem SameNodes.freqOf {b c : Block} (same : SameNodes b c) {h : Handle} (old : h.toNat < b.ncnt.toNat) :
    freqOf b h = freqOf c h := freqOf_congr (same.node _ old)

/-- A creation of the same node in both. -/
theorem SameNodes.grown {b c d e : Block} {n m : Node} (same : SameNodes b c) {p : b.ncnt.toNat < 511}
    {q : c.ncnt.toNat < 511} (record : n = m) (node₁ : d.node = (grown b n p).node) (ncnt₁ : d.ncnt = b.ncnt + 1)
    (node₂ : e.node = (grown c m q).node) (ncnt₂ : e.ncnt = c.ncnt + 1) : SameNodes d e where
  ncnt := by rw [ncnt₁, ncnt₂, same.ncnt]
  node k created := by
    rw [ncnt₁, succ_toNat_of_lt p] at created
    rw [node₁, node₂]
    rcases Nat.lt_succ_iff_lt_or_eq.mp created with old | rfl
    · rw [grown_keeps b n p old, grown_keeps c m q (same.ncnt ▸ old), same.node k old]
    · rw [grown_new b n p, same.ncnt, grown_new c m q, record]

/-- What keeps the arena and the worklist of both keeps them the same. -/
theorem SameTree.keep {b c d e : Block} (same : SameTree b c)
    (keep₁ : d.node = b.node ∧ d.ncnt = b.ncnt ∧ d.wl = b.wl ∧ d.wlLen = b.wlLen)
    (keep₂ : e.node = c.node ∧ e.ncnt = c.ncnt ∧ e.wl = c.wl ∧ e.wlLen = c.wlLen) : SameTree d e := by
  obtain ⟨node₁, ncnt₁, wl₁, wlLen₁⟩ := keep₁
  obtain ⟨node₂, ncnt₂, wl₂, wlLen₂⟩ := keep₂
  refine ⟨⟨by rw [ncnt₁, ncnt₂, same.ncnt], fun k old => ?_⟩, by rw [wlLen₁, wlLen₂, same.wlLen], ?_⟩
  · rw [node₁, node₂]
    exact same.node k (ncnt₁ ▸ old)
  · rw [worklist_congr wl₁ wlLen₁, worklist_congr wl₂ wlLen₂, same.list]

/-- The same merge in both. -/
theorem SameTree.merged {b₁ b₂ d₁ d₂ : Block} {a c : Handle} {rest : List Handle} (same : SameTree b₁ b₂)
    (w : worklist b₁ = a :: c :: rest) (old : Candidates b₁) (m₁ : Merged b₁ a c rest d₁)
    (m₂ : Merged b₂ a c rest d₂) : SameTree d₁ d₂ := by
  have record : mergedNode b₁ a c = mergedNode b₂ a c := by
    rw [mergedNode, same.freqOf (old a (by simp [w])), same.freqOf (old c (by simp [w]))]
  have nodes : SameNodes d₁ d₂ := same.toSameNodes.grown record m₁.node m₁.ncnt m₂.node m₂.ncnt
  refine ⟨nodes, BitVec.eq_of_toNat_eq (m₁.len.trans m₂.len.symm), ?_⟩
  rw [m₁.list, m₂.list, ← same.ncnt]
  refine insertByFreq_congr _ _ fun x hx => nodes.freqOf ?_
  rw [m₁.ncnt, succ_toNat_of_lt m₁.room]
  rcases List.mem_cons.mp hx with rfl | hx
  · rw [setWidth_toNat_of_lt m₁.room]
    omega
  · have := old x (by simp [w, hx])
    omega

theorem removeHead_empty {b : Block} (fits : b.wlLen.toNat ≤ 256) (w : worklist b = []) :
    removeHead b = .error (.fault (.precondition .worklistNotEmpty)) := by
  simp only [removeHead, show ¬ 256 < b.wlLen.toNat by omega, if_false, w]

/-- A merge without two candidates is outside the precondition of `removeHead`. -/
theorem mergeOnce_short {b : Block} (fits : b.wlLen.toNat ≤ 256) (short : (worklist b).length < 2) :
    mergeOnce b = .error (.fault (.precondition .worklistNotEmpty)) := by
  match w : worklist b with
  | [] =>
    rw [mergeOnce, removeHead_empty fits w]
    rfl
  | [x] =>
    have w' : worklist (putWorklist [] b) = [] := worklist_putWorklist b (Nat.zero_le _)
    have second := removeHead_empty (b := putWorklist [] b) (Nat.zero_le _) w'
    rw [mergeOnce, removeHead_ok fits w]
    simp only [bind, Except.bind, second]
  | x :: y :: rest => simp [w] at short

/-- A merge that ends in a next state had two candidates. -/
theorem execSTMerge_two {s t : State} (fits : s.blk.wlLen.toNat ≤ 256) (e : exec .sTMerge s = .next t) :
    ∃ a c rest, worklist s.blk = a :: c :: rest := by
  match w : worklist s.blk with
  | a :: c :: rest => exact ⟨a, c, rest, rfl⟩
  | [] | [x] =>
    rw [exec, execSTMerge, tMergeStep, mergeOnce_short fits (by simp [w])] at e
    cases e

/-- ROOT at the end of the last merge is the only candidate. -/
theorem mergeSuccessor_root {b : Block} (last : b.wlLen = 1) : worklist b = [(mergeSuccessor b).root] := by
  have len := worklist_length b (by rw [last]; decide)
  rw [last] at len
  obtain ⟨m, w⟩ := List.length_eq_one_iff.mp len
  rw [mergeSuccessor_last last w, treeDone_root, w]

/-- R152: at most one of two handles sorts before the other. -/
theorem sortsBefore_asymm {b : Block} {x y : Handle} (h : sortsBefore b x y) : ¬ sortsBefore b y x := by
  simp only [sortsBefore] at h ⊢
  bv_omega

theorem Leaves.candidates {b c : Block} (v : Leaves b c) : Candidates c := by
  intro x hx
  obtain ⟨k, hk, rfl⟩ := List.mem_map.mp (v.perm.mem_iff.mp hx)
  rw [v.ncnt, BitVec.toNat_ofNat]
  exact Nat.lt_of_le_of_lt (Nat.mod_le _ _) (List.mem_range.mp hk)

/-- R168: the leaves and the worklist that counts give are theirs alone, since the worklist is sorted. -/
theorem Leaves.same {b₁ b₂ c₁ c₂ : Block} (hist : b₁.hist = b₂.hist) (v₁ : Leaves b₁ c₁) (v₂ : Leaves b₂ c₂) :
    SameTree c₁ c₂ := by
  have counts : histAt b₁ = histAt b₂ := by
    funext x
    simp only [histAt, hist]
  have present : presentSymbols b₁ = presentSymbols b₂ := by simp only [presentSymbols, counts]
  have nodes : SameNodes c₁ c₂ := by
    refine ⟨BitVec.eq_of_toNat_eq (by rw [v₁.ncnt, v₂.ncnt, present]), fun k old => ?_⟩
    have old₁ : k < (presentSymbols b₁).length := v₁.ncnt ▸ old
    rw [v₁.node k old₁, v₂.node k (present ▸ old₁)]
    simp only [leafNode, counts, present]
  refine ⟨nodes, BitVec.eq_of_toNat_eq (by rw [v₁.wlLen, v₂.wlLen, present]), ?_⟩
  have perm : (worklist c₁).Perm (worklist c₂) := v₁.perm.trans (present ▸ v₂.perm.symm)
  have sorted₂ : (worklist c₂).Pairwise (sortsBefore c₁) := v₂.sorted.imp_of_mem fun {x y} hx hy r => by
    rwa [sortsBefore, nodes.freqOf (v₁.candidates x (perm.mem_iff.mpr hx)),
      nodes.freqOf (v₁.candidates y (perm.mem_iff.mpr hy))]
  exact perm.eq_of_pairwise (fun x y _ _ h g => absurd g (sortsBefore_asymm h)) v₁.sorted sorted₂

/-- With one candidate S_T_INIT ends at its root. -/
theorem InitEnd.rooted {c d : Block} (h : InitEnd c d) (one : c.wlLen = 1) :
    ∃ l r, worklist c = [l] ∧ Rooted c l r ∧ d = treeDone r := by
  cases h with
  | header none | ends none => simp [none] at one
  | root _ l w r h => exact ⟨l, r, w, h, rfl⟩
  | merges more => simp [one] at more

/-- With none or more than one it keeps the leaves and their order. -/
theorem InitEnd.keeps {c d : Block} (h : InitEnd c d) (other : c.wlLen ≠ 1) :
    d.node = c.node ∧ d.ncnt = c.ncnt ∧ d.wl = c.wl ∧ d.wlLen = c.wlLen := by
  cases h with
  | root one => exact absurd one other
  | _ => exact ⟨rfl, rfl, rfl, rfl⟩

/-- The same root over the only candidate in both. -/
theorem SameTree.rooted {b₁ b₂ r₁ r₂ : Block} {l : Handle} (same : SameTree b₁ b₂) (old : l.toNat < b₁.ncnt.toNat)
    (h₁ : Rooted b₁ l r₁) (h₂ : Rooted b₂ l r₂) : SameTree r₁ r₂ := by
  have record : rootNode b₁ l = rootNode b₂ l := by rw [rootNode, same.freqOf old]
  exact ⟨same.toSameNodes.grown record h₁.node h₁.ncnt h₂.node h₂.ncnt, h₁.wlLen.trans h₂.wlLen.symm,
    ((worklist_eq_nil r₁).mpr h₁.wlLen).trans ((worklist_eq_nil r₂).mpr h₂.wlLen).symm⟩

/-- The end of S_T_INIT goes by the number of candidates, whatever MODE makes of the next state. -/
theorem SameTree.initEnd {c₁ c₂ d₁ d₂ : Block} (same : SameTree c₁ c₂) (old : Candidates c₁) (h₁ : InitEnd c₁ d₁)
    (h₂ : InitEnd c₂ d₂) : SameTree d₁ d₂ := by
  by_cases one : c₁.wlLen = 1
  · obtain ⟨l, r₁, w₁, root₁, rfl⟩ := h₁.rooted one
    obtain ⟨l₂, r₂, w₂, root₂, rfl⟩ := h₂.rooted (same.wlLen ▸ one)
    obtain rfl : l = l₂ := by simpa [w₁, w₂] using same.list
    exact (same.rooted (old l (by simp [w₁])) root₁ root₂).keep (treeDone_keeps r₁) (treeDone_keeps r₂)
  · exact same.keep (h₁.keeps one) (h₂.keeps (same.wlLen ▸ one))

/-- Settles O52: S_T_INIT makes of the same counts the same leaves, whose sorted order is unique, and both states go on
in the same way from the same nodes and candidates. -/
theorem treeDependsOnHistAlone : Obligations.TreeDependsOnHistAlone := by
  unfold Obligations.TreeDependsOnHistAlone
  refine ⟨fun s₁ s₂ t₁ hist ncnt₁ wlLen₁ ncnt₂ wlLen₂ e => ?init,
    fun s₁ s₂ t₁ ncnt wlLen fits list old room node e => ?merge⟩
  case init =>
    obtain ⟨c₁, d₁, leaves₁, ends₁, e₁⟩ := tInitStep_leaves ncnt₁ wlLen₁
    obtain ⟨c₂, d₂, leaves₂, ends₂, e₂⟩ := tInitStep_leaves ncnt₂ wlLen₂
    rw [execSTInit_of_tInitStep e₁] at e
    cases e
    have same := (leaves₁.same hist leaves₂).initEnd leaves₁.candidates ends₁ ends₂
    refine ⟨_, execSTInit_of_tInitStep e₂, ?_, ?_, same.ncnt, same.list, same.node⟩
    · rw [ends₁.counts.1, ends₂.counts.1, leaves₁.total, leaves₂.total, histTotal, histTotal, hist]
    · rw [ends₁.counts.2, ends₂.counts.2, leaves₁.distinct, leaves₂.distinct, histDistinct, histDistinct, hist]
  case merge =>
    obtain ⟨a, c, rest, w⟩ := execSTMerge_two fits e
    obtain ⟨d₁, e₁⟩ := mergeOnce_ok w fits room old
    obtain ⟨d₂, e₂⟩ := mergeOnce_ok (list ▸ w) (wlLen ▸ fits) (ncnt ▸ room) (by rwa [← list, ← ncnt])
    rw [execSTMerge_of_mergeOnce e₁] at e
    cases e
    have before : SameTree s₁.blk s₂.blk := ⟨⟨ncnt, node⟩, wlLen, list⟩
    have merged := before.merged w old (merged_of_mergeOnce w e₁) (merged_of_mergeOnce (list ▸ w) e₂)
    have same := merged.keep (mergeSuccessor_keeps d₁) (mergeSuccessor_keeps d₂)
    refine ⟨_, execSTMerge_of_mergeOnce e₂, same.ncnt, same.wlLen, same.list, same.node, fun last => ?_⟩
    have last₁ : d₁.wlLen = 1 := (mergeSuccessor_keeps d₁).2.2.2.symm.trans last
    have roots : [(mergeSuccessor d₁).root] = [(mergeSuccessor d₂).root] := by
      rw [← mergeSuccessor_root last₁, ← mergeSuccessor_root (merged.wlLen ▸ last₁), merged.list]
    exact (List.cons.inj roots).1

/-! Merging keeps its invariant (R152, R165 to R167, R169). -/

theorem sum_map_freqOf_perm {b : Block} {l m : List Handle} (p : l.Perm m) :
    (l.map fun h => (freqOf b h).toNat).sum = (m.map fun h => (freqOf b h).toNat).sum := (p.map _).sum_eq

theorem createdNode_some {b : Block} {h : Handle} {n : Node} (old : h.toNat < b.ncnt.toNat)
    (node : b.node[h.toNat]? = some n) : createdNode b h = some n := by rw [createdNode, if_pos old, node]

theorem Merged.extends {b d : Block} {a c : Handle} {rest : List Handle} (m : Merged b a c rest d) : Extends b d :=
  .ofGrown m.room m.node m.ncnt

theorem Merged.createdNode_new {b d : Block} {a c : Handle} {rest : List Handle} (m : Merged b a c rest d) :
    createdNode d (b.ncnt.setWidth 9) = some (mergedNode b a c) := by
  have handle := setWidth_toNat_of_lt m.room
  have ncnt := m.ncnt ▸ succ_toNat_of_lt m.room
  exact createdNode_some (by omega) (handle ▸ m.node_new)

/-- R166, R167: the new node is the root of a full tree over both candidates, if the sum of their frequencies fits. -/
theorem Merged.fullTree {b d : Block} {a c : Handle} {rest : List Handle} (m : Merged b a c rest d)
    {k₁ d₁ k₂ d₂ : Nat} (left : FullTree b a k₁ d₁) (right : FullTree b c k₂ d₂)
    (fits : (freqOf b a).toNat + (freqOf b c).toNat < 2 ^ 64) :
    FullTree d (b.ncnt.setWidth 9) (k₁ + k₂) (max d₁ d₂ + 1) := by
  have grow {h : Handle} {k e : Nat} (t : FullTree b h k e) : FullTree d h k e :=
    fullTree_grow m.extends.node m.extends.ncnt t
  have below {h : Handle} {k e : Nat} (t : FullTree b h k e) : h < b.ncnt.setWidth 9 := by
    rw [BitVec.lt_def, setWidth_toNat_of_lt m.room]
    exact fullTree_lt t
  refine .node _ _ k₁ d₁ k₂ d₂ m.createdNode_new rfl rfl (below left) (below right) ?_ (grow left) (grow right)
  rw [m.freqOf_old (fullTree_lt left), m.freqOf_old (fullTree_lt right), BitVec.toNat_add]
  exact Nat.mod_eq_of_lt fits

/-- R165: the frequencies of two candidates have no more than the sum of all. -/
theorem MergeInv.two_freqs {b : Block} {a c : Handle} {rest : List Handle} (v : MergeInv b)
    (w : worklist b = a :: c :: rest) :
    (freqOf b a).toNat + (freqOf b c).toNat + (rest.map fun h => (freqOf b h).toNat).sum = b.total.toNat := by
  have sum := v.freqSum
  simpa [w, Nat.add_assoc] using sum

/-- R167: the candidates after a merge are full trees over all the symbols. -/
theorem MergeInv.forest_merged {b d : Block} {a c : Handle} {rest : List Handle} (v : MergeInv b)
    (w : worklist b = a :: c :: rest) (m : Merged b a c rest d) : Forest d (worklist d) b.distinct.toNat := by
  have sum := v.two_freqs w
  have bounded := v.bounded
  have forest := w ▸ v.forest
  generalize b.distinct.toNat = leaves at forest
  cases forest with
  | cons _ _ k₁ d₁ _ left forest =>
    cases forest with
    | cons _ _ k₂ d₂ k₃ right others =>
      have tree := m.fullTree left right (by omega)
      have others' := forest_grow m.extends.node m.extends.ncnt others
      rw [m.list, show k₁ + (k₂ + k₃) = k₃ + (k₁ + k₂) by omega]
      exact forest_insert tree others'

/-- R152: the worklist after a merge is sorted, since the new candidate is the youngest. -/
theorem MergeInv.sorted_merged {b d : Block} {a c : Handle} {rest : List Handle} (v : MergeInv b)
    (w : worklist b = a :: c :: rest) (m : Merged b a c rest d) : (worklist d).Pairwise (sortsBefore d) := by
  have old : ∀ x ∈ rest, x.toNat < b.ncnt.toNat := fun x hx => forest_lt v.forest x (by simp [w, hx])
  have sorted : rest.Pairwise (sortsBefore b) :=
    v.sorted.sublist (by rw [w]; exact (List.sublist_cons_self ..).trans (List.sublist_cons_self ..))
  rw [m.list]
  refine insertByFreq_sorted d _ rest (sorted.imp_of_mem fun {x y} hx hy r => ?_) fun x hx => ?_
  · rwa [sortsBefore, m.freqOf_old (old x hx), m.freqOf_old (old y hy)]
  · rw [BitVec.lt_def, setWidth_toNat_of_lt m.room]
    exact old x hx

/-- R165, R166: a merge keeps the sum of the frequencies. -/
theorem MergeInv.freqSum_merged {b d : Block} {a c : Handle} {rest : List Handle} (v : MergeInv b)
    (w : worklist b = a :: c :: rest) (m : Merged b a c rest d) :
    ((worklist d).map fun h => (freqOf d h).toNat).sum = b.total.toNat := by
  have sum := v.two_freqs w
  have bounded := v.bounded
  have old : ∀ x ∈ rest, freqOf d x = freqOf b x := fun x hx =>
    m.freqOf_old (forest_lt v.forest x (by simp [w, hx]))
  have others : rest.map (fun h => (freqOf d h).toNat) = rest.map fun h => (freqOf b h).toNat :=
    List.map_congr_left fun x hx => by rw [old x hx]
  rw [sum_map_freqOf_perm m.perm, List.map_cons, List.sum_cons, others, m.freqOf_new, BitVec.toNat_add]
  omega

/-- A merge that leaves two or more candidates keeps the invariant. -/
theorem MergeInv.merged {b d : Block} {a c : Handle} {rest : List Handle} (v : MergeInv b)
    (w : worklist b = a :: c :: rest) (m : Merged b a c rest d) (more : rest ≠ []) : MergeInv d := by
  have size := worklist_length b v.fits
  have len := m.len
  have ncnt := m.ncnt ▸ succ_toNat_of_lt m.room
  have others := List.length_pos_of_ne_nil more
  have fits := v.fits
  have count := v.count
  simp only [w, List.length_cons] at size
  exact
    { two := by omega
      fits := by omega
      distinct := m.distinct ▸ v.distinct
      count := by rw [m.distinct]; omega
      forest := m.distinct ▸ v.forest_merged w m
      sorted := v.sorted_merged w m
      freqSum := m.total ▸ v.freqSum_merged w m
      bounded := m.total ▸ v.bounded
      positive := m.total ▸ v.positive }

/-- R167.4: the last merge makes the code tree. -/
theorem MergeInv.codeTree {b d : Block} {a c : Handle} (v : MergeInv b) (w : worklist b = [a, c])
    (m : Merged b a c [] d) : CodeTree d (b.ncnt.setWidth 9) := by
  have forest := v.forest_merged w m
  have leaves := forest_leaves v.forest
  have distinct := v.distinct
  rw [m.list] at forest
  rw [w] at leaves
  generalize b.distinct.toNat = k at forest leaves distinct
  cases forest with
  | cons _ _ k e _ tree none =>
    cases none
    exact .full k e tree leaves distinct

/-! The leaves meet the invariant of merging (R155, R170). -/

/-- Leaves side by side are a forest. -/
theorem forest_of_leaves {b : Block} {l : List Handle} (leaves : ∀ h ∈ l, atLeaf b h) : Forest b l l.length := by
  induction l with
  | nil => exact .nil
  | cons h hs ih =>
    obtain ⟨⟨n, created, leaf⟩, others⟩ := List.forall_mem_cons.mp leaves
    rw [List.length_cons, Nat.add_comm]
    exact .cons h hs 1 0 hs.length (.leaf h n created leaf) (ih others)

theorem Leaves.createdNode {b c : Block} (v : Leaves b c) {k : Nat} (hk : k < (presentSymbols b).length) :
    createdNode c (BitVec.ofNat 9 k) = some (leafNode b (presentSymbols b)[k]) := by
  have le := presentSymbols_length_le b
  have handle : (BitVec.ofNat 9 k).toNat = k := by rw [BitVec.toNat_ofNat]; omega
  refine createdNode_some ?_ ?_
  · rw [handle, v.ncnt]
    exact hk
  · rw [handle, v.node k hk]

theorem Leaves.atLeaf {b c : Block} (v : Leaves b c) : ∀ h ∈ worklist c, atLeaf c h := by
  intro h hh
  obtain ⟨k, hk, rfl⟩ := List.mem_map.mp (v.perm.mem_iff.mp hh)
  exact ⟨_, v.createdNode (List.mem_range.mp hk), rfl⟩

/-- Counts of 0 add nothing to TOTAL. -/
theorem sum_filter_ne_zero (f : Byte → Word) (l : List Byte) :
    ((l.filter fun x => decide (f x ≠ 0)).map fun x => (f x).toNat).sum = (l.map fun x => (f x).toNat).sum := by
  induction l with
  | nil => rfl
  | cons x xs ih =>
    by_cases z : f x = 0
    · rw [List.filter_cons_of_neg (by simpa using z), ih, List.map_cons, List.sum_cons, z]
      exact (Nat.zero_add _).symm
    · rw [List.filter_cons_of_pos (by simpa using z), List.map_cons, List.sum_cons, ih, List.map_cons, List.sum_cons]

/-- R166, R170: the frequencies of the leaves add up to TOTAL. -/
theorem Leaves.freqSum {b c : Block} (v : Leaves b c) :
    ((worklist c).map fun h => (freqOf c h).toNat).sum = (histTotal b).toNat := by
  have freq : (List.range (presentSymbols b).length).map (fun k => (freqOf c (BitVec.ofNat 9 k)).toNat) =
      (presentSymbols b).map fun x => (histAt b x).toNat := by
    refine List.ext_getElem (by simp) fun k hk _ => ?_
    have hk' : k < (presentSymbols b).length := by simpa using hk
    have count := ((histAt b (presentSymbols b)[k]).isLt)
    simp only [List.getElem_map, List.getElem_range, freqOf_of_nodeAt (createdNode_nodeAt (v.createdNode hk')),
      BitVec.toNat_setWidth]
    omega
  rw [sum_map_freqOf_perm v.perm, List.map_map]
  exact (congrArg List.sum freq).trans
    ((sum_filter_ne_zero (histAt b) allSymbols).trans (histTotal_toNat b).1.symm)

/-- A present symbol makes TOTAL positive. -/
theorem histTotal_pos {b : Block} (some : 1 ≤ (presentSymbols b).length) : 0 < (histTotal b).toNat := by
  obtain ⟨x, hx⟩ := List.exists_mem_of_length_pos some
  obtain ⟨mem, present⟩ := List.mem_filter.mp hx
  rw [(histTotal_toNat b).1]
  refine Nat.lt_of_lt_of_le ?_ (List.single_le_sum (fun _ _ => Nat.zero_le _) _ (List.mem_map_of_mem mem))
  have : histAt b x ≠ 0 := of_decide_eq_true present
  bv_omega

theorem Leaves.mergeInv {b c : Block} (v : Leaves b c) (more : 2 ≤ c.wlLen.toNat) : MergeInv c := by
  have le := presentSymbols_length_le b
  have ncnt := v.ncnt
  have wlLen := v.wlLen
  have distinct : c.distinct.toNat = (presentSymbols b).length := by rw [v.distinct, (histDistinct_toNat b).1]
  have fits : c.wlLen.toNat ≤ 256 := by omega
  have size := worklist_length c fits
  exact
    { two := more
      fits := fits
      distinct := by omega
      count := by omega
      forest := by
        rw [show c.distinct.toNat = (worklist c).length by omega]
        exact forest_of_leaves v.atLeaf
      sorted := v.sorted
      freqSum := by rw [v.freqSum, v.total]
      bounded := by rw [v.total]; exact (histTotal_toNat b).2
      positive := by rw [v.total]; exact histTotal_pos (by omega) }

/-- R163: the root over the only leaf is a code tree. -/
theorem Rooted.codeTree {b c r : Block} {l : Handle} (v : Leaves b c) (w : worklist c = [l]) (h : Rooted c l r) :
    CodeTree r r.root := by
  obtain ⟨n, created, leaf⟩ := v.atLeaf l (by simp [w])
  have old := createdNode_lt created
  have root : r.root.toNat = c.ncnt.toNat := by rw [h.root, setWidth_toNat_of_lt h.room]
  have ncnt : r.ncnt.toNat = c.ncnt.toNat + 1 := h.ncnt ▸ succ_toNat_of_lt h.room
  refine .single (rootNode c l) n (createdNode_some (by omega) (root ▸ h.node_new)) rfl rfl ?_ leaf
  refine createdNode_some (show l.toNat < _ by omega) ?_
  rw [h.extends.node l.toNat old]
  exact nodeAt_ok_iff.mp (createdNode_nodeAt created)

/-! The decode walk (R261, R262). -/

/-- The root of a code tree is no leaf. -/
theorem CodeTree.atInternal {b : Block} {h : Handle} (t : CodeTree b h) : atInternal b h := by
  cases t with
  | full k d t two =>
    cases t with
    | leaf => omega
    | node _ n _ _ _ _ hn hlv => exact ⟨n, hn, by simp [isLeaf, hlv]⟩
  | single n m hn hlv => exact ⟨n, hn, by simp [isLeaf, hlv]⟩

/-- The walk may stand at the root of a code tree. -/
theorem CodeTree.walkAt {b : Block} {h : Handle} (t : CodeTree b h) : ∃ d, WalkAt b h d := by
  have tree := t
  cases t with
  | full k d t two many => exact ⟨d, .full k d t many⟩
  | single n m hn hlv hrv => exact ⟨1, .single tree ⟨n, hn, hrv, hlv⟩⟩

/-- The child c of the node n that the bit x leads to. -/
def IsChild (n : Node) (x : Bool) (c : Handle) : Prop :=
  (x = false ∧ n.lv = true ∧ c = n.l) ∨ (x = true ∧ n.rv = true ∧ c = n.r)

/-- A place where the walk goes on: a leaf, or a place to take the next bit. -/
def WalkOn (b : Block) (h : Handle) : Prop := atLeaf b h ∨ (atInternal b h ∧ ∃ d, WalkAt b h d)

theorem FullTree.walkOn {b : Block} {h : Handle} {k d : Nat} (t : FullTree b h k d) (many : k ≤ 256) :
    WalkOn b h := by
  have walk : WalkAt b h d := .full k d t many
  cases t with
  | leaf _ n hn hl => exact .inl ⟨n, hn, hl⟩
  | node _ n _ _ _ _ hn hlv => exact .inr ⟨⟨n, hn, by simp [isLeaf, hlv]⟩, _, walk⟩

theorem FullTree.child {b : Block} {h c : Handle} {k d : Nat} {n : Node} {x : Bool} (t : FullTree b h k d)
    (many : k ≤ 256) (hn : createdNode b h = some n) (child : IsChild n x c) : WalkOn b c := by
  cases t with
  | leaf _ m hm hl =>
    cases hm.symm.trans hn
    obtain ⟨lv, rv⟩ := (isLeaf_iff n).mp hl
    simp [IsChild, lv, rv] at child
  | node _ m k₁ d₁ k₂ d₂ hm _ _ _ _ _ tl tr =>
    cases hm.symm.trans hn
    rcases child with ⟨-, -, rfl⟩ | ⟨-, -, rfl⟩
    · exact tl.walkOn (by omega)
    · exact tr.walkOn (by omega)

/-- R163, R167: from a place of the walk each child is a place where it goes on. -/
theorem WalkAt.child {b : Block} {h c : Handle} {d : Nat} {n : Node} {x : Bool} (t : WalkAt b h d)
    (hn : createdNode b h = some n) (child : IsChild n x c) : WalkOn b c := by
  cases t with
  | full k d t many => exact t.child many hn child
  | single t =>
    cases t with
    | full k d t two many => exact t.child many hn child
    | single m leaf hm _ hrv hleaf isLeaf =>
      cases hm.symm.trans hn
      rcases child with ⟨-, -, rfl⟩ | ⟨-, rv, -⟩
      · exact .inl ⟨leaf, hleaf, isLeaf⟩
      · rw [hrv] at rv
        cases rv

/-! The invariant of the tree and the decode walk (R49, R171, R181, R261, R262). -/

/-- c has the tree, the worklist and the counts of b. -/
structure KeepsTree (b c : Block) : Prop where
  node : c.node = b.node := by rfl
  ncnt : c.ncnt = b.ncnt := by rfl
  wl : c.wl = b.wl := by rfl
  wlLen : c.wlLen = b.wlLen := by rfl
  total : c.total = b.total := by rfl
  distinct : c.distinct = b.distinct := by rfl
  root : c.root = b.root := by rfl
  rootV : c.rootV = b.rootV := by rfl
  decCnt : c.decCnt = b.decCnt := by rfl

theorem MergeInv.congr {b c : Block} (v : MergeInv b) (same : KeepsTree b c) : MergeInv c := by
  have list : worklist c = worklist b := worklist_congr same.wl same.wlLen
  have freq : freqOf c = freqOf b := funext fun h => freqOf_congr (by rw [same.node])
  have order : sortsBefore c = sortsBefore b := by
    funext x y
    simp only [sortsBefore, freq]
  have keeps : Extends b c := .ofSame same.node same.ncnt
  exact
    { two := same.wlLen ▸ v.two
      fits := same.wlLen ▸ v.fits
      distinct := same.distinct ▸ v.distinct
      count := by rw [same.ncnt, same.wlLen, same.distinct, v.count]
      forest := by rw [list, same.distinct]; exact forest_grow keeps.node keeps.ncnt v.forest
      sorted := by rw [list, order]; exact v.sorted
      freqSum := by rw [list, freq, same.total, v.freqSum]
      bounded := same.total ▸ v.bounded
      positive := same.total ▸ v.positive }

/-- `codeTree_congr` for a block whose arena is another's by definition. -/
theorem CodeTree.keep {b c : Block} {h : Handle} (t : CodeTree b h) (node : c.node = b.node := by rfl)
    (ncnt : c.ncnt = b.ncnt := by rfl) : CodeTree c h := codeTree_congr node ncnt t

/-- `walkAt_congr` for a block whose arena is another's by definition. -/
theorem WalkAt.keep {b c : Block} {h : Handle} {d : Nat} (t : WalkAt b h d) (node : c.node = b.node := by rfl)
    (ncnt : c.ncnt = b.ncnt := by rfl) : WalkAt c h d := walkAt_congr node ncnt t

/-- A step that keeps the tree, STATE and CUR keeps the invariant. -/
theorem TreeInv.congr {b c : Block} (v : TreeInv b) (same : KeepsTree b c) (state : c.state = b.state)
    (cur : c.cur = b.cur) : TreeInv c := by
  have code {h : Handle} (t : CodeTree b h) : CodeTree c h := codeTree_congr same.node same.ncnt t
  exact
    { arena := same.ncnt ▸ v.arena
      before := by rw [state, same.ncnt, same.wlLen, same.decCnt]; exact v.before
      atMerge := fun h => by
        obtain ⟨merge, decCnt⟩ := v.atMerge (state ▸ h)
        exact ⟨merge.congr same, same.decCnt ▸ decCnt⟩
      atCodeGen := fun h => by
        obtain ⟨rootV, tree⟩ := v.atCodeGen (state ▸ h)
        rw [same.rootV, same.root]
        exact ⟨rootV, code tree⟩
      atDecodeBit := fun h => by
        obtain ⟨tree, inner, ⟨d, walk⟩, more⟩ := v.atDecodeBit (state ▸ h)
        rw [same.root, cur, same.decCnt, same.total]
        exact ⟨code tree, atInternal_congr same.node same.ncnt inner, ⟨d, walkAt_congr same.node same.ncnt walk⟩, more⟩
      atEmit := fun h => by
        obtain ⟨tree, leaf, more⟩ := v.atEmit (state ▸ h)
        rw [same.root, cur, same.decCnt, same.total]
        exact ⟨code tree, atLeaf_congr same.node same.ncnt leaf, more⟩ }

/-- The states before the tree (R49). -/
def beforeTree : List (BitVec 5) := [Code.sECount, Code.sERewind, Code.sDHdr, Code.sTInit]

/-- The states that ask nothing of the tree. -/
def treeless : List (BitVec 5) :=
  [Code.sIdle, Code.sEHdr, Code.sERead, Code.sEBit, Code.sEWrite, Code.sEFlush]

theorem TreeInv.quiet {b : Block} (k : BitVec 5) (arena : b.ncnt.toNat ≤ 511) (state : b.state = k)
    (free : k ∈ treeless := by decide) : TreeInv b := by
  subst state
  have other : ∀ k ∈ treeless, k ∉ beforeTree ∧ k ≠ Code.sTMerge ∧ k ≠ Code.sCGen ∧ k ≠ Code.sDBit ∧
      k ≠ Code.sDEmit := by decide
  obtain ⟨before, merge, gen, bit, emit⟩ := other _ free
  exact
    { arena := arena
      before := fun h => absurd h before
      atMerge := fun h => absurd h merge
      atCodeGen := fun h => absurd h gen
      atDecodeBit := fun h => absurd h bit
      atEmit := fun h => absurd h emit }

theorem TreeInv.early {b : Block} (k : BitVec 5) (ncnt : b.ncnt = 0) (wlLen : b.wlLen = 0) (decCnt : b.decCnt = 0)
    (state : b.state = k) (pre : k ∈ beforeTree := by decide) : TreeInv b := by
  subst state
  have other : ∀ k ∈ beforeTree, k ≠ Code.sTMerge ∧ k ≠ Code.sCGen ∧ k ≠ Code.sDBit ∧ k ≠ Code.sDEmit := by decide
  obtain ⟨merge, gen, bit, emit⟩ := other _ pre
  exact
    { arena := by rw [ncnt]; decide
      before := fun _ => ⟨ncnt, wlLen, decCnt⟩
      atMerge := fun h => absurd h merge
      atCodeGen := fun h => absurd h gen
      atDecodeBit := fun h => absurd h bit
      atEmit := fun h => absurd h emit }

/-- In the state k a clause about another state asks nothing. -/
theorem state_clause {b : Block} {k j : BitVec 5} {P : Prop} (state : b.state = k) (ne : k ≠ j := by decide)
    (h : b.state = j) : P := absurd (state.symm.trans h) ne

theorem state_before {b : Block} {k : BitVec 5} {P : Prop} (state : b.state = k) (out : k ∉ beforeTree := by decide)
    (h : b.state ∈ beforeTree) : P := absurd (state ▸ h) out

theorem TreeInv.merging {b : Block} (arena : b.ncnt.toNat ≤ 511) (merge : MergeInv b) (decCnt : b.decCnt = 0)
    (state : b.state = Code.sTMerge) : TreeInv b where
  arena := arena
  before := state_before state
  atMerge _ := ⟨merge, decCnt⟩
  atCodeGen := state_clause state
  atDecodeBit := state_clause state
  atEmit := state_clause state

theorem TreeInv.generating {b : Block} (arena : b.ncnt.toNat ≤ 511) (tree : CodeTree b b.root) (rootV : b.rootV = true)
    (state : b.state = Code.sCGen) : TreeInv b where
  arena := arena
  before := state_before state
  atMerge := state_clause state
  atCodeGen _ := ⟨rootV, tree⟩
  atDecodeBit := state_clause state
  atEmit := state_clause state

/-- Where the walk goes on, S_D_BIT and S_D_EMIT are entered as they ask. -/
theorem TreeInv.walking {b : Block} (arena : b.ncnt.toNat ≤ 511) (tree : CodeTree b b.root)
    (more : b.decCnt < b.total)
    (place : (b.state = Code.sDEmit ∧ atLeaf b b.cur) ∨
      (b.state = Code.sDBit ∧ atInternal b b.cur ∧ ∃ d, WalkAt b b.cur d)) : TreeInv b := by
  rcases place with ⟨state, leaf⟩ | ⟨state, inner, walk⟩
  · exact
      { arena := arena
        before := state_before state
        atMerge := state_clause state
        atCodeGen := state_clause state
        atDecodeBit := state_clause state
        atEmit := fun _ => ⟨tree, leaf, more⟩ }
  · exact
      { arena := arena
        before := state_before state
        atMerge := state_clause state
        atCodeGen := state_clause state
        atDecodeBit := fun _ => ⟨tree, inner, walk, more⟩
        atEmit := state_clause state }

/-- The walk starts at the root. -/
theorem TreeInv.atRoot {b : Block} (arena : b.ncnt.toNat ≤ 511) (tree : CodeTree b b.root)
    (more : b.decCnt < b.total) (state : b.state = Code.sDBit) (cur : b.cur = b.root) : TreeInv b :=
  .walking arena tree more (.inr ⟨state, cur ▸ tree.atInternal, cur ▸ tree.walkAt⟩)

/-- A code tree that is done is what S_C_GEN and S_D_BIT ask for. -/
theorem TreeInv.treeDone {b : Block} (arena : b.ncnt.toNat ≤ 511) (tree : CodeTree b b.root) (rootV : b.rootV = true)
    (more : b.decCnt < b.total) : TreeInv (treeDone b) := by
  rcases treeDone_cases b with ⟨-, q⟩ | ⟨-, q⟩ <;> rw [q]
  · exact .generating arena tree.keep rootV rfl
  · exact .atRoot arena tree.keep more rfl rfl

theorem TreeInv.command {b : Block} (v : TreeInv b) (w : Word) : TreeInv (commandAct w b) := by
  rcases commandAct_cases w b with q | q | q | q <;> rw [q]
  · exact v.congr {} rfl rfl
  · exact .early Code.sECount rfl rfl rfl rfl
  · exact .early Code.sDHdr rfl rfl rfl rfl
  · exact v.congr {} rfl rfl

/-! The tree builder's steps. -/

/-- Every end of S_T_INIT meets the invariant. -/
theorem TreeInv.initEnd {b c d : Block} (decCnt : b.decCnt = 0) (v : Leaves b c) (h : InitEnd c d) : TreeInv d := by
  have arena : c.ncnt.toNat ≤ 511 := by
    have := presentSymbols_length_le b
    have := v.ncnt
    omega
  have dec : c.decCnt = 0 := v.decCnt.trans decCnt
  cases h with
  | header => exact .quiet Code.sEHdr arena rfl
  | ends => exact .quiet Code.sIdle arena rfl
  | root one l w r root =>
    have positive : 0 < c.total.toNat := by
      rw [v.total]
      exact histTotal_pos (by rw [← v.wlLen, one]; decide)
    refine .treeDone (root.ncnt ▸ ?_) (root.codeTree v w) root.rootV ?_
    · rw [succ_toNat_of_lt root.room]
      exact root.room
    · rw [root.total, root.decCnt, dec]
      exact positive
  | merges more =>
    exact .merging arena ((v.mergeInv more).congr {}) dec rfl

theorem TreeInv.init {s t : State} (v : TreeInv s.blk) (state : s.blk.state = Code.sTInit)
    (e : exec .sTInit s = .next t) : TreeInv t.blk := by
  obtain ⟨ncnt, wlLen, decCnt⟩ := v.before (by rw [state]; decide)
  obtain ⟨c, d, leaves, ends, ok⟩ := tInitStep_leaves ncnt wlLen
  rw [execSTInit_of_tInitStep ok] at e
  cases e
  exact .initEnd decCnt leaves ends

theorem TreeInv.merge {s t : State} (v : TreeInv s.blk) (state : s.blk.state = Code.sTMerge)
    (e : exec .sTMerge s = .next t) : TreeInv t.blk := by
  obtain ⟨merge, decCnt⟩ := v.atMerge state
  obtain ⟨a, c, rest, w⟩ := execSTMerge_two merge.fits e
  obtain ⟨d, ok⟩ := merge.merges
  rw [execSTMerge_of_mergeOnce ok] at e
  cases e
  have m := merged_of_mergeOnce w ok
  have dec : d.decCnt = 0 := m.decCnt.trans decCnt
  have arena : d.ncnt.toNat ≤ 511 := by
    rw [m.ncnt, succ_toNat_of_lt m.room]
    exact m.room
  show TreeInv (mergeSuccessor d)
  by_cases more : rest = []
  · subst more
    have only : worklist d = [s.blk.ncnt.setWidth 9] := m.list
    rw [mergeSuccessor_last (m.last_iff.mpr rfl) only]
    refine .treeDone arena (merge.codeTree w m).keep rfl ?_
    show d.decCnt < d.total
    rw [dec, m.total]
    exact merge.positive
  · rw [mergeSuccessor_more fun one => more (m.last_iff.mp one)]
    exact .merging arena ((merge.merged w m more).congr {}) dec rfl

/-! The decode walk's steps. -/

/-- A walk that takes a bit goes on at the child. -/
theorem TreeInv.walks {b d : Block} (v : TreeInv b) (state : b.state = Code.sDBit) (e : walkStep b = .ok d) :
    TreeInv d := by
  obtain ⟨tree, ⟨n, created, -⟩, ⟨k, walk⟩, more⟩ := v.atDecodeBit state
  rcases walkStep_cases b with ⟨n', c, m, here, child, there, ok⟩ | ⟨_, _, _, raised⟩ | ⟨_, _, faulted⟩
  case inr.inl => rw [raised] at e; cases e
  case inr.inr => rw [faulted] at e; cases e
  obtain rfl : n = n' := Except.ok.inj ((createdNode_nodeAt created).symm.trans here)
  rw [ok] at e
  cases e
  refine .walking v.arena tree.keep more ?_
  rcases walk.child created child with ⟨x, hx, leaf⟩ | ⟨⟨x, hx, inner⟩, deeper, walk'⟩ <;>
    obtain rfl : x = m := Except.ok.inj ((createdNode_nodeAt hx).symm.trans there)
  · exact .inl ⟨if_pos leaf, atLeaf_congr rfl rfl ⟨x, hx, leaf⟩⟩
  · exact .inr ⟨if_neg (by simp [inner]), atInternal_congr rfl rfl ⟨x, hx, inner⟩, deeper,
      walk'.keep⟩

theorem TreeInv.error {b : Block} (v : TreeInv b) (c : ErrCode) (g : Stage) : TreeInv (errorEntry c g b) :=
  .quiet Code.sIdle v.arena rfl

theorem TreeInv.bit {s t : State} (v : TreeInv s.blk) (state : s.blk.state = Code.sDBit)
    (e : exec .sDBit s = .next t) : TreeInv t.blk := by
  rcases execSDBit_cases e with ⟨-, -, ⟨-, q⟩ | ⟨-, -, q⟩⟩ | ⟨b, h, has, -, ok | ⟨-, q⟩⟩
  · exact q ▸ v.error _ _
  · exact q ▸ v.error _ _
  · rcases has.hasBit with ⟨-, rfl⟩ | ⟨x, rfl⟩
    · exact v.walks state ok
    · have loaded : TreeInv (brLoad x (countIn s.blk)) := v.congr {} rfl rfl
      exact loaded.walks state ok
  · exact q ▸ v.error _ _

theorem TreeInv.emit {s t : State} (v : TreeInv s.blk) (state : s.blk.state = Code.sDEmit)
    (e : exec .sDEmit s = .next t) : TreeInv t.blk := by
  obtain ⟨tree, -, more⟩ := v.atEmit state
  obtain ⟨n, -, -, ⟨-, q⟩ | ⟨-, -, q⟩ | ⟨-, other, q⟩⟩ := execSDEmit_cases e <;> rw [q]
  · exact v.error _ _
  · exact .quiet Code.sIdle v.arena rfl
  · refine .atRoot v.arena tree.keep ?_ rfl rfl
    show s.blk.decCnt + 1 < s.blk.total
    bv_omega

/-! The other steps: none writes the arena, the worklist or DEC_CNT. -/

/-- The micro-operations that build or walk the tree. -/
abbrev treeSteps : List Instr := [.sTInit, .sTMerge, .sDBit, .sDEmit]

theorem Commits.counts_kept {i : Instr} {b c : Block} (h : Commits b i c) (other : i ∉ treeSteps) :
    c.ncnt = b.ncnt ∧ c.wlLen = b.wlLen ∧ c.decCnt = b.decCnt := by
  cases h with
  | noSymbol | noSymbolEnds | walks | emits | emitsLast => simp at other
  | treeEnds _ tree | merges _ tree => rcases tree with rfl | rfl <;> simp at other
  | _ => exact ⟨rfl, rfl, rfl⟩

/-- They go on before the tree from there, and else to states that ask nothing of the tree. -/
theorem successors_treeless (c : BitVec 5) (mode : BitVec 2) (other : decodeState c ∉ treeSteps) :
    ∀ d ∈ successors (decodeState c) mode, (c ∈ beforeTree ∧ d ∈ beforeTree) ∨ d ∈ treeless := by
  revert c mode
  decide

theorem TreeInv.others {b c : Block} (v : TreeInv b) (other : decodeState b.state ∉ treeSteps)
    (e : Ends (decodeState b.state) b c) : TreeInv c := by
  cases e with
  | commits h =>
    obtain ⟨ncnt, wlLen, decCnt⟩ := h.counts_kept other
    rcases h.control with ⟨-, next⟩ | ⟨d, rfl, -⟩
    · rcases successors_treeless b.state b.mode other _ next with ⟨here, there⟩ | there
      · obtain ⟨noNode, noCandidate, none⟩ := v.before here
        exact .early _ (ncnt.trans noNode) (wlLen.trans noCandidate) (decCnt.trans none) rfl there
      · exact .quiet _ (ncnt ▸ v.arena) rfl there
    · exact .quiet Code.sIdle (ncnt ▸ v.arena) rfl
  | raises k g _ q => exact q ▸ v.error k g

/-- Every turn of the sequencer keeps the invariant. -/
theorem TreeInv.sequencer {s t : State} (v : TreeInv s.blk) (e : exec (decodeState s.blk.state) s = .next t) :
    TreeInv t.blk := by
  by_cases tree : decodeState s.blk.state ∈ treeSteps
  · have state {i : Instr} {k : BitVec 5} (q : decodeState s.blk.state = i) (code : encodeWord i = .state k) :
        s.blk.state = k := by
      rw [← q, encodeWord_decodeState] at code
      exact CodeWord.state.inj code
    simp only [List.mem_cons, List.not_mem_nil, or_false] at tree
    rcases tree with q | q | q | q <;> rw [q] at e
    · exact v.init (state q rfl) e
    · exact v.merge (state q rfl) e
    · exact v.bit (state q rfl) e
    · exact v.emit (state q rfl) e
  · rcases sequencer_cases e with ⟨-, rfl⟩ | ⟨micro, run⟩
    · exact v
    · exact v.others tree (microOp_ends micro run e)

/-- Settles O57: a host step leaves the tree as it is or starts anew, and every turn of the sequencer keeps the
invariant: merging keeps a forest over all the symbols, sorted, and the walk goes from a tree to its subtrees. -/
theorem treeInvariantKept : Obligations.TreeInvariantKept := by
  unfold Obligations.TreeInvariantKept
  intro s t v e
  rcases step_block_cases e with q | ⟨-, q⟩ | ⟨-, w, q⟩ | ⟨d, q⟩ | ⟨s', same, -, -, micro⟩
  · exact q ▸ v
  · exact q ▸ v.congr {} rfl rfl
  · exact q ▸ v.command w
  · exact q ▸ .idle rfl (Nat.zero_le 511)
  · rw [← same] at v micro
    exact v.sequencer micro

end Sys2Proof.Machine
end

section
/-! PROOFS of the family 43_code_table_generator: S_C_GEN completes on a code tree (R186, R190), its codewords are the
paths to the leaves (R181 to R184), and no codeword begins another (R187). -/

namespace Sys2Proof.Machine

/-! A leaf has no descendants (R187). -/

theorem follow_append (b : Block) (h : Handle) (p r : List Bool) :
    follow b h (p ++ r) = (follow b h p).bind fun g => follow b g r := by
  induction p generalizing h with
  | nil => rfl
  | cons x xs ih =>
    simp only [List.cons_append, follow]
    cases nodeAt b h with
    | error => rfl
    | ok n => cases x <;> simp only [ih] <;> split <;> rfl

theorem follow_leaf {b : Block} {h g : Handle} {n : Node} {r : List Bool} (en : nodeAt b h = .ok n)
    (leaf : isLeaf n = true) (f : follow b h r = some g) : r = [] := by
  obtain ⟨noLeft, noRight⟩ := (isLeaf_iff n).mp leaf
  rcases r with - | ⟨x, xs⟩
  · rfl
  · cases x <;> simp [follow, en, noLeft, noRight] at f

/-- When the path to one leaf begins the path to another, the two leaves are one. -/
theorem LeafPath.symbol_eq_of_prefix {b : Block} {h : Handle} {p q : List Bool} {x y : Byte} (px : LeafPath b h p x)
    (qy : LeafPath b h q y) (pre : p <+: q) : x = y := by
  obtain ⟨r, rfl⟩ := pre
  obtain ⟨g, n, toG, en, leaf, rfl⟩ := px
  obtain ⟨g', m, toG', em, -, rfl⟩ := qy
  have below : follow b g r = some g' := by rw [follow_append, toG] at toG'; exact toG'
  obtain rfl := follow_leaf en leaf below
  obtain rfl : g = g' := Option.some.inj below
  rw [Except.ok.inj (en.symm.trans em)]

/-! An entry that holds a path of at most 255 bits (R183). -/

section
variable {b : Block} {x : Byte} {q : List Bool} (entry : Holds b x q) (fits : q.length ≤ 255)
include entry fits

theorem Holds.codeLen_toNat : (codeLenAt b x).toNat = q.length := by
  rw [entry.1, BitVec.toNat_ofNat]
  omega

theorem Holds.codeBits_getLsbD (i : Nat) : (codeBitsAt b x).getLsbD i = (q[i]?).getD false := by
  rw [entry.2, packPath_getLsbD q (by omega)]

theorem Holds.codeword_eq : codeword b x = q := by
  apply List.ext_getElem
  · simp [codeword, entry.codeLen_toNat fits]
  · intro i _ inside
    simp [codeword, entry.codeBits_getLsbD fits, inside]

theorem Holds.codeLen_ne_zero (bits : q ≠ []) : codeLenAt b x ≠ 0 := by
  intro zero
  have len := entry.codeLen_toNat fits
  rw [zero] at len
  exact bits (List.length_eq_zero_iff.mp len.symm)

end

/-! S_C_GEN from a cleared code table (R49). -/

section
variable {s t : State} (cleared : ∀ x, codeLenAt s.blk x = 0) (e : exec .sCGen s = .next t)

include e in
/-- Every leaf below ROOT gives its symbol an entry. -/
theorem execSCGen_reaches {p : List Bool} {x : Byte} (lp : LeafPath s.blk s.blk.root p x) :
    ∃ q, LeafPath s.blk s.blk.root q x ∧ Holds t.blk x q ∧ q.length ≤ 255 := by
  obtain ⟨b, ok, eq⟩ := (execSCGen_cases e).2
  rw [eq]
  exact visit_reaches rfl ok lp

include cleared e

/-- R181: what has a length was recorded at a leaf of the symbol. -/
theorem execSCGen_entry {x : Byte} (coded : codeLenAt t.blk x ≠ 0) :
    ∃ q, LeafPath s.blk s.blk.root q x ∧ Holds t.blk x q ∧ q.length ≤ 255 := by
  obtain ⟨b, ok, eq⟩ := (execSCGen_cases e).2
  rw [eq] at coded ⊢
  rcases visit_entry rfl ok x with ⟨kept, -⟩ | recorded
  · exact absurd (kept.trans (cleared x)) coded
  · exact recorded

theorem codeword_leafPath {x : Byte} (coded : codeLenAt t.blk x ≠ 0) :
    LeafPath s.blk s.blk.root (codeword t.blk x) x := by
  obtain ⟨q, lp, entry, fits⟩ := execSCGen_entry cleared e coded
  rwa [entry.codeword_eq fits]

/-- R183: the bits of a codeword's entry past its length are 0. -/
theorem codeBits_past_length {x : Byte} (coded : codeLenAt t.blk x ≠ 0) {i : Nat}
    (past : (codeLenAt t.blk x).toNat ≤ i) : (codeBitsAt t.blk x).getLsbD i = false := by
  obtain ⟨q, -, entry, fits⟩ := execSCGen_entry cleared e coded
  rw [entry.codeLen_toNat fits] at past
  rw [entry.codeBits_getLsbD fits, List.getElem?_eq_none past, Option.getD_none]

/-- R186: no codeword is longer than 255 bits. -/
theorem codeLen_le_255 (x : Byte) : (codeLenAt t.blk x).toNat ≤ 255 := by
  by_cases coded : codeLenAt t.blk x = 0
  · rw [coded]; decide
  · obtain ⟨q, -, entry, fits⟩ := execSCGen_entry cleared e coded
    rwa [entry.codeLen_toNat fits]

end

/-- A path of at least one bit to a leaf starts above a leaf, so every path to a leaf from there has a bit. -/
theorem LeafPath.ne_nil_of_ne_nil {b : Block} {h : Handle} {p q : List Bool} {x y : Byte} (px : LeafPath b h p x)
    (bits : p ≠ []) (qy : LeafPath b h q y) : q ≠ [] := by
  rintro rfl
  obtain ⟨g, n, toG, en, leaf, -⟩ := qy
  obtain ⟨g', m, toG', -⟩ := px
  obtain rfl : h = g := Option.some.inj toG
  exact bits (follow_leaf en leaf toG')

/-- Settles O31: a traversal of a code tree completes and writes the code table alone, and the paths fit in 255 bits. -/
theorem codeGenCompletes : Obligations.CodeGenCompletes := by
  unfold Obligations.CodeGenCompletes
  intro s tree
  obtain ⟨c, ok⟩ := codeGen_ok tree
  have e : exec .sCGen s = .next { s with blk := { c with hdrIdx := 0, state := Code.sEHdr } } := by
    rw [exec, execSCGen, cGenStep, ok]
    rfl
  refine ⟨_, e, ?_, fun cleared => codeLen_le_255 cleared e⟩
  rw [visit_inv ok]

/-- Settles O32: an entry with a length was recorded at the end of its path, and every leaf below the root records
one. -/
theorem codewordsAreTreePaths : Obligations.CodewordsAreTreePaths := by
  unfold Obligations.CodewordsAreTreePaths
  intro s t cleared e
  refine ⟨fun x coded => ⟨codeword_leafPath cleared e coded, fun i => codeBits_past_length cleared e coded⟩, ?_⟩
  intro p h n bits toH en leaf
  have lp : LeafPath s.blk s.blk.root p n.sym := ⟨h, n, toH, en, leaf, rfl⟩
  obtain ⟨q, lq, entry, fits⟩ := execSCGen_reaches e lp
  exact entry.codeLen_ne_zero fits (lp.ne_nil_of_ne_nil bits lq)

/-- Settles O33: codewords are paths to leaves, and a leaf has no descendants. -/
theorem codewordsArePrefixFree : Obligations.CodewordsArePrefixFree := by
  unfold Obligations.CodewordsArePrefixFree
  intro s t cleared e x y ne codedX codedY pre
  exact ne ((codeword_leafPath cleared e codedX).symbol_eq_of_prefix (codeword_leafPath cleared e codedY) pre)

end Sys2Proof.Machine
end

section
/-! PROOFS of the family 44_bitstream: the writer packs bits from bit 7 down and the reader takes them in that order
(R201, R210), and what the micro-operations on the bit stream do (R252 to R254, R261). -/

namespace Sys2Proof.Machine

/-! The writer (R201, R206): the first bit put stands at bit 7, and the bits not yet used are 0. -/

/-- The writer's byte after bwPut: bit 7 - n is the new bit, or stays 1. -/
theorem putBit_getLsbD (buf : Byte) (x : Bool) (n i : Nat) :
    (buf ||| ((flagBit x).setWidth 8 <<< (7 - n))).getLsbD i = (buf.getLsbD i || (decide (i = 7 - n) && x)) := by
  have flag (k : Nat) : ((flagBit x).setWidth 8).getLsbD k = (decide (k = 0) && x) := by
    cases k <;> simp [flagBit]
  rw [BitVec.getLsbD_or, BitVec.getLsbD_shiftLeft, flag]
  congr 1
  by_cases here : i = 7 - n
  · subst here
    simp [show 7 - n < 8 by omega]
  · by_cases below : i < 7 - n
    · simp [here, below]
    · simp [here, show i - (7 - n) ≠ 0 by omega]

/-- The writer holds the bits of a list, in the order put. -/
structure WriterHolds (b : Block) (l : List Bool) : Prop where
  count : b.bwCnt.toNat = l.length
  bits : ∀ i < 8, b.bwBuf.getLsbD (7 - i) = (l[i]?).getD false

theorem WriterHolds.empty {b : Block} (buf : b.bwBuf = 0) (cnt : b.bwCnt = 0) : WriterHolds b [] where
  count := by rw [cnt]; rfl
  bits i _ := by rw [buf]; simp

/-- R201: one bit put into a writer with room stands after the bits held. -/
theorem WriterHolds.put {b : Block} {l : List Bool} (h : WriterHolds b l) (room : l.length < 8) (x : Bool) :
    ∃ w, bwPut x b = .ok w ∧ WriterHolds w (l ++ [x]) := by
  refine ⟨_, bwPut_ok x (h.count ▸ room), ?count, fun i hi => ?bits⟩
  case count =>
    rw [BitVec.toNat_add, h.count, List.length_append]
    exact Nat.mod_eq_of_lt (by simp; omega)
  case bits =>
    rw [putBit_getLsbD, h.count, h.bits i hi]
    rcases Nat.lt_trichotomy i l.length with old | new | above
    · simp [List.getElem?_append_left old, show 7 - i ≠ 7 - l.length by omega]
    · simp [new]
    · simp [List.getElem?_eq_none, show l.length + 1 ≤ i by omega, above.le, show 7 - i ≠ 7 - l.length by omega]

/-- Bits put one after the other, while there is room for all. -/
theorem WriterHolds.putAll {b : Block} {l : List Bool} (h : WriterHolds b l) (xs : List Bool)
    (room : l.length + xs.length ≤ 8) :
    ∃ w, xs.foldl (fun (m : Micro) x => m.bind (bwPut x)) (.ok b) = .ok w ∧ WriterHolds w (l ++ xs) := by
  induction xs generalizing b l with
  | nil => exact ⟨b, rfl, by rwa [List.append_nil]⟩
  | cons x xs ih =>
    rw [List.length_cons] at room
    obtain ⟨c, put, holds⟩ := h.put (by omega) x
    obtain ⟨w, rest, all⟩ := ih holds (by rw [List.length_append, List.length_singleton]; omega)
    refine ⟨w, ?_, by rwa [List.append_cons]⟩
    rw [List.foldl_cons, show Except.bind (.ok b) (bwPut x) = bwPut x b from rfl, put]
    exact rest

/-! The reader (R210, R211): each bit taken shifts the next one to bit 7. -/

theorem brTake_iterate (n : Nat) (b : Block) :
    (fun c => (brTake c).2)^[n] b = { b with brBuf := b.brBuf <<< n, brCnt := b.brCnt - BitVec.ofNat 4 n } := by
  induction n with
  | zero => simp
  | succ n ih =>
    rw [Function.iterate_succ_apply', ih, brTake, BitVec.shiftLeft_add, BitVec.ofNat_add, sub_add_eq_sub_sub]
    rfl

/-- The bit taken after n others is bit 7 - n of the byte loaded. -/
theorem brTake_iterate_bit {n : Nat} (inside : n < 8) (b : Block) :
    (brTake ((fun c => (brTake c).2)^[n] b)).1 = b.brBuf.getLsbD (7 - n) := by
  rw [brTake_iterate, brTake, BitVec.getLsbD_shiftLeft]
  simp [show ¬ 7 < n by omega]

/-- Settles O21: the writer's bit 7 - n is the bit put after n others, and the reader's the bit taken after n others. -/
theorem readerReturnsWhatTheWriterPacked : Obligations.ReaderReturnsWhatTheWriterPacked := by
  unfold Obligations.ReaderReturnsWhatTheWriterPacked
  intro x0 x1 x2 x3 x4 x5 x6 x7 b buf cnt
  obtain ⟨w, packed, holds⟩ := (WriterHolds.empty buf cnt).putAll [x0, x1, x2, x3, x4, x5, x6, x7] le_rfl
  refine ⟨w, packed, BitVec.eq_of_toNat_eq holds.count, ?bits, ?drained⟩
  case bits =>
    have taken (n : Nat) (inside : n < 8 := by decide) :
        (brTake ((fun c => (brTake c).2)^[n] (brLoad w.bwBuf b))).1 =
          ([x0, x1, x2, x3, x4, x5, x6, x7][n]?).getD false :=
      (brTake_iterate_bit inside _).trans (holds.bits n inside)
    simp only [List.map_cons, List.map_nil]
    rw [taken 0, taken 1, taken 2, taken 3, taken 4, taken 5, taken 6, taken 7]
    rfl
  case drained =>
    rw [brTake_iterate]
    exact BitVec.sub_self 8#4

/-! The encoder's micro-operations (R252 to R254). -/

theorem eBitStep_ok {b : Block} (room : b.bwCnt.toNat < 8) :
    eBitStep b = .ok { b with
      bwBuf := b.bwBuf ||| ((flagBit (codewordBit b b.sym b.bitIdx)).setWidth 8 <<< (7 - b.bwCnt.toNat))
      bwCnt := b.bwCnt + 1
      bitIdx := b.bitIdx + 1
      state := if b.bwCnt + 1 = 8 then Code.sEWrite
        else if b.bitIdx + 1 = codeLenAt b b.sym then Code.sERead else Code.sEBit } := by
  rw [eBitStep, bwPut_ok _ room]
  rfl

/-- R252: the writer is full after one bit more exactly when it holds seven. -/
theorem bwCnt_succ_eq_eight (n : BitVec 4) : n + 1 = 8 ↔ n.toNat = 7 := by
  bv_omega

/-- Settles O36: the writer has room, so bwPut answers, and the new byte differs from the old at bit 7 - BW_CNT
alone. -/
theorem emitBitResult : Obligations.EmitBitResult := by
  unfold Obligations.EmitBitResult
  intro s room
  refine ⟨_, by rw [exec, execSEBit, eBitStep_ok room, finish_ok], rfl, fun i => putBit_getLsbD _ _ _ i, ?_⟩
  simp only [bwCnt_succ_eq_eight]

/-- Settles O37: the byte is accepted, and the writer is emptied. -/
theorem emitWriteResult : Obligations.EmitWriteResult := by
  unfold Obligations.EmitWriteResult
  intro s ok
  rw [exec, execSEWrite, outWrite_ok _ ok]
  rfl

/-- Settles O38: a port transaction is made exactly when the writer holds a bit. -/
theorem flushResult : Obligations.FlushResult := by
  unfold Obligations.FlushResult
  intro s
  refine ⟨fun empty => ?_, fun partly ok => ?_⟩
  · rw [exec, execSEFlush, if_neg (by rw [empty]; decide)]
    rfl
  · have held : 0 < s.blk.bwCnt.toNat := Nat.pos_of_ne_zero fun z => partly (BitVec.eq_of_toNat_eq z)
    rw [exec, execSEFlush, if_pos held, outWrite_ok _ ok]
    rfl

/-! The decoder's walk (R261). -/

/-- The side that the next bit leads to has the child c. -/
theorem childOf_ok {n : Node} {x : Bool} {c : Handle}
    (side : (x = false ∧ n.lv = true ∧ c = n.l) ∨ (x = true ∧ n.rv = true ∧ c = n.r)) : childOf n x = .ok c := by
  rcases side with ⟨rfl, present, rfl⟩ | ⟨rfl, present, rfl⟩ <;> exact if_pos present

theorem walkStep_ok {b : Block} {n m : Node} {c : Handle} (here : nodeAt b b.cur = .ok n)
    (child : childOf n (b.brBuf.getLsbD 7) = .ok c) (there : nodeAt b c = .ok m) :
    walkStep b = .ok { b with
      brBuf := b.brBuf <<< 1
      brCnt := b.brCnt - 1
      cur := c
      state := if m.lv = false ∧ m.rv = false then Code.sDEmit else Code.sDBit } := by
  have here' : nodeAt (brTake b).2 (brTake b).2.cur = .ok n := here
  have child' : childOf n (brTake b).1 = .ok c := child
  have there' : nodeAt (brTake b).2 c = .ok m := there
  simp only [walkStep, here', child', there', bind, Except.bind, isLeaf_iff]
  rfl

/-- Settles O40: the walk starts from the bits held or from the byte at the cursor, and in either block it reads the
same arena. -/
theorem decodeBitResult : Obligations.DecodeBitResult := by
  unfold Obligations.DecodeBitResult
  intro buf cnt size h n m c s source here side there
  rcases source with ⟨held, rfl, rfl, rfl, rfl⟩ | ⟨dry, ok, byte, rfl, rfl, rfl⟩
  · rw [exec, execSDBit, if_neg held, walkStep_ok here (childOf_ok side) there]
    rfl
  · have walk := walkStep_ok (b := brLoad buf (countIn s.blk)) here (childOf_ok side) there
    rw [exec, execSDBit, if_pos dry, inRead_byte ok byte, dBitRefill, walk]
    rfl

end Sys2Proof.Machine
end

section
/-! PROOFS of the family 45_file_codec: the host commands (R230 to R235), what the writing micro-operations leave
unchanged (R250, R253, R254, R262), the ends of S_D_BIT and S_D_EMIT (R261, R262), and that a command launched from
CleanLaunch ends with DONE or ERR (R280, R356, R374). -/

namespace Sys2Proof.Machine

/-! The host commands (R230 to R235). -/

theorem onCommand_idle {act : Block → Block} {s : State} (idle : s.blk.busy = false) :
    onCommand act s = .next { s with blk := act s.blk } := by simp [onCommand, idle]

theorem onCommand_busy {act : Block → Block} {s : State} (busy : s.blk.busy = true) :
    onCommand act s = .next { s with blk := busyWrite s.blk } := by simp [onCommand, busy]

/-- The commands that start the sequencer. -/
def isLaunch (i : Instr) : Prop := (∃ ign, i = .encode ign) ∨ (∃ ign, i = .decode ign)

/-- The one split over the commands: ACK and the reserved commands act on the flags, the others are launches. -/
theorem exec_command_cases {i : Instr} (command : isCommand i = true) :
    exec i = onCommand ackReturn ∨ exec i = onCommand illegalCommand ∨
      (isLaunch i ∧ ∃ mode first, exec i = onLaunch mode first) := by
  cases i
  case ack => exact .inl rfl
  case encode ign => exact .inr (.inr ⟨.inl ⟨ign, rfl⟩, 1#2, Code.sECount, rfl⟩)
  case decode ign => exact .inr (.inr ⟨.inr ⟨ign, rfl⟩, 2#2, Code.sDHdr, rfl⟩)
  -- The thirteen reserved commands; the micro-operations are no commands.
  all_goals cases command
  all_goals exact .inr (.inl rfl)

theorem exec_reservedCommand {i : Instr} (reserved : isReservedCommand i = true) :
    exec i = onCommand illegalCommand := by
  cases i <;> cases reserved
  all_goals rfl

theorem errorWord_ackReturn (b : Block) : errorWord (ackReturn b) = 0 :=
  show (stageBitsOf .none ++ codeBitsOf .none).setWidth 32 = 0#32 by decide

theorem errorWord_illegalCommand (b : Block) : errorWord (illegalCommand b) = 0x00000076#32 :=
  show (stageBitsOf .command ++ codeBitsOf .illegalCommand).setWidth 32 = 0x00000076#32 by decide

/-- Settles O13: an idle block takes the command, which is the return from an error. -/
theorem ackClearsFlagsAndError : Obligations.AckClearsFlagsAndError := by
  unfold Obligations.AckClearsFlagsAndError
  intro ign s idle
  exact ⟨_, onCommand_idle idle, rfl, errorWord_ackReturn s.blk, rfl⟩

/-- Settles O15: all thirteen have one meaning. -/
theorem reservedCommandsAreIllegal : Obligations.ReservedCommandsAreIllegal := by
  unfold Obligations.ReservedCommandsAreIllegal
  intro i s reserved idle
  rw [exec_reservedCommand reserved]
  exact ⟨_, onCommand_idle idle, rfl, errorWord_illegalCommand s.blk, rfl⟩

/-- Settles O16: a busy block only notes a command, a launch among them, wherever the cursor stands. -/
theorem commandsWhileBusyOnlySetRej : Obligations.CommandsWhileBusyOnlySetRej := by
  unfold Obligations.CommandsWhileBusyOnlySetRej
  intro i s command busy
  rcases exec_command_cases command with q | q | ⟨-, mode, first, q⟩ <;> rw [q]
  · exact onCommand_busy busy
  · exact onCommand_busy busy
  · exact onLaunch_busy busy

/-- A command that answers a next state acts on the block alone, or is only noted. -/
theorem onCommand_next {act : Block → Block} {s t : State} (e : onCommand act s = .next t) :
    ∃ b, (b = busyWrite s.blk ∨ b = act s.blk) ∧ t = { s with blk := b } := by
  rcases Bool.eq_false_or_eq_true s.blk.busy with busy | idle
  · rw [onCommand_busy busy] at e
    exact ⟨_, .inl rfl, (Host.Outcome.next.inj e).symm⟩
  · rw [onCommand_idle idle] at e
    exact ⟨_, .inr rfl, (Host.Outcome.next.inj e).symm⟩

/-- c is b but for DONE, ERR, REJ and ERROR. -/
def FlagsOnly (b c : Block) : Prop :=
  c = { b with done := c.done, err := c.err, rej := c.rej, errCode := c.errCode, errStage := c.errStage }

theorem FlagsOnly.arena {b c : Block} (h : FlagsOnly b c) : c.node = b.node ∧ c.wl = b.wl := by
  rw [h]
  exact ⟨rfl, rfl⟩

/-- Settles O49: a command acts on the block alone; acceptance keeps NODE and WL, and every other command, like the
busy write, sets flags only. -/
theorem commandsFrame : Obligations.CommandsFrame := by
  unfold Obligations.CommandsFrame
  intro i s t command e
  have flags {act : Block → Block} (e : onCommand act s = .next t) (acts : FlagsOnly s.blk (act s.blk)) :
      t.host = s.host ∧ t.cfg = s.cfg ∧ FlagsOnly s.blk t.blk := by
    obtain ⟨b, rfl | rfl, rfl⟩ := onCommand_next e
    · exact ⟨rfl, rfl, rfl⟩
    · exact ⟨rfl, rfl, acts⟩
  rcases exec_command_cases command with q | q | ⟨launch, mode, first, q⟩ <;> rw [q] at e
  · obtain ⟨host, cfg, only⟩ := flags e rfl
    exact ⟨host, cfg, only.arena.1, only.arena.2, fun _ _ => only⟩
  · obtain ⟨host, cfg, only⟩ := flags e rfl
    exact ⟨host, cfg, only.arena.1, only.arena.2, fun _ _ => only⟩
  · have other : (∀ ign, i ≠ .encode ign) → (∀ ign, i ≠ .decode ign) → FlagsOnly s.blk t.blk := fun encode decode =>
      launch.elim (fun ⟨ign, q⟩ => absurd q (encode ign)) (fun ⟨ign, q⟩ => absurd q (decode ign))
    obtain ⟨b, rfl | rfl, rfl⟩ := onCommand_next (onLaunch_next e).1
    · exact ⟨rfl, rfl, rfl, rfl, other⟩
    · exact ⟨rfl, rfl, rfl, rfl, other⟩

/-! What the writing micro-operations leave unchanged (R250, R253, R254, R262). -/

/-- The micro-operations that use the output port alone. -/
abbrev writingSteps : List Instr := [.sEHdr, .sEWrite, .sEFlush, .sDEmit]

/-- A writing micro-operation leaves the host's side as it is, or makes one write. -/
theorem writingStep_host {i : Instr} {s t : State} (writing : i ∈ writingSteps) (e : exec i s = .next t) :
    ∃ h, (h = s.host ∨ ∃ x, h = (outWrite x s.host).2) ∧ t = { s with blk := t.blk, host := h } := by
  simp only [List.mem_cons, List.not_mem_nil, or_false] at writing
  rcases writing with rfl | rfl | rfl | rfl
  · exact ⟨_, .inr ⟨_, rfl⟩, (execSEHdr_cases e).2.1⟩
  · exact ⟨_, .inr ⟨_, rfl⟩, (execSEWrite_cases e).1⟩
  · rcases execSEFlush_cases e with ⟨-, rfl⟩ | ⟨-, q, -⟩
    · exact ⟨_, .inl rfl, rfl⟩
    · exact ⟨_, .inr ⟨_, rfl⟩, q⟩
  · obtain ⟨n, -, q, -⟩ := execSDEmit_cases e
    exact ⟨_, .inr ⟨_, rfl⟩, q⟩

/-- Settles O47: each way a writing micro-operation ends writes the registers named for it, or is error entry, which
writes the control registers alone; a write answered Ok appends one byte. -/
theorem writingStepsFrame : Obligations.WritingStepsFrame := by
  unfold Obligations.WritingStepsFrame
  intro s t
  refine ⟨fun e => ?header, fun i drains e => ?drain, fun e => ?emit, fun i writing e => ?host⟩
  case header =>
    rcases (execSEHdr_cases e).2.2 with ⟨-, q⟩ | ⟨-, ⟨-, -, q⟩ | ⟨-, -, q⟩ | ⟨-, q⟩⟩ <;> rw [q] <;> rfl
  case drain =>
    simp only [List.mem_cons, List.not_mem_nil, or_false] at drains
    rcases drains with rfl | rfl
    · rcases (execSEWrite_cases e).2 with ⟨-, q⟩ | ⟨-, q⟩ <;> rw [q]; rfl
    · rcases execSEFlush_cases e with ⟨-, rfl⟩ | ⟨-, -, ⟨-, q⟩ | ⟨-, q⟩⟩
      · rfl
      · rw [q]; rfl
      · rw [q]; rfl
  case emit =>
    obtain ⟨n, -, -, ⟨-, q⟩ | ⟨-, -, q⟩ | ⟨-, -, q⟩⟩ := execSDEmit_cases e <;> rw [q] <;> rfl
  case host =>
    obtain ⟨h, rfl | ⟨x, rfl⟩, q⟩ := writingStep_host writing e <;> rw [q]
    · exact ⟨rfl, rfl, rfl, rfl, rfl, fun _ => .inl rfl⟩
    · refine ⟨rfl, outWrite_inData x _, outWrite_icur x _, outWrite_inBound x _, outWrite_outBound x _, fun ok => ?_⟩
      rw [outWrite_ok x ok]
      exact .inr ⟨x, rfl⟩

/-! The ends of S_D_BIT and S_D_EMIT (R261, R262, R303). -/

/-- The side that the next bit leads to has no child. -/
theorem childOf_absent {n : Node} {x : Bool} (side : (x = false ∧ n.lv = false) ∨ (x = true ∧ n.rv = false)) :
    childOf n x = .error (.raise .formatError .bitDecode) := by
  rcases side with ⟨rfl, absent⟩ | ⟨rfl, absent⟩ <;> simp [childOf, absent]

theorem walkStep_absent {b : Block} {n : Node} (here : nodeAt b b.cur = .ok n)
    (side : (b.brBuf.getLsbD 7 = false ∧ n.lv = false) ∨ (b.brBuf.getLsbD 7 = true ∧ n.rv = false)) :
    walkStep b = .error (.raise .formatError .bitDecode) := by
  have here' : nodeAt (brTake b).2 (brTake b).2.cur = .ok n := here
  have child : childOf n (brTake b).1 = .error (.raise .formatError .bitDecode) := childOf_absent side
  simp only [walkStep, here', child, bind, Except.bind]

/-- Settles O41: the end of the input raises before the walk, and a side without a child in it; error entry acts on the
block as it was before the step. -/
theorem decodeBitErrors : Obligations.DecodeBitErrors := by
  unfold Obligations.DecodeBitErrors
  intro buf h n s
  refine ⟨fun dry ok atEnd => ?_, fun source here side => ?_⟩
  · rw [exec, execSDBit, if_pos dry, inRead_eof ok atEnd.ge]
    rfl
  · rcases source with ⟨held, rfl, rfl⟩ | ⟨dry, ok, byte, rfl⟩
    · rw [exec, execSDBit, if_neg held, walkStep_absent here side, finish_raise]
    · have walk := walkStep_absent (b := brLoad buf (countIn s.blk)) here side
      rw [exec, execSDBit, if_pos dry, inRead_byte ok byte, dBitRefill, walk, finish_raise]

/-- R262: with the byte written, S_D_EMIT completes or goes on by DEC_CNT. -/
theorem dEmitStep_ok (b : Block) :
    dEmitStep .ok b = .ok
      (if b.decCnt + 1 = b.total then complete (nextSymbol b) else goto Code.sDBit (nextSymbol b)) :=
  (apply_ite Except.ok ..).symm

/-- Settles O42: the byte is accepted, so S_D_EMIT commits. -/
theorem decodeEmitResult : Obligations.DecodeEmitResult := by
  unfold Obligations.DecodeEmitResult
  intro n s here ok
  rw [exec, execSDEmit, here]
  dsimp only
  rw [outWrite_ok _ ok, dEmitStep_ok, finish_ok]
  rfl

/-! The order in which a command comes to its end (R240, R241): by the phase of its state, then by the rounds left of
the loops, then by the place within a round. -/

/-- The states from the end of a command back to its start (R240, R241). Only within one row can a state come again. -/
def phases : List (List (BitVec 5)) :=
  [[Code.sIdle], [Code.sEFlush], [Code.sERead, Code.sEBit, Code.sEWrite], [Code.sEHdr], [Code.sCGen],
    [Code.sDBit, Code.sDEmit], [Code.sTMerge], [Code.sTInit], [Code.sERewind, Code.sDHdr], [Code.sECount]]

/-- The row of a state. -/
def phase (c : BitVec 5) : Nat := phases.findIdx (·.contains c)

/-- The input from the cursor on (R60). -/
def unread (h : HostSide) : Nat := h.inData.length - h.icur

/-- The rounds left of the loops that read nothing: candidates to merge, header bytes, symbols to decode. -/
def roundsOf (b : Block) : Nat := b.wlLen.toNat + (1024 - b.hdrIdx.toNat) + (b.total.toNat - b.decCnt.toNat)

/-- The rounds left of all loops. -/
def roundsLeft (s : State) : Nat := unread s.host + roundsOf s.blk

/-- The bits of the codeword that are not yet in the writer (R252). -/
def bitsLeft (b : Block) : Nat := (codeLenAt b b.sym).toNat - b.bitIdx.toNat

/-- The place within a round: one symbol's codeword going into the writer, which may be full in between (R252, R253), or
one walk down the tree, to ever lower handles (R167, R261). -/
def placeInRound (b : Block) : Nat :=
  if b.state = Code.sEBit then 2 * bitsLeft b + 1
  else if b.state = Code.sEWrite then 2 * bitsLeft b + 2
  else if b.state = Code.sDBit then b.cur.toNat + 1
  else 0

/-- How far the running command is from its end. -/
def commandRank (s : State) : Nat ×ₗ Nat ×ₗ Nat :=
  toLex (phase s.blk.state, toLex (roundsLeft s, placeInRound s.blk))

/-- The command is nearer to its end in t than in s. -/
inductive Nearer (t s : State) : Prop
  | laterPhase (less : phase t.blk.state < phase s.blk.state)
  | fewerRounds (same : phase t.blk.state = phase s.blk.state) (less : roundsLeft t < roundsLeft s)
  | laterPlace (same : phase t.blk.state = phase s.blk.state) (rounds : roundsLeft t = roundsLeft s)
    (less : placeInRound t.blk < placeInRound s.blk)

theorem Nearer.rank_lt {s t : State} (n : Nearer t s) : commandRank t < commandRank s := by
  simp only [commandRank, Prod.Lex.toLex_lt_toLex]
  cases n with
  | laterPhase less => exact .inl less
  | fewerRounds same less => exact .inr ⟨same, .inl less⟩
  | laterPlace same rounds less => exact .inr ⟨same, .inr ⟨rounds, less⟩⟩

/-- The micro-operations that can go on within their phase. -/
abbrev loopSteps : List Instr :=
  [.sECount, .sTMerge, .sEHdr, .sERead, .sEBit, .sEWrite, .sDHdr, .sDBit, .sDEmit]

/-- No successor is of an earlier phase. -/
theorem successors_phase (mode : BitVec 2) (c : BitVec 5) : ∀ d ∈ successors (decodeState c) mode,
    phase d < phase c ∨ (phase d = phase c ∧ decodeState c ∈ loopSteps) := by
  revert mode c
  decide

/-- Only S_IDLE is of the last phase. -/
theorem phase_pos : ∀ c : BitVec 5, c ≠ Code.sIdle → phase Code.sIdle < phase c := by decide

/-- A micro-operation goes on to a later phase, or commits within its own. -/
theorem Ends.phase_cases {b c : Block} (run : b.state ≠ Code.sIdle) (e : Ends (decodeState b.state) b c) :
    phase c.state < phase b.state ∨
      (phase c.state = phase b.state ∧ decodeState b.state ∈ loopSteps ∧ Commits b (decodeState b.state) c) := by
  cases e with
  | commits h =>
    rcases h.control with ⟨-, next⟩ | ⟨d, rfl, -⟩
    · exact (successors_phase _ _ _ next).imp_right fun ⟨same, loop⟩ => ⟨same, loop, h⟩
    · exact .inl (phase_pos _ run)
  | raises k g _ q => exact .inl (q ▸ phase_pos _ run)

/-! The input (R61, R63). -/

theorem unread_inRead_byte {h : HostSide} {x : Byte} (ok : h.ansErr = false) (byte : h.inData[h.icur]? = some x) :
    unread (inRead h).2 + 1 = unread h := by
  have inside : h.icur < h.inData.length := (List.getElem?_eq_some_iff.mp byte).1
  rw [inRead_byte ok byte]
  show h.inData.length - (h.icur + 1) + 1 = h.inData.length - h.icur
  omega

theorem unread_outWrite (x : Byte) (h : HostSide) : unread (outWrite x h).2 = unread h := by
  rw [unread, outWrite_inData, outWrite_icur, unread]

theorem writingStep_unread {i : Instr} {s t : State} (writing : i ∈ writingSteps) (e : exec i s = .next t) :
    unread t.host = unread s.host := by
  obtain ⟨h, rfl | ⟨x, rfl⟩, q⟩ := writingStep_host writing e <;> rw [q]
  exact unread_outWrite x s.host

theorem internalStep_unread {i : Instr} {s t : State} (internal : i ∈ internalSteps) (e : exec i s = .next t) :
    unread t.host = unread s.host := by
  rw [internalStep_host internal e]

/-- Error entry leaves the phase of a running block. -/
theorem not_raised {s t : State} {c : ErrCode} {g : Stage} (run : s.blk.state ≠ Code.sIdle)
    (same : phase t.blk.state = phase s.blk.state) : t.blk ≠ errorEntry c g s.blk := fun q => by
  have less := phase_pos _ run
  rw [← same, q] at less
  exact Nat.lt_irrefl _ less

/-- The micro-operations that read one byte in each round of their loop. -/
abbrev byteLoops : List Instr := [.sECount, .sERead, .sDHdr]

/-- Within their phase they read a byte: Err, Eof and a byte refused lead out of it. -/
theorem byteLoop_unread {i : Instr} {s t : State} (loop : i ∈ byteLoops) (code : encodeWord i = .state s.blk.state)
    (run : s.blk.state ≠ Code.sIdle) (same : phase t.blk.state = phase s.blk.state) (e : exec i s = .next t) :
    unread t.host + 1 = unread s.host := by
  simp only [List.mem_cons, List.not_mem_nil, or_false] at loop
  rcases loop with rfl | rfl | rfl
  · obtain ⟨frame, ⟨-, q⟩ | ⟨-, -, q⟩ | ⟨x, ok, byte, -⟩⟩ := execSECount_cases e
    · exact absurd q (not_raised run same)
    · rw [q, ← CodeWord.state.inj code] at same
      exact absurd same (show phase Code.sERewind ≠ phase Code.sECount by decide)
    · rw [frame]
      exact unread_inRead_byte ok byte
  · obtain ⟨frame, ⟨-, q⟩ | ⟨-, q⟩ | ⟨-, -, -, q⟩ | ⟨x, ok, byte, -⟩⟩ := execSERead_cases e
    · exact absurd q (not_raised run same)
    · exact absurd q (not_raised run same)
    · rw [q, ← CodeWord.state.inj code] at same
      exact absurd same (show phase Code.sEFlush ≠ phase Code.sERead by decide)
    · rw [frame]
      exact unread_inRead_byte ok byte
  · obtain ⟨frame, ⟨-, q⟩ | ⟨-, -, q⟩ | ⟨x, ok, byte, -⟩⟩ := execSDHdr_cases e
    · exact absurd q (not_raised run same)
    · exact absurd q (not_raised run same)
    · rw [frame]
      exact unread_inRead_byte ok byte

/-! The three ways to come nearer within a phase. -/

theorem Nearer.ofRead {s t : State} (same : phase t.blk.state = phase s.blk.state)
    (read : unread t.host + 1 = unread s.host) (rounds : roundsOf t.blk ≤ roundsOf s.blk) : Nearer t s :=
  .fewerRounds same (by unfold roundsLeft; omega)

theorem Nearer.ofRound {s t : State} (same : phase t.blk.state = phase s.blk.state)
    (input : unread t.host = unread s.host) (round : roundsOf t.blk + 1 = roundsOf s.blk) : Nearer t s :=
  .fewerRounds same (by unfold roundsLeft; omega)

theorem Nearer.ofPlace {s t : State} (same : phase t.blk.state = phase s.blk.state)
    (input : unread t.host = unread s.host) (rounds : roundsOf t.blk = roundsOf s.blk)
    (place : placeInRound t.blk < placeInRound s.blk) : Nearer t s :=
  .laterPlace same (by rw [roundsLeft, input, rounds, roundsLeft]) place

/-! The rounds of the loops. -/

/-- The loop steps that write no tree: a merge is apart. -/
abbrev countedLoops : List Instr := [.sECount, .sEHdr, .sERead, .sEBit, .sEWrite, .sDHdr, .sDBit, .sDEmit]

/-- The rounds of `roundsOf` that a commit makes: a header byte or a symbol is one. -/
def roundsMade (i : Instr) : Nat :=
  match i with
  | .sEHdr | .sDHdr | .sDEmit => 1
  | _ => 0

theorem header_round {b : Block} (room : b.hdrIdx.toNat < 1024) :
    b.wlLen.toNat + (1024 - (b.hdrIdx + 1).toNat) + (b.total.toNat - b.decCnt.toNat) + 1 = roundsOf b := by
  have next : (b.hdrIdx + 1).toNat = b.hdrIdx.toNat + 1 := by bv_omega
  unfold roundsOf
  omega

theorem symbol_round {b : Block} (more : b.decCnt < b.total) :
    b.wlLen.toNat + (1024 - b.hdrIdx.toNat) + (b.total.toNat - (b.decCnt + 1).toNat) + 1 = roundsOf b := by
  have left : b.decCnt.toNat < b.total.toNat := more
  have next : (b.decCnt + 1).toNat = b.decCnt.toNat + 1 := by bv_omega
  unfold roundsOf
  omega

/-- R250, R260, R262: a header byte or a symbol is one round, and the other loop steps leave the rounds as they are. -/
theorem MachineInv.rounds {i : Instr} {s : State} {c : Block} (v : MachineInv s)
    (code : encodeWord i = .state s.blk.state) (loop : i ∈ countedLoops) (h : Commits s.blk i c) :
    roundsOf c + roundsMade i = roundsOf s.blk := by
  cases h with
  | noSymbol | noSymbolEnds | codes => simp at loop
  | treeEnds _ tree | merges _ tree => rcases tree with rfl | rfl <;> simp at loop
  | header | headerEnds | headerOnly => exact header_round (v.index.atHeader (.inl (CodeWord.state.inj code).symm))
  | headerRead => exact header_round (v.index.atHeader (.inr (CodeWord.state.inj code).symm))
  | emits | emitsLast => exact symbol_round (v.tree.atEmit (CodeWord.state.inj code).symm).2.2
  | walks c has => rcases has with ⟨-, rfl⟩ | ⟨x, rfl⟩ <;> rfl
  | _ => rfl

/-- R171: a merge is one round. -/
theorem TreeInv.merge_rounds {s t : State} (v : TreeInv s.blk) (state : s.blk.state = Code.sTMerge)
    (e : exec .sTMerge s = .next t) : roundsOf t.blk + 1 = roundsOf s.blk := by
  obtain ⟨merge, -⟩ := v.atMerge state
  obtain ⟨a, c, rest, w⟩ := execSTMerge_two merge.fits e
  obtain ⟨d, ok⟩ := merge.merges
  have frame := execSTMerge_frame e
  have before : s.blk.wlLen.toNat = rest.length + 2 := by
    rw [← worklist_length s.blk merge.fits, w]
    rfl
  have after : t.blk.wlLen.toNat = rest.length + 1 := by
    rw [execSTMerge_of_mergeOnce ok] at e
    cases e
    rw [(mergeSuccessor_keeps d).2.2.2, (merged_of_mergeOnce w ok).len]
  have hdrIdx : t.blk.hdrIdx = s.blk.hdrIdx := (congrArg Block.hdrIdx frame :)
  have total : t.blk.total = s.blk.total := (congrArg Block.total frame :)
  have decCnt : t.blk.decCnt = s.blk.decCnt := (congrArg Block.decCnt frame :)
  simp only [roundsOf, hdrIdx, total, decCnt]
  omega

/-! The place within a round. -/

theorem placeInRound_bit {b : Block} (state : b.state = Code.sEBit) : placeInRound b = 2 * bitsLeft b + 1 :=
  if_pos state

theorem placeInRound_write {b : Block} (state : b.state = Code.sEWrite) : placeInRound b = 2 * bitsLeft b + 2 := by
  rw [placeInRound, if_neg (by rw [state]; decide), if_pos state]

theorem placeInRound_walk {b : Block} (state : b.state = Code.sDBit) : placeInRound b = b.cur.toNat + 1 := by
  rw [placeInRound, if_neg (by rw [state]; decide), if_neg (by rw [state]; decide), if_pos state]

theorem placeInRound_out {b : Block} (k : BitVec 5) (state : b.state = k)
    (out : k ∉ [Code.sEBit, Code.sEWrite, Code.sDBit] := by decide) : placeInRound b = 0 := by
  subst state
  simp only [List.mem_cons, List.not_mem_nil, or_false, not_or] at out
  obtain ⟨bit, write, walk⟩ := out
  rw [placeInRound, if_neg bit, if_neg write, if_neg walk]

/-- R252: one bit fewer is left, whether the writer is full now or not. -/
theorem Commits.bit_place {b c : Block} (h : Commits b .sEBit c) (state : b.state = Code.sEBit)
    (left : b.bitIdx < codeLenAt b b.sym) : placeInRound c < placeInRound b := by
  cases h with
  | treeEnds _ tree | merges _ tree => simp at tree
  | bit =>
    rw [placeInRound_bit state]
    have fewer : (codeLenAt b b.sym).toNat - (b.bitIdx + 1).toNat + 1 = bitsLeft b := by
      have inside : b.bitIdx.toNat < (codeLenAt b b.sym).toNat := left
      have next : (b.bitIdx + 1).toNat = b.bitIdx.toNat + 1 := by bv_omega
      unfold bitsLeft
      omega
    by_cases full : b.bwCnt + 1 = 8
    · rw [placeInRound_write (if_pos full)]
      show 2 * ((codeLenAt b b.sym).toNat - (b.bitIdx + 1).toNat) + 2 < _
      omega
    · by_cases last : b.bitIdx + 1 = codeLenAt b b.sym
      · rw [placeInRound_out Code.sERead ((if_neg full).trans (if_pos last))]
        exact Nat.succ_pos _
      · rw [placeInRound_bit ((if_neg full).trans (if_neg last))]
        show 2 * ((codeLenAt b b.sym).toNat - (b.bitIdx + 1).toNat) + 1 < _
        omega

/-- R253: the writer is empty again. -/
theorem Commits.byte_place {b c : Block} (h : Commits b .sEWrite c) (state : b.state = Code.sEWrite) :
    placeInRound c < placeInRound b := by
  cases h with
  | treeEnds _ tree | merges _ tree => simp at tree
  | byte =>
    rw [placeInRound_write state]
    by_cases more : b.bitIdx < codeLenAt b b.sym
    · rw [placeInRound_bit (if_pos more)]
      exact Nat.lt_succ_self _
    · rw [placeInRound_out Code.sERead (if_neg more)]
      exact Nat.succ_pos _

/-- R167: the walk goes to a lower handle, unless it comes to a leaf. -/
theorem FullTree.child_lt {b : Block} {h c : Handle} {k d : Nat} {n : Node} {x : Bool} (t : FullTree b h k d)
    (here : createdNode b h = some n) (child : IsChild n x c) : c < h := by
  cases t with
  | leaf _ m created leaf =>
    cases created.symm.trans here
    obtain ⟨lv, rv⟩ := (isLeaf_iff n).mp leaf
    simp [IsChild, lv, rv] at child
  | node _ m _ _ _ _ created _ _ left right =>
    cases created.symm.trans here
    rcases child with ⟨-, -, rfl⟩ | ⟨-, -, rfl⟩
    · exact left
    · exact right

theorem WalkAt.child_lt {b : Block} {h c : Handle} {d : Nat} {n m : Node} {x : Bool} (t : WalkAt b h d)
    (here : createdNode b h = some n) (child : IsChild n x c) (there : nodeAt b c = .ok m) (inner : isLeaf m = false) :
    c < h := by
  cases t with
  | full k d t => exact t.child_lt here child
  | single t =>
    cases t with
    | full k d t => exact t.child_lt here child
    | single n' leaf created _ rv leafCreated isLeaf =>
      cases created.symm.trans here
      rcases child with ⟨-, -, rfl⟩ | ⟨-, right, -⟩
      · cases (createdNode_nodeAt leafCreated).symm.trans there
        rw [isLeaf] at inner
        cases inner
      · rw [rv] at right
        cases right

/-- R261: a bit taken brings the walk to a leaf, or to a lower handle. -/
theorem TreeInv.walk_place {b c : Block} (v : TreeInv b) (state : b.state = Code.sDBit) (e : walkStep b = .ok c) :
    placeInRound c < placeInRound b := by
  obtain ⟨-, ⟨n, created, -⟩, ⟨d, walk⟩, -⟩ := v.atDecodeBit state
  rw [placeInRound_walk state]
  rcases walkStep_cases b with ⟨n', h, m, here, child, there, ok⟩ | ⟨_, _, _, raised⟩ | ⟨_, _, faulted⟩
  case inr.inl => rw [raised] at e; cases e
  case inr.inr => rw [faulted] at e; cases e
  obtain rfl : n = n' := Except.ok.inj ((createdNode_nodeAt created).symm.trans here)
  rw [ok] at e
  cases e
  rcases Bool.eq_false_or_eq_true (isLeaf m) with leaf | inner
  · rw [placeInRound_out Code.sDEmit (if_pos leaf)]
    exact Nat.succ_pos _
  · rw [placeInRound_walk (if_neg (by simp [inner]))]
    exact Nat.succ_lt_succ (walk.child_lt created child there inner)

/-! Every step of a running command. -/

/-- R261: a walk on a byte just read leaves less input, one on a bit held goes down the tree. -/
theorem MachineInv.bit_nearer {s t : State} (v : MachineInv s) (state : s.blk.state = Code.sDBit)
    (run : s.blk.state ≠ Code.sIdle) (same : phase t.blk.state = phase s.blk.state)
    (rounds : roundsOf t.blk = roundsOf s.blk) (e : exec .sDBit s = .next t) : Nearer t s := by
  rcases execSDBit_cases e with ⟨-, -, ⟨-, q⟩ | ⟨-, -, q⟩⟩ | ⟨b, h, walk, frame, ok | ⟨-, q⟩⟩
  · exact absurd q (not_raised run same)
  · exact absurd q (not_raised run same)
  · rcases walk with ⟨-, rfl, rfl⟩ | ⟨x, -, noErr, byte, -, rfl⟩
    · exact .ofPlace same (by rw [frame]) rounds (v.tree.walk_place state ok)
    · exact .ofRead same (by rw [frame]; exact unread_inRead_byte noErr byte) (Nat.le_of_eq rounds)
  · exact absurd q (not_raised run same)

/-- Every turn of the sequencer brings a running command nearer to its end. -/
theorem MachineInv.nearer {s t : State} (v : MachineInv s) (run : s.blk.state ≠ Code.sIdle)
    (e : exec (decodeState s.blk.state) s = .next t) : Nearer t s := by
  have micro := (sequencer_cases e).resolve_left fun h => run h.1
  rcases (microOp_ends micro.1 micro.2 e).phase_cases run with less | ⟨same, loop, commit⟩
  · exact .laterPhase less
  have code := encodeWord_decodeState s.blk.state
  generalize decodeState s.blk.state = i at e loop commit code
  have rounds (counted : i ∈ countedLoops) := v.rounds code counted commit
  simp only [List.mem_cons, List.not_mem_nil, or_false] at loop
  -- In the order of `loopSteps`.
  rcases loop with rfl | rfl | rfl | rfl | rfl | rfl | rfl | rfl | rfl <;> have state := (CodeWord.state.inj code).symm
  · exact .ofRead same (byteLoop_unread (by decide) code run same e) (Nat.le_of_eq (rounds (by decide)))
  · exact .ofRound same (internalStep_unread (by decide) e) (v.tree.merge_rounds state e)
  · exact .ofRound same (writingStep_unread (by decide) e) (rounds (by decide))
  · exact .ofRead same (byteLoop_unread (by decide) code run same e) (Nat.le_of_eq (rounds (by decide)))
  · exact .ofPlace same (internalStep_unread (by decide) e) (rounds (by decide))
      (commit.bit_place state (v.writer.atBit state).2)
  · exact .ofPlace same (writingStep_unread (by decide) e) (rounds (by decide)) (commit.byte_place state)
  · exact .ofRead same (byteLoop_unread (by decide) code run same e)
      (Nat.le_of_succ_le (Nat.le_of_eq (rounds (by decide))))
  · exact v.bit_nearer state run same (rounds (by decide)) e
  · exact .ofRound same (writingStep_unread (by decide) e) (rounds (by decide))

/-- The invariant is kept by every step. -/
theorem MachineInv.step {s t : State} (v : MachineInv s) (e : step s = .next t) : MachineInv t where
  control := controlInvariantKept s t v.control e
  writer := writerInvariantKept s t v.writer e
  index := (indexAndCursorInvariantKept s t v.index v.cursor e).1
  tree := treeInvariantKept s t v.tree e
  cursor := (indexAndCursorInvariantKept s t v.index v.cursor e).2

/-- The host lets the command run: its next event, if it has one, is a turn of the sequencer or an access (R356). -/
def LetsRun (s : State) : Prop := ∀ e rest, s.host.agenda = e :: rest → leavesRunning e = true

/-- All that a step of a running command can do: the sequencer's turn, or an access of the host, which takes an event
of the schedule and changes nothing of the command. -/
theorem running_step_cases {s t : State} (busy : s.blk.busy = true) (lets : LetsRun s) (e : Machine.step s = .next t) :
    (∃ s', s'.blk = s.blk ∧ s'.host.inData = s.host.inData ∧ s'.host.icur = s.host.icur ∧
      exec (decodeState s.blk.state) s' = .next t) ∨
    ((t.blk = s.blk ∨ t.blk = busyWrite s.blk) ∧ t.host.inData = s.host.inData ∧ t.host.icur = s.host.icur ∧
      t.host.agenda.length < s.host.agenda.length) := by
  rcases step_next_cases e with ⟨err, r, -, micro⟩ | ⟨w, r, a, cmd⟩ | ⟨_, _, _, _, a, rfl⟩ | ⟨_, _, _, a, rfl⟩ |
    ⟨_, _, idle, -, -⟩ | ⟨_, _, idle, -, -⟩ | ⟨r, a, -⟩
  · exact .inl ⟨withSchedule r err s, rfl, rfl, rfl, micro⟩
  · have noted := (exec_decodeCmd_next cmd).2
    rw [onCommand_busy (s := withSchedule r false s) busy] at noted
    cases noted
    exact .inr ⟨.inr rfl, rfl, rfl, by simp [a]⟩
  · exact .inr ⟨.inl rfl, rfl, rfl, by simp [a]⟩
  · exact .inr ⟨.inl rfl, rfl, rfl, by simp [a]⟩
  · rw [busy] at idle; cases idle
  · rw [busy] at idle; cases idle
  · cases lets _ r a

/-- R281, R310: a running block runs on, or ends with DONE or ERR. -/
theorem Ends.runs_or_done {i : Instr} {b c : Block} (e : Ends i b c) (busy : b.busy = true) :
    c.busy = true ∨ Machine.doneIrq c = true := by
  cases e with
  | commits h =>
    rcases h.control with ⟨same, -⟩ | ⟨d, rfl, -⟩
    · exact .inl ((flags_eq_iff.mp same).1.trans busy)
    · exact .inr rfl
  | raises k g _ q => exact .inr (q ▸ rfl)

/-- The rank of the command, and within it the events of the host's schedule. -/
def runRank (s : State) : (Nat ×ₗ Nat ×ₗ Nat) ×ₗ Nat := toLex (commandRank s, s.host.agenda.length)

theorem commandRank_congr {s t : State} (blk : t.blk = s.blk ∨ t.blk = busyWrite s.blk)
    (inData : t.host.inData = s.host.inData) (icur : t.host.icur = s.host.icur) : commandRank t = commandRank s := by
  have input : unread t.host = unread s.host := by rw [unread, inData, icur, unread]
  rcases blk with q | q <;> rw [commandRank, roundsLeft, input, q] <;> rfl

/-- With the invariant a running command has a step, which comes nearer to its end and ends it only with DONE or ERR. -/
theorem MachineInv.progress {s : State} (v : MachineInv s) (busy : s.blk.busy = true) (lets : LetsRun s) :
    ∃ t, Machine.step s = .next t ∧ runRank t < runRank s ∧ (t.blk.busy = true ∨ doneIrq t.blk = true) := by
  have run := v.control.busyIff.mp busy
  match e : Machine.step s with
  | .fault f => exact absurd e (v.step_ne_fault f)
  | .refused r => exact absurd e (step_ne_refused busy lets r)
  | .next t =>
    refine ⟨t, rfl, ?_⟩
    simp only [runRank, Prod.Lex.toLex_lt_toLex]
    rcases running_step_cases busy lets e with ⟨s', blk, inData, icur, micro⟩ | ⟨blk, inData, icur, shorter⟩
    · have same := commandRank_congr (.inl blk) inData icur
      have v' := v.ofSame blk inData icur
      rw [← blk] at micro run busy
      have kind := (sequencer_cases micro).resolve_left fun h => run h.1
      exact ⟨.inl (same ▸ (v'.nearer run micro).rank_lt), (microOp_ends kind.1 kind.2 micro).runs_or_done busy⟩
    · refine ⟨.inr ⟨commandRank_congr blk inData icur, shorter⟩, .inl ?_⟩
      rcases blk with q | q <;> rw [q] <;> exact busy

theorem run_succ_of_step {k : Nat} {s t : State} (e : Machine.step s = .next t) :
    Host.Core.run Sys2Proof.core (k + 1) s = Host.Core.run Sys2Proof.core k t := by
  have e' : Host.Core.step Sys2Proof.core s = .next t := e
  simp only [Host.Core.run, e']

/-- R374: a running command ends with DONE or ERR, as long as the host lets it run. P says which states the schedule
lets it come to. -/
theorem MachineInv.runs_to_end {P : State → Prop} (lets : ∀ s, P s → LetsRun s)
    (kept : ∀ s t, P s → Machine.step s = .next t → t.blk.busy = true → P t) {s : State} (v : MachineInv s) (here : P s)
    (busy : s.blk.busy = true) :
    ∃ k t, Host.Core.run Sys2Proof.core k s = .next t ∧ t.blk.busy = false ∧ MachineInv t ∧ doneIrq t.blk = true := by
  obtain ⟨t, e, less, ending⟩ := v.progress busy (lets s here)
  rcases Bool.eq_false_or_eq_true t.blk.busy with running | ended
  · obtain ⟨k, u, run, rest⟩ := (v.step e).runs_to_end lets kept (kept s t here e running) running
    exact ⟨k + 1, u, (run_succ_of_step e).trans run, rest⟩
  · refine ⟨1, t, run_succ_of_step e, ended, v.step e, ending.resolve_left ?_⟩
    rw [ended]
    exact nofun
termination_by runRank s
decreasing_by exact less

/-! The launch (R231, R232, R356). -/

theorem commandAct_launch_busy {w : Word} (launch : isLaunchWord w) (b : Block) : (commandAct w b).busy = true := by
  rcases launch with op | op <;> simp only [commandAct, op] <;> rfl

/-- From CleanLaunch the command is accepted. -/
theorem CleanLaunch.accepted {s : State} (c : CleanLaunch s) : ∃ t, Machine.step s = .next t ∧ t.blk.busy = true := by
  obtain ⟨w, rest, a, launch⟩ := c.launch
  have idle : (withSchedule rest false s).blk.busy = false := c.notBusy
  have atStart : (withSchedule rest false s).host.icur = 0 := c.atStart
  rw [step_of_cmdWrite a, exec_decodeCmd fun _ _ => atStart, onCommand_idle idle]
  exact ⟨_, rfl, commandAct_launch_busy launch s.blk⟩

/-- Settles O60: the command is accepted, and from there every step brings it nearer to an end, which is idle with DONE
or ERR. -/
theorem cleanLaunchEndsInDoneOrErr : Obligations.CleanLaunchEndsInDoneOrErr := by
  unfold Obligations.CleanLaunchEndsInDoneOrErr
  intro s v clean leaves
  obtain ⟨t, e, busy⟩ := clean.accepted
  obtain ⟨k, u, run, idle, v', high⟩ := (v.step e).runs_to_end (P := DuringCommand s)
    (fun t d e rest => leaves t e rest d) (fun t u d e busy => .goesOn t u d e busy) (.accepted t e busy) busy
  exact ⟨k, u, (run_succ_of_step e).trans run, idle, v'.control.state_of_idle idle, (doneIrq_eq_true _).mp high⟩

end Sys2Proof.Machine
end

section
/-! PROOFS of the family 60_exceptions: the three cases of StreamMismatch (R251, R306), IoError (R302, R312), and which
errors each state raises (R308). -/

namespace Sys2Proof.Machine

/-! S_E_READ (R251, R306). -/

/-- A step that raises on a condition and commits otherwise: the port transaction stays in both cases (R310). -/
theorem finish_raise_ite (p : Prop) [Decidable p] (s : State) (h : HostSide) (c : ErrCode) (g : Stage) (b : Block) :
    finish s h (if p then .error (.raise c g) else .ok b) =
      .next { s with blk := if p then errorEntry c g s.blk else b, host := h } := by
  by_cases q : p <;> simp only [q, if_true, if_false, finish_raise, finish_ok]

/-- R306: the two cases of a byte, beyond the size counted and without a codeword, raise the same error. -/
theorem eReadStep_byte (x : Byte) (b : Block) :
    eReadStep (.byte x) b =
      if b.emitCnt = b.inSize ∨ codeLenAt b x = 0 then .error (.raise .streamMismatch .bitEncode)
      else .ok { b with emitCnt := b.emitCnt + 1, sym := x, bitIdx := 0, state := Code.sEBit } :=
  (ite_or ..).symm

/-- Settles O35: the port answers the byte at the cursor or Eof, and S_E_READ raises on a condition of either. -/
theorem emitReadResult : Obligations.EmitReadResult := by
  unfold Obligations.EmitReadResult
  intro x s ok
  refine ⟨fun byte => ?_, fun atEnd => ?_⟩
  · rw [exec, execSERead, inRead_byte ok byte, eReadStep_byte, finish_raise_ite]
  · rw [exec, execSERead, inRead_eof ok atEnd.ge, eReadStep, finish_raise_ite, ite_not]
    rfl

/-! IoError (R302, R312). -/

/-- k is the host's side h after one port transaction, which keeps the input and the schedule. -/
def OneTransaction (h k : HostSide) : Prop :=
  k.inData = h.inData ∧ k.agenda = h.agenda ∧ ∃ o, k.obs = o :: h.obs

theorem inRead_oneTransaction (h : HostSide) : OneTransaction h (inRead h).2 :=
  ⟨inRead_inData h, inRead_agenda h, _, inRead_obs h⟩

theorem inRewind_oneTransaction (h : HostSide) : OneTransaction h (inRewind h).2 :=
  ⟨inRewind_inData h, inRewind_agenda h, _, inRewind_obs h⟩

theorem outWrite_oneTransaction (x : Byte) (h : HostSide) : OneTransaction h (outWrite x h).2 :=
  ⟨outWrite_inData x h, outWrite_agenda x h, _, outWrite_obs x h⟩

/-- A step that ends with IoError after one port transaction: error entry on the block as it was, and one more entry
in the record. -/
theorem ioError_of_exec {i : Instr} {g : Stage} {s : State} {h : HostSide} (one : OneTransaction s.host h)
    (e : exec i s = finish s h (.error (.raise .ioError g))) :
    ∃ (t : State) (o : Obs), exec i s = .next t ∧ t.blk = errorEntry .ioError g s.blk ∧ t.cfg = s.cfg ∧
      t.host.inData = s.host.inData ∧ t.host.agenda = s.host.agenda ∧ t.host.obs = o :: s.host.obs := by
  obtain ⟨inData, agenda, o, obs⟩ := one
  exact ⟨_, o, e, rfl, rfl, inData, agenda, obs⟩

/-- R262: with its node in the arena, S_D_EMIT writes the symbol. -/
theorem exec_sDEmit {n : Node} {s : State} (here : nodeAt s.blk s.blk.cur = .ok n) :
    exec .sDEmit s = finish s (outWrite n.sym s.host).2 (dEmitStep (outWrite n.sym s.host).1 s.blk) := by
  rw [exec, execSDEmit, here]

/-- Settles O44: each of the nine makes its port transaction, and its step on the answer Err is IoError with the stage
of its state. -/
theorem errAnswerRaisesIoError : Obligations.ErrAnswerRaisesIoError := by
  unfold Obligations.ErrAnswerRaisesIoError
  intro i g s err source
  have read : (inRead s.host).1 = .err := congrArg Prod.fst (inRead_err err)
  have rewind : (inRewind s.host).1 = .err := congrArg Prod.fst (inRewind_err err)
  have write (x : Byte) : (outWrite x s.host).1 = .err := congrArg Prod.fst (outWrite_err x err)
  rcases source with ⟨rfl, rfl⟩ | ⟨rfl, rfl⟩ | ⟨rfl, rfl, inHeader⟩ | ⟨rfl, rfl⟩ | ⟨rfl, rfl⟩ | ⟨rfl, rfl, held⟩ |
    ⟨rfl, rfl⟩ | ⟨rfl, rfl, dry⟩ | ⟨rfl, rfl, inArena⟩
  · exact ioError_of_exec (inRead_oneTransaction _) (by rw [exec, execSECount, read, countStep])
  · exact ioError_of_exec (inRewind_oneTransaction _) (by rw [exec, execSERewind, rewind, rewindStep])
  · exact ioError_of_exec (outWrite_oneTransaction _ _) (by rw [exec, execSEHdr, if_pos inHeader, write, eHdrStep])
  · exact ioError_of_exec (inRead_oneTransaction _) (by rw [exec, execSERead, read, eReadStep])
  · exact ioError_of_exec (outWrite_oneTransaction _ _) (by rw [exec, execSEWrite, write, eWriteStep])
  · have partly : 0 < s.blk.bwCnt.toNat := Nat.pos_of_ne_zero fun z => held (BitVec.eq_of_toNat_eq z)
    exact ioError_of_exec (outWrite_oneTransaction _ _) (by rw [exec, execSEFlush, if_pos partly, write, eFlushStep])
  · exact ioError_of_exec (inRead_oneTransaction _) (by rw [exec, execSDHdr, read, dHdrStep])
  · exact ioError_of_exec (inRead_oneTransaction _) (by rw [exec, execSDBit, if_pos dry, read, dBitRefill])
  · exact ioError_of_exec (outWrite_oneTransaction _ _) (by rw [exec_sDEmit (nodeAt_ok inArena), write, dEmitStep])

/-! Which state raises what (R308). -/

/-- The micro-operations that can raise, in the order of their codes. -/
abbrev raisingSteps : List Instr :=
  [.sECount, .sERewind, .sTInit, .sTMerge, .sEHdr, .sERead, .sEWrite, .sEFlush, .sDHdr, .sDBit, .sDEmit]

theorem mem_raisingSteps {i : Instr} {p : ErrCode × Stage} (h : p ∈ errorsOf i) : i ∈ raisingSteps := by
  unfold errorsOf at h
  split at h
  -- Every instruction without a row of its own raises nothing.
  on_goal -1 => cases h
  all_goals decide

/-- Settles O45: the list is the rows of `errorsOf` one after the other, and a micro-operation raises an error of its
own row. -/
theorem errorsOfEachState : Obligations.ErrorsOfEachState := by
  unfold Obligations.ErrorsOfEachState
  intro i s t m e before after
  obtain ⟨c, g, raisable, q⟩ := microOp_raises m e before after
  have row : (i, c, g) ∈ raisingSteps.flatMap fun j => (errorsOf j).map (Prod.mk j) :=
    List.mem_flatMap.mpr ⟨i, mem_raisingSteps raisable, List.mem_map_of_mem raisable⟩
  rw [q]
  exact row

end Sys2Proof.Machine
end

section
/-! PROOFS of the family 70_reset_and_hazards: the reset event (R350), and the end of every command under a schedule in
which only the sequencer steps (R366, R372, R374). -/

namespace Sys2Proof.Machine

/-! The reset event (R350). -/

theorem step_of_reset {rest : List HostEvent} {s : State} (a : s.host.agenda = .reset :: rest) :
    step s = .next (resetEvent (withSchedule rest false s)) := by
  simp [step, takeTurn, a, eventTurn]

theorem statusWord_resetBlock (d : Nat) : statusWord (resetBlock d) = 0 :=
  BitVec.eq_of_toNat_eq (statusWord_toNat (resetBlock d))

theorem errorWord_resetBlock (d : Nat) : errorWord (resetBlock d) = 0 :=
  BitVec.eq_of_toNat_eq (errorWord_toNat (resetBlock d))

/-- Settles O11: the reset event writes the values of Block.reset but for the memories, and of the host's side only the
number of the draw, so each field has its value by definition. -/
theorem resetEventValues : Obligations.ResetEventValues := by
  unfold Obligations.ResetEventValues
  intro rest s a
  exact ⟨_, step_of_reset a, rfl, rfl, rfl, rfl, rfl, rfl, rfl, rfl, rfl, statusWord_resetBlock _,
    errorWord_resetBlock _, by and_intros <;> rfl⟩

/-! Only the sequencer steps (R74, R372). -/

/-- Then its turn is next, and only the sequencer steps after it. -/
theorem onlySequencer_next {s : State} (only : onlySequencer s.host.agenda = true) :
    ∃ err rest, SequencerNext s err rest ∧ onlySequencer rest = true := by
  unfold SequencerNext
  match s.host.agenda, only with
  | [], only => exact ⟨false, [], .inl ⟨rfl, rfl, rfl⟩, only⟩
  | .seq err :: rest, only => exact ⟨err, rest, .inr rfl, only⟩

theorem onlySequencer_letsRun {s : State} (only : onlySequencer s.host.agenda = true) : LetsRun s := by
  intro e rest a
  obtain ⟨err, rest', ⟨none, -, -⟩ | a', -⟩ := onlySequencer_next only
  · rw [none] at a; cases a
  · rw [a'] at a; cases a; rfl

theorem PortStep.agenda {h k : HostSide} (p : PortStep h k) : k.agenda = h.agenda := by
  cases p with
  | none => rfl
  | read => exact inRead_agenda h
  | rewind => exact inRewind_agenda h
  | write x => exact outWrite_agenda x h

theorem sequencer_agenda {c : BitVec 5} {s t : State} (e : exec (decodeState c) s = .next t) :
    t.host.agenda = s.host.agenda := by
  rcases sequencer_cases e with ⟨-, rfl⟩ | ⟨micro, -⟩
  · rfl
  · obtain ⟨h, port, q⟩ := microOp_portStep micro e
    rw [q]
    exact port.agenda

theorem onlySequencer_kept {s t : State} (only : onlySequencer s.host.agenda = true) (e : step s = .next t) :
    onlySequencer t.host.agenda = true := by
  obtain ⟨err, rest, next, only'⟩ := onlySequencer_next only
  rw [step_of_sequencerNext next] at e
  rw [sequencer_agenda e]
  exact only'

/-- Settles O59: a block that is not busy is at its end already, and a running command comes nearer to its end with
every turn of the sequencer. -/
theorem everyCommandEnds : Obligations.EveryCommandEnds := by
  unfold Obligations.EveryCommandEnds
  intro s v only
  rcases Bool.eq_false_or_eq_true s.blk.busy with busy | idle
  · obtain ⟨k, t, run, ended, v', -⟩ := v.runs_to_end (P := fun s => onlySequencer s.host.agenda = true)
      (fun _ => onlySequencer_letsRun) (fun _ _ only e _ => onlySequencer_kept only e) only busy
    exact ⟨k, t, run, ended, v'⟩
  · exact ⟨0, s, rfl, idle, v⟩

end Sys2Proof.Machine
end
